-- ==== Sys2Proof/Word.lean ====
section
/-! DEFINITION. The widths of the pixel frame controller's values (spec/00_scope.md R6, R9). -/

namespace Sys2Proof

/-- A byte: a colour channel, a brightness, a buffer byte (R9). -/
abbrev Byte := BitVec 8

/-- A packed colour, a static colour, a buffer offset in a command word (R25, R93, R99). -/
abbrev Word24 := BitVec 24

/-- Response data, the frame counter, a transfer length (R6, R90). -/
abbrev Word32 := BitVec 32

/-- A command or response word (R90). -/
abbrev Word40 := BitVec 40

end Sys2Proof
end

