-- ==== Sys2Proof/Config.lean ====
section
/-! DEFINITION. What an implementation fixes: the parameters of spec/00_scope.md R6, the configuration a channel is
created with (R7), and the free values of the spec, each an opaque constant nothing can evaluate. -/

namespace Sys2Proof

/-- The two regions of the double buffer, region ids 1 and 2 (20_memory.md R60). -/
inductive Region where
  | one
  | two
deriving DecidableEq, Repr

/-- A colour value, channels in the order blue, red, green (10_state.md R26, 30_encoding.md R98). -/
structure Colour where
  blue : Byte
  red : Byte
  green : Byte
deriving DecidableEq, Repr

/-- `FRAME_WRAP` (R6): what the frame counter does at 2^32 - 1. -/
inductive FrameWrap where
  | wrap
  | fault
deriving DecidableEq, Repr

/-- `EARLY_END_POLICY` (R6): what an absent generator result does before the last pixel. -/
inductive EarlyEnd where
  | skip
  | anyValue
deriving DecidableEq, Repr

/-- `PREEMPT_GRANULARITY` (R6): whether a COMPUTE_FRAME is micro-steps or one step. -/
inductive Granularity where
  | micro
  | op
deriving DecidableEq, Repr

/-- `BUF_RESET` (R6): unspecified, or the bytes of both regions in order of offset. -/
inductive BufReset where
  | unspecified
  | content (bytes1 bytes2 : List Byte)
deriving DecidableEq, Repr

/-- One listed answer of the generator (47_collaborator_ports.md R230, R231); see log entry 8. -/
structure GenEntry where
  stripId : Byte
  stripLength : Byte
  frame : Word32
  pixel : Byte
  answer : Option Colour
deriving DecidableEq, Repr

/-- The parameters of one channel (R6). `BUF_LEN` is below 2^24 by its type. `genTable` lists answers of the
generator; an unlisted query is answered by `Config.gen` (log entry 8). -/
structure Params where
  bufLen : Word24
  activeReset : Bool
  bufReset : BufReset
  frameWrap : FrameWrap
  pairD0IsLowBit : Bool
  earlyEnd : EarlyEnd
  preempt : Granularity
  genTable : List GenEntry
deriving DecidableEq, Repr

/-- The defaults of R6, with the recommended `BUF_LEN` = 3060 (D6; DESIGN CHOICE, unsafe where a statement rests on
the value, log entry 5) and no listed generator answer. -/
def Params.default : Params where
  bufLen := 3060
  activeReset := true
  bufReset := .unspecified
  frameWrap := .wrap
  pairD0IsLowBit := true
  earlyEnd := .skip
  preempt := .micro
  genTable := []

/-- The display source: the generator, or a static unscaled colour, blue in bits 23:16 (10_state.md R25). -/
inductive Source where
  | generator
  | static (colour : Word24)
deriving DecidableEq, Repr

/-- What the creation of a channel is given (R7, 70_reset_and_hazards.md R280). -/
structure Configuration where
  stripId : Byte
  stripLength : Byte
  brightness : Byte
  source : Source
deriving DecidableEq, Repr

/-- The configuration of the spec's worked vectors (95_test_vectors.md S6, V6, P1): `strip_id` 7, three pixels,
brightness 255, static BRG(10,20,30). DESIGN CHOICE, unsafe: the spec gives no default (log entry 6). -/
def Configuration.worked : Configuration where
  stripId := 7
  stripLength := 3
  brightness := 255
  source := .static 0x0A141E

/-- Free value: the generator's answer to (strip_id, strip_length, frame_number, pixel_index) in the channel life
numbered by the first argument (R230). Any total function; log entry 8. -/
opaque Config.gen : Nat → Byte → Byte → Word32 → Byte → Option Colour

/-- Free value: the byte a region holds at an offset after reset when `BUF_RESET` does not give it (R283, U5), in the
channel life numbered by the first argument; log entry 9. -/
opaque Config.bufReset : Nat → Region → Nat → Byte

/-- Free value: the bytes a slot takes under `EARLY_END_POLICY` = any_value (44_producer.md R185), in the channel life
numbered by the first argument, one for each value of the state's counter. DESIGN CHOICE: the spec says that they are
arbitrary and not how those of two slots, two runs or two lives are related; log entry 10. -/
opaque Config.freeByte : Nat → Nat → Byte

end Sys2Proof
end

