-- ==== Sys2Proof/Syntax.lean ====
section
/-! DEFINITION. The commands of the pixel frame controller, one constructor per row of spec/opcode_table.json
(30_encoding.md R92 to R94). Channels, packed values and data are bits; a pixel index, an offset and a register number
are numbers the command's rule multiplies or compares (R93), bounded by WellFormed.lean. -/

namespace Sys2Proof

/-- A command (R94). -/
inductive Instr where
  /-- TAKE_PRODUCER, 43_ownership_gate.md R162. -/
  | takeProducer
  /-- TAKE_CONSUMER, R163. -/
  | takeConsumer
  /-- SCALE, 40_color_scaler.md R120. -/
  | scale (blue red green bright : Byte)
  /-- ENCODE_PIXEL, 41_bit_encoder.md R130. -/
  | encodePixel (pix : Nat) (packed : Word24)
  /-- RB_READABLE_VIEW, 42_double_buffer.md R145. -/
  | rbReadableView
  /-- RB_WRITABLE_VIEW, R146. -/
  | rbWritableView
  /-- RB_REQUEST_SWAP, R149. -/
  | rbRequestSwap
  /-- RB_COMMIT_SWAP, R150. -/
  | rbCommitSwap
  /-- RB_LENGTH, R151. -/
  | rbLength
  /-- RB_READ, R147. -/
  | rbRead (off : Nat)
  /-- RB_WRITE, R148. -/
  | rbWrite (off : Nat) (data : Byte)
  /-- CH_REQUEST_SWAP, 43_ownership_gate.md R168. -/
  | chRequestSwap
  /-- CH_TRY_SWAP, R170. -/
  | chTrySwap
  /-- COMPUTE_FRAME, 44_producer.md R180. -/
  | computeFrame
  /-- IS_ANIMATION_FINISHED, 45_consumer.md R200. -/
  | isAnimationFinished
  /-- START_FRAME, R203. -/
  | startFrame
  /-- RD_REG, 46_host_access.md R220. -/
  | rdReg (reg : Nat)
deriving DecidableEq, Repr

end Sys2Proof
end

