-- ==== Sys2Proof/WellFormed.lean ====
section
/-! DEFINITION. Which commands fit their encoding (30_encoding.md R92, R93) and which configurations fit the buffer
(00_scope.md R8). -/

namespace Sys2Proof

/-- Every operand fits its field: `pix` and `reg` 8 bits, `off` 24 bits (R93). The other operands fit by their type.
An operand value out of range for the machine is no encoding error (R96). -/
def Instr.wellFormed : Instr → Bool
  | .takeProducer => true
  | .takeConsumer => true
  | .scale _ _ _ _ => true
  | .encodePixel pix _ => decide (pix < 2 ^ 8)
  | .rbReadableView => true
  | .rbWritableView => true
  | .rbRequestSwap => true
  | .rbCommitSwap => true
  | .rbLength => true
  | .rbRead off => decide (off < 2 ^ 24)
  | .rbWrite off _ => decide (off < 2 ^ 24)
  | .chRequestSwap => true
  | .chTrySwap => true
  | .computeFrame => true
  | .isAnimationFinished => true
  | .startFrame => true
  | .rdReg reg => decide (reg < 2 ^ 8)

/-- The capacity constraint R8: the frame of the configuration fits one region. -/
def Configuration.fits (cfg : Configuration) (par : Params) : Bool :=
  decide (cfg.stripLength.toNat * 12 ≤ par.bufLen.toNat)

end Sys2Proof
end

