-- ==== Sys2Proof/Decode.lean ====
section
/-! DEFINITION. Command words: the decoder, total on every 40-bit word and rejecting by name, and after it the encoder,
both from the tables of 30_encoding.md R90 to R97. -/

namespace Sys2Proof

/-- Why a word is no command: both are answered ILLEGAL (R95, R96). -/
inductive DecodeError where
  /-- The opcode is in no row of R94 (R95). -/
  | reservedOpcode
  /-- A must-be-zero bit of the command's format is set (R96). -/
  | mustBeZero
deriving DecidableEq, Repr

/-- Bits 39:32 of a command word (R90). -/
def opcodeField (w : Word40) : Byte := w.extractLsb' 32 8

/-- Bits 31:0 of a command word (R90). -/
def operandField (w : Word40) : Word32 := w.extractLsb' 0 32

/-- Byte `n` of a command word: bits 8n+7 : 8n (R92). -/
def byteField (w : Word40) (n : Nat) : Byte := w.extractLsb' (8 * n) 8

/-- `off` in format OF and `packed` in format PX: bits 23:0 (R93). -/
def lowField24 (w : Word40) : Word24 := w.extractLsb' 0 24

/-- `off` in format OW: bits 31:8 (R93). -/
def highField24 (w : Word40) : Word24 := w.extractLsb' 8 24

/-- A command whose format has must-be-zero bits: refused unless all of them are 0 (R96). -/
def whenZero (mbz : Bool) (i : Instr) : Except DecodeError Instr :=
  if mbz then .ok i else .error .mustBeZero

/-- Format Z: bits 31:0 must be zero (R92). -/
def decodeZ (w : Word40) (i : Instr) : Except DecodeError Instr :=
  whenZero (operandField w == 0) i

/-- The decoder: the opcode alone selects the command, then the must-be-zero bits are checked (R94, R96). -/
def decode (w : Word40) : Except DecodeError Instr :=
  match (opcodeField w).toNat with
  | 0x01 => decodeZ w .takeProducer
  | 0x02 => decodeZ w .takeConsumer
  | 0x10 => .ok (.scale (byteField w 3) (byteField w 2) (byteField w 1) (byteField w 0))
  | 0x11 => .ok (.encodePixel (byteField w 3).toNat (lowField24 w))
  | 0x20 => decodeZ w .rbReadableView
  | 0x21 => decodeZ w .rbWritableView
  | 0x22 => decodeZ w .rbRequestSwap
  | 0x23 => decodeZ w .rbCommitSwap
  | 0x24 => decodeZ w .rbLength
  | 0x25 => whenZero (byteField w 3 == 0) (.rbRead (lowField24 w).toNat)
  | 0x26 => .ok (.rbWrite (highField24 w).toNat (byteField w 0))
  | 0x30 => decodeZ w .chRequestSwap
  | 0x31 => decodeZ w .chTrySwap
  | 0x40 => decodeZ w .computeFrame
  | 0x50 => decodeZ w .isAnimationFinished
  | 0x51 => decodeZ w .startFrame
  | 0x60 => whenZero (highField24 w == 0) (.rdReg (byteField w 0).toNat)
  | _ => .error .reservedOpcode

/-- The opcode column of R94. -/
def Instr.opcode : Instr → Byte
  | .takeProducer => 0x01
  | .takeConsumer => 0x02
  | .scale _ _ _ _ => 0x10
  | .encodePixel _ _ => 0x11
  | .rbReadableView => 0x20
  | .rbWritableView => 0x21
  | .rbRequestSwap => 0x22
  | .rbCommitSwap => 0x23
  | .rbLength => 0x24
  | .rbRead _ => 0x25
  | .rbWrite _ _ => 0x26
  | .chRequestSwap => 0x30
  | .chTrySwap => 0x31
  | .computeFrame => 0x40
  | .isAnimationFinished => 0x50
  | .startFrame => 0x51
  | .rdReg _ => 0x60

/-- The operand field of a command, by its format (R92). -/
def Instr.operand : Instr → Word32
  | .scale blue red green bright => blue ++ red ++ green ++ bright
  | .encodePixel pix packed => BitVec.ofNat 8 pix ++ packed
  | .rbRead off => 0#8 ++ BitVec.ofNat 24 off
  | .rbWrite off data => BitVec.ofNat 24 off ++ data
  | .rdReg reg => 0#24 ++ BitVec.ofNat 8 reg
  | .takeProducer => 0
  | .takeConsumer => 0
  | .rbReadableView => 0
  | .rbWritableView => 0
  | .rbRequestSwap => 0
  | .rbCommitSwap => 0
  | .rbLength => 0
  | .chRequestSwap => 0
  | .chTrySwap => 0
  | .computeFrame => 0
  | .isAnimationFinished => 0
  | .startFrame => 0

/-- The encoder: the word of a well-formed command (R90, R92). -/
def encode (i : Instr) : Word40 := i.opcode ++ i.operand

/-- The word that the low `nbits` bits of `w` make, every bit above them 0. -/
def tableWord (nbits w : Nat) : Word40 := BitVec.ofNat 40 (w % 2 ^ nbits)

/-- The command the decoder reads from the word `w` of `nbits` bits, numbered as spec/opcode_table.json numbers them:
a command is one 40-bit word, so bit 0 is bit 0 of the word. -/
def decodeTableWord (nbits w : Nat) : Option Instr :=
  (decode (tableWord nbits w)).toOption

end Sys2Proof
end

