-- ==== Sys2Proof/Machine/Memory.lean ====
section
/-! DEFINITION. One region of the buffer space as plain data (20_memory.md R60, R66): the bytes written since reset (and
the content `BUF_RESET` gives), as a list of cells in one canonical form, offsets strictly rising. -/

namespace Sys2Proof.Machine

/-- A region's listed bytes. -/
structure Memory where
  cells : List Host.Cell
deriving DecidableEq, Repr

/-- What an unlisted offset holds: no listed value. The machine reads the free value `Config.bufReset` there
(`State.readByte`; R283, U5, log entry 9). -/
def Memory.unlisted : Option Byte := none

/-- The byte listed at an offset. -/
def Memory.lookup : List Host.Cell → Nat → Option Byte
  | [], _ => Memory.unlisted
  | (k, b) :: rest, a => if k = a then some b else Memory.lookup rest a

/-- The list with one byte stored, offsets kept strictly rising. -/
def Memory.store : List Host.Cell → Nat → Byte → List Host.Cell
  | [], a, b => [(a, b)]
  | (k, c) :: rest, a, b =>
    if a < k then (a, b) :: (k, c) :: rest
    else if a = k then (a, b) :: rest
    else (k, c) :: Memory.store rest a b

/-- `MemRead` on the listed bytes (R66). -/
def Memory.read (m : Memory) (off : Nat) : Option Byte := Memory.lookup m.cells off

/-- `MemWrite` (R66). -/
def Memory.write (m : Memory) (off : Nat) (b : Byte) : Memory := ⟨Memory.store m.cells off b⟩

/-- A region with nothing listed. -/
def Memory.empty : Memory := ⟨[]⟩

/-- The first `n` bytes of a list, at offsets 0, 1, …: a region whose `BUF_RESET` content is given (R281). -/
def Memory.ofBytes (bytes : List Byte) (n : Nat) : Memory :=
  (bytes.take n).zipIdx.foldl (fun m p => m.write p.2 p.1) Memory.empty

/-- The canonical form: offsets strictly rising. No entry equals what an unlisted offset holds, which is no value. -/
abbrev Memory.wf (m : Memory) : Prop := m.cells.Pairwise (fun x y => x.1 < y.1)

/-- Every listed offset lies inside a region of `n` bytes (R66). -/
abbrev Memory.within (m : Memory) (n : Nat) : Prop := ∀ c ∈ m.cells, c.1 < n

end Sys2Proof.Machine
end

