-- ==== Sys2Proof/Machine/State.lean ====
section
/-! DEFINITION. The state of one channel as plain data (10_state.md R20), what its agents do next, the event history,
the reasons a step can stop, and the machine right after reset (70_reset_and_hazards.md R281). -/

namespace Sys2Proof.Machine

/-- The agents that issue commands (00_scope.md R5). The transfer engine issues none. -/
inductive Agent where
  | host
  | producer
  | consumer
deriving DecidableEq, Repr

/-- The classes of commands, the block's privilege levels (60_exceptions.md R266). -/
inductive CmdClass where
  | host
  | producer
  | consumer
deriving DecidableEq, Repr

/-- `src_kind` (10_state.md R25): 0 is the generator, 1 a static colour. -/
inductive SourceKind where
  | generator
  | static
deriving DecidableEq, Repr

/-- Status codes of a response (60_exceptions.md R250). -/
inductive Status where
  | ok
  | absent
  | notOwner
  | illegal
  | range
  | configFatal
deriving DecidableEq, Repr

/-- A response: status and data (30_encoding.md R90). -/
structure Response where
  status : Status
  data : Word32
deriving DecidableEq, Repr

/-- The names of the ghost set (10_state.md R45). -/
inductive Violation where
  /-- PV_EARLY_END, 60_exceptions.md R254. -/
  | earlyEnd
  /-- PV_START_BEFORE_FIRST_FRAME, R255. -/
  | startBeforeFirstFrame
  /-- PV_START_WHILE_BUSY, R256. -/
  | startWhileBusy
  /-- PV_WRITE_WHILE_BUSY, R256. -/
  | writeWhileBusy
  /-- PV_PRIMITIVE_MISUSE, R256. -/
  | primitiveMisuse
deriving DecidableEq, Repr

/-- A set of violation names, one Bool each, so that equal sets are equal data. -/
structure Violations where
  earlyEnd : Bool
  startBeforeFirstFrame : Bool
  startWhileBusy : Bool
  writeWhileBusy : Bool
  primitiveMisuse : Bool
deriving DecidableEq, Repr

/-- The empty set. -/
def Violations.empty : Violations := ⟨false, false, false, false, false⟩

/-- Where the producer context stands: no command in progress, or the next micro-step of a COMPUTE_FRAME that has
passed its gate (44_producer.md R181; 10_state.md R28 b). -/
inductive Compute where
  | idle
  /-- Next is u2.p. -/
  | pixel (p : Nat)
  /-- Next is u3. -/
  | count
  /-- Next is u4. -/
  | publish
deriving DecidableEq, Repr

/-- What an agent does next: the outside world's choice, plain data (log entry 1). `inside` says how many engine steps
fall after each byte write of the step (20_memory.md R75 e, log entry 13). -/
inductive Input where
  /-- An agent issues a command word (30_encoding.md R91). -/
  | command (agent : Agent) (word : Word40) (inside : List Nat)
  /-- The producer context takes the next micro-step of its COMPUTE_FRAME. -/
  | producer (inside : List Nat)
  /-- The transfer engine takes its next step, TX_READ or TX_DONE (47_collaborator_ports.md R234). -/
  | engine
  /-- The host creates the channel anew (70_reset_and_hazards.md R280). -/
  | reset (par : Params) (cfg : Configuration)
deriving DecidableEq, Repr

/-- The event history (47_collaborator_ports.md R239; form: log entry 15). -/
inductive Event where
  /-- A command with its agent and its response; no response yet for a COMPUTE_FRAME that has passed its gate. -/
  | command (agent : Agent) (word : Word40) (response : Option Response)
  /-- The response of that COMPUTE_FRAME, at its u4. -/
  | completed (response : Response)
  /-- A generator query with its arguments and its answer. -/
  | genQuery (stripId stripLength : Byte) (frame : Word32) (pixel : Byte) (answer : Option Colour)
  | transfer (region : Region) (len : Word32)
  | txByte (k : Nat) (value : Byte)
  | txDone
deriving DecidableEq, Repr

/-- The state of one channel. INVENTORY.md, State, says for each field the rule that names it. The fields from `par`
to `epoch` and from `inputs` on are the model's own, not the spec's. -/
structure State where
  /-- The parameters of 00_scope.md R6, constant between resets (log entry 5). -/
  par : Params
  /-- How many resets came before (log entry 17). -/
  epoch : Nat
  /-- R22. -/
  stripId : Byte
  /-- R23. -/
  stripLength : Byte
  /-- R24. -/
  brightness : Byte
  /-- R25. -/
  srcKind : SourceKind
  /-- R25. -/
  staticColor : Word24
  /-- R27. -/
  frameNumber : Word32
  /-- R29. -/
  frameRequested : Bool
  /-- R30. -/
  lastFrameCalculated : Bool
  /-- R31. -/
  lastFrameShown : Bool
  /-- R32. -/
  swapRequested : Bool
  /-- R33. -/
  activeIs1 : Bool
  /-- R34. -/
  swapPending : Bool
  /-- R35. -/
  producerTaken : Bool
  /-- R35. -/
  consumerTaken : Bool
  /-- R40. -/
  configFault : Bool
  /-- R42. -/
  buffer1 : Memory
  /-- R42. -/
  buffer2 : Memory
  /-- R43. -/
  txRegion : Option Region
  /-- R43. -/
  txLen : Word32
  /-- The engine's read position, implied by 47_collaborator_ports.md R234 (log entry 16). -/
  txNext : Nat
  /-- R44, ghost. -/
  started : Bool
  /-- R45, ghost. -/
  violations : Violations
  /-- R28 b, R181. -/
  compute : Compute
  /-- The response last given (30_encoding.md R90, log entry 14). -/
  response : Option Response
  /-- R239, oldest first. -/
  history : List Event
  /-- What the agents do next (log entry 1). -/
  inputs : List Input
  /-- Engine steps after each coming byte write of the step being run (log entry 13). -/
  inside : List Nat
  /-- The counter at which free bytes are taken (log entry 10). -/
  freeCount : Nat
deriving DecidableEq, Repr

/-- Why the machine stops. -/
inductive Fault where
  /-- Raised by micro-step u3 when `frame_number` is 2^32 - 1 and `FRAME_WRAP` = fault: "the model stops with a fault"
  (10_state.md R27, 44_producer.md R186, U3). Safe: the spec names it. -/
  | frameCounterOverflow
  /-- Raised by micro-step u2.p for a slot outside the region, an access the spec says is never performed
  (20_memory.md R66, R70). No state reached from reset raises it. Safe (log entry 12). -/
  | outsideRegion
deriving DecidableEq, Repr

/-- Why an instruction has no meaning here. -/
inductive Refusal where
  /-- Raised by an arm of `exec` that is not modelled; no arm is. Safe. -/
  | notModelled (mnemonic : String)
deriving DecidableEq, Repr

/-- The outcome of one step. -/
abbrev Result := Host.Outcome State Fault Refusal

/-- The kind of a display source (R25). -/
def SourceKind.ofSource : Source → SourceKind
  | .generator => .generator
  | .static _ => .static

/-- The colour latched for a display source; 0 for the generator, which ignores it (R25; log entry 7). -/
def staticColorOf : Source → Word24
  | .generator => 0
  | .static colour => colour

/-- The listed bytes of both regions after reset (R281, `BUF_RESET`). -/
def resetBuffers (par : Params) : Memory × Memory :=
  match par.bufReset with
  | .unspecified => (Memory.empty, Memory.empty)
  | .content bytes1 bytes2 => (Memory.ofBytes bytes1 par.bufLen.toNat, Memory.ofBytes bytes2 par.bufLen.toNat)

/-- The machine right after a reset with these parameters and this configuration, in the channel life numbered
`epoch` (70_reset_and_hazards.md R280, R281). -/
def State.resetWith (par : Params) (cfg : Configuration) (epoch : Nat) : State where
  par := par
  epoch := epoch
  stripId := cfg.stripId
  stripLength := cfg.stripLength
  brightness := cfg.brightness
  srcKind := SourceKind.ofSource cfg.source
  staticColor := staticColorOf cfg.source
  frameNumber := 0
  frameRequested := true
  lastFrameCalculated := false
  lastFrameShown := false
  swapRequested := false
  activeIs1 := par.activeReset
  swapPending := false
  producerTaken := false
  consumerTaken := false
  configFault := !cfg.fits par
  buffer1 := (resetBuffers par).1
  buffer2 := (resetBuffers par).2
  txRegion := none
  txLen := 0
  txNext := 0
  started := false
  violations := Violations.empty
  compute := .idle
  response := none
  history := []
  inputs := []
  inside := []
  freeCount := 0

/-- The machine right after reset, for the spec's default parameters and its worked configuration (log entries 5, 6). -/
def State.reset : State := State.resetWith Params.default Configuration.worked 0

end Sys2Proof.Machine
end

