-- ==== Sys2Proof/Machine/Operands.lean ====
section
/-! DEFINITION. The data path: colours and packed values (30_encoding.md R98 to R101), the scaler (40_color_scaler.md),
the pixel encoder and its inverse (41_bit_encoder.md), the classes of commands and the words of responses. -/

namespace Sys2Proof.Machine

/-- The other region: "the two regions are never aliased" (20_memory.md R60, R61). -/
def otherRegion : Region → Region
  | .one => .two
  | .two => .one

/-- The region id a view responds with (42_double_buffer.md R145, R146). -/
def regionId : Region → Word32
  | .one => 1
  | .two => 2

/-- The colour a 24-bit value carries: blue high, red middle, green low (30_encoding.md R98). -/
def colourOfWord (w : Word24) : Colour where
  blue := w.extractLsb' 16 8
  red := w.extractLsb' 8 8
  green := w.extractLsb' 0 8

/-- One lane of the scaler: the exact product, divided by 255, truncated (R120, R121). -/
def scaleLane (c bright : Byte) : Byte := BitVec.ofNat 8 (c.toNat * bright.toNat / 255)

/-- `scale(color, brightness)`: three lanes packed blue 23:16, red 15:8, green 7:0 (R120, R99). -/
def scaleColour (c : Colour) (bright : Byte) : Word24 :=
  scaleLane c.blue bright ++ scaleLane c.red bright ++ scaleLane c.green bright

/-- `MASK`: entry 0 and entry 1, 5 bits each (41_bit_encoder.md R131). -/
def mask (d : Bool) : BitVec 5 := if d then 0b10000 else 0b11110

/-- `trunc_8((MASK[d0] << 4) | (MASK[d1] >> 1))` (R130, R135). -/
def symbolByte (d0 d1 : Bool) : Byte :=
  BitVec.ofNat 8 (((mask d0).toNat <<< 4) ||| ((mask d1).toNat >>> 1))

/-- The byte of bit pair `i`; `d0` is the pair's low bit when `PAIR_D0_IS_LOW_BIT` (R134). -/
def pairByte (d0IsLow : Bool) (packed : Word24) (i : Nat) : Byte :=
  let low := packed.getLsbD (2 * i)
  let high := packed.getLsbD (2 * i + 1)
  if d0IsLow then symbolByte low high else symbolByte high low

/-- `encode_pixel`: the 12 bytes in order of offset; byte `k` carries bit pair `11 - k` (R132, R100). -/
def encodePixel (d0IsLow : Bool) (packed : Word24) : List Byte :=
  (List.range 12).map (fun k => pairByte d0IsLow packed (11 - k))

/-- The two data bits (`d0`, `d1`) of an encoded byte, none for a byte that is no encoded pixel (R136). -/
def symbolBits (y : Byte) : Option (Bool × Bool) :=
  let high := y.extractLsb' 4 4
  let low := y.extractLsb' 0 4
  if (high = 0xE#4 ∨ high = 0x0#4) ∧ (low = 0xF#4 ∨ low = 0x8#4) then
    some (decide (high = 0x0#4), decide (low = 0x8#4))
  else none

/-- The inverse of the encoder, the bytes taken in order of offset and shifted in most significant pair first (R136). -/
def decodePixelFrom (d0IsLow : Bool) (acc : Word24) : List Byte → Option Word24
  | [] => some acc
  | y :: rest =>
    match symbolBits y with
    | none => none
    | some (d0, d1) =>
      let pair : BitVec 2 := if d0IsLow then BitVec.ofBool d1 ++ BitVec.ofBool d0 else BitVec.ofBool d0 ++ BitVec.ofBool d1
      decodePixelFrom d0IsLow ((acc <<< 2) ||| BitVec.setWidth 24 pair) rest

/-- The packed value 12 slot bytes stand for (R136). -/
def decodePixel (d0IsLow : Bool) (bytes : List Byte) : Option Word24 :=
  if bytes.length = 12 then decodePixelFrom d0IsLow 0 bytes else none

/-- The writes that put twelve bytes into slot `p`, in the order they are made: bit pair 0 first, so from offset
`12p + 11` down to `12p` (20_memory.md R63, 41_bit_encoder.md R132, R133). -/
def slotWrites (p : Nat) (byteOfPair : Nat → Byte) : List (Nat × Byte) :=
  (List.range 12).map (fun i => (12 * p + (11 - i), byteOfPair i))

/-- The class column of 30_encoding.md R94 and 60_exceptions.md R266. -/
def classOf : Instr → CmdClass
  | .takeProducer => .host
  | .takeConsumer => .host
  | .scale _ _ _ _ => .host
  | .encodePixel _ _ => .producer
  | .rbReadableView => .consumer
  | .rbWritableView => .producer
  | .rbRequestSwap => .producer
  | .rbCommitSwap => .consumer
  | .rbLength => .host
  | .rbRead _ => .consumer
  | .rbWrite _ _ => .producer
  | .chRequestSwap => .producer
  | .chTrySwap => .consumer
  | .computeFrame => .producer
  | .isAnimationFinished => .consumer
  | .startFrame => .consumer
  | .rdReg _ => .host

/-- The code column of 60_exceptions.md R250. -/
def Status.code : Status → Byte
  | .ok => 0x00
  | .absent => 0x01
  | .notOwner => 0x02
  | .illegal => 0x03
  | .range => 0x04
  | .configFatal => 0x05

/-- The 40-bit response word: status 39:32, data 31:0 (30_encoding.md R90). -/
def Response.word (r : Response) : Word40 := r.status.code ++ r.data

/-- A flag as response data. -/
def flagData (b : Bool) : Word32 := if b then 1 else 0

end Sys2Proof.Machine
end

