-- ==== Sys2Proof/Machine/Flags.lean ====
section
/-! DEFINITION. What is computed from the flags: the producer's gate, the status registers (10_state.md R39), the
lifecycle label (45_consumer.md R208) and the end of a run (70_reset_and_hazards.md R301); and the violation set. -/

namespace Sys2Proof.Machine

/-- The gate of COMPUTE_FRAME (44_producer.md R182). -/
def State.gateOpen (s : State) : Bool := s.frameRequested && !s.lastFrameCalculated

/-- Register 0x00 `STATUS`, bit 0 first (10_state.md R39). -/
def State.statusReg (s : State) : Word32 :=
  BitVec.setWidth 32 (BitVec.ofBoolListLE
    [s.frameRequested, s.lastFrameCalculated, s.lastFrameShown, s.swapRequested, s.swapPending, s.activeIs1,
      s.producerTaken, s.consumerTaken, s.configFault])

/-- `src_kind` as a bit (R25). -/
def SourceKind.bit : SourceKind → BitVec 1
  | .generator => 0
  | .static => 1

/-- Register 0x01 `CONFIG` (R39). -/
def State.configReg (s : State) : Word32 :=
  0#7 ++ s.srcKind.bit ++ s.brightness ++ s.stripLength ++ s.stripId

/-- Register 0x02 `STATIC_COLOR`: 0 when `src_kind` = 0 (R39). -/
def State.staticColorReg (s : State) : Word32 :=
  match s.srcKind with
  | .generator => 0
  | .static => 0#8 ++ s.staticColor

/-- Register 0x04 `BUF_LEN` (R39). -/
def State.bufLenReg (s : State) : Word32 := 0#8 ++ s.par.bufLen

/-- The status registers, none where no register has the number (R39, 46_host_access.md R220). -/
def State.readReg (s : State) (reg : Nat) : Option Word32 :=
  match reg with
  | 0 => some s.statusReg
  | 1 => some s.configReg
  | 2 => some s.staticColorReg
  | 3 => some s.frameNumber
  | 4 => some s.bufLenReg
  | _ => none

/-- The lifecycle labels (45_consumer.md R208). -/
inductive Lifecycle where
  | awaitingFirstFrame
  | running
  | draining
  | stopped
deriving DecidableEq, Repr

/-- The lifecycle label, conditions in the order of R208. -/
def State.lifecycle (s : State) : Lifecycle :=
  if s.lastFrameShown then .stopped
  else if s.lastFrameCalculated then .draining
  else if s.started then .running
  else .awaitingFirstFrame

/-- A run is ended: label STOPPED, no producer command between micro-steps, no transfer in flight (R301). -/
def State.ended (s : State) : Bool :=
  decide (s.lifecycle = .stopped) && decide (s.compute = .idle) && s.txRegion.isNone

/-- The set with one name added (10_state.md R45). -/
def Violations.add (vs : Violations) : Violation → Violations
  | .earlyEnd => { vs with earlyEnd := true }
  | .startBeforeFirstFrame => { vs with startBeforeFirstFrame := true }
  | .startWhileBusy => { vs with startWhileBusy := true }
  | .writeWhileBusy => { vs with writeWhileBusy := true }
  | .primitiveMisuse => { vs with primitiveMisuse := true }

/-- Whether a name is in the set. -/
def Violations.has (vs : Violations) : Violation → Bool
  | .earlyEnd => vs.earlyEnd
  | .startBeforeFirstFrame => vs.startBeforeFirstFrame
  | .startWhileBusy => vs.startWhileBusy
  | .writeWhileBusy => vs.writeWhileBusy
  | .primitiveMisuse => vs.primitiveMisuse

end Sys2Proof.Machine
end

