-- ==== Sys2Proof/Machine/Ops.lean ====
section
/-! DEFINITION. The named operations every meaning is built from: responses and the one way to report a condition, the
common checks, views and byte access, the transfer engine, and the two levels of the swap protocol. The block has no
exceptions, so there is no exception entry or return (60_exceptions.md R259, R261): `raise` is what there is. -/

namespace Sys2Proof.Machine

/-! ## Outcomes, responses, conditions -/

/-- Go on from a next state; a fault or a refusal ends. -/
def andThen (o : Result) (f : State → Result) : Result :=
  match o with
  | .next s => f s
  | .fault r => .fault r
  | .refused r => .refused r

/-- The state with a response on the port (30_encoding.md R90). -/
def State.answer (s : State) (status : Status) (data : Word32) : State :=
  { s with response := some ⟨status, data⟩ }

/-- `respond(data)`: status OK (00_scope.md R11). -/
def respond (s : State) (data : Word32) : Result := .next (s.answer .ok data)

/-- `raise <Condition>`: the response carries the condition's status and nothing else changes (R11, R250, R265). -/
def raise (s : State) (status : Status) : Result := .next (s.answer status 0)

/-- Append one event to the history (47_collaborator_ports.md R239). -/
def State.log (s : State) (e : Event) : State := { s with history := s.history ++ [e] }

/-- Record a protocol violation in the ghost set (60_exceptions.md R253). -/
def State.violate (s : State) (v : Violation) : State := { s with violations := s.violations.add v }

/-- Record a violation when a condition holds. -/
def State.violateIf (s : State) (c : Bool) (v : Violation) : State := if c then s.violate v else s

/-- Whether the handle a class needs has been granted (60_exceptions.md R266). -/
def State.granted (s : State) : CmdClass → Bool
  | .host => true
  | .producer => s.producerTaken
  | .consumer => s.consumerTaken

/-- Common checks 1 and 3 of 60_exceptions.md R264, then the command's body. (Check 2 is the decoder's, check 4 the
body's.) -/
def checked (cls : CmdClass) (s : State) (body : State → Result) : Result :=
  if s.configFault then raise s .configFatal
  else if s.granted cls then body s
  else raise s .notOwner

/-! ## Views and byte access -/

/-- `active`: the readable view (20_memory.md R61). -/
def State.active (s : State) : Region := if s.activeIs1 then .one else .two

/-- `inactive`: the writable view (R61). -/
def State.inactive (s : State) : Region := if s.activeIs1 then .two else .one

/-- `BUF_LEN`. -/
def State.bufLen (s : State) : Nat := s.par.bufLen.toNat

/-- The listed bytes of a region. -/
def State.region (s : State) : Region → Memory
  | .one => s.buffer1
  | .two => s.buffer2

/-- `MemRead(r, off, 1)` (R66). A byte nothing has written holds a fixed unknown value (R283, U5, log entry 9). -/
def State.readByte (s : State) (r : Region) (off : Nat) : Byte :=
  match (s.region r).read off with
  | some b => b
  | none => Config.bufReset s.epoch r off

/-- `MemWrite(r, off, 1, b)` (R66). -/
def State.writeByte (s : State) (r : Region) (off : Nat) (b : Byte) : State :=
  match r with
  | .one => { s with buffer1 := s.buffer1.write off b }
  | .two => { s with buffer2 := s.buffer2.write off b }

/-- A producer's write of one byte of the inactive region; a violation is recorded when that region is in flight
(R62, 60_exceptions.md R256). -/
def State.putByte (s : State) (off : Nat) (b : Byte) : State :=
  (s.violateIf (decide (s.txRegion = some s.inactive)) .writeWhileBusy).writeByte s.inactive off b

/-! ## The transfer engine -/

/-- TX_READ: the byte the location holds at this moment goes to the history (47_collaborator_ports.md R234, R235). -/
def State.txRead (s : State) (r : Region) : State :=
  { s with history := s.history ++ [.txByte s.txNext (s.readByte r s.txNext)], txNext := s.txNext + 1 }

/-- TX_DONE (R234, R236). -/
def State.txFinish (s : State) : State :=
  { s with history := s.history ++ [.txDone], txRegion := none }

/-- The engine's next step: ascending reads, each byte once, then TX_DONE (R234). With no transfer in flight no step is
enabled; a read beyond the region is never enabled either (20_memory.md R66; log entries 4 and 12). -/
def State.engineStep (s : State) : State :=
  match s.txRegion with
  | none => s
  | some r =>
    if s.txNext < s.txLen.toNat then
      if s.txNext < s.bufLen then s.txRead r else s
    else s.txFinish

/-- `n` engine steps. -/
def State.engineRun : Nat → State → State
  | 0, s => s
  | n + 1, s => State.engineRun n s.engineStep

/-- The engine steps that fall after the byte write just made (20_memory.md R75 e; log entry 13). -/
def State.engineBetween (s : State) : State :=
  match s.inside with
  | [] => s
  | n :: rest => State.engineRun n { s with inside := rest }

/-- Byte writes into the inactive region in the given order, engine steps between them. -/
def State.putBytes (s : State) : List (Nat × Byte) → State
  | [] => s
  | (off, b) :: rest => State.putBytes ((s.putByte off b).engineBetween) rest

/-- Store `encode_pixel(packed)` into slot `p` of the inactive region (41_bit_encoder.md R130, R133). -/
def State.putPixel (s : State) (p : Nat) (packed : Word24) : State :=
  s.putBytes (slotWrites p (pairByte s.par.pairD0IsLowBit packed))

/-- Whether slot `p` lies inside a region (R130, 20_memory.md R70). -/
def State.slotFits (s : State) (p : Nat) : Bool := decide (12 * p + 11 < s.bufLen)

/-! ## Swap and transfer -/

/-- `commit_swap_if_pending()` (42_double_buffer.md R150): a swap made while a transfer is in flight records
PV_START_WHILE_BUSY (60_exceptions.md R256). No byte moves (20_memory.md R73). -/
def State.commitSwap (s : State) : State :=
  if s.swapPending then
    { s.violateIf s.txRegion.isSome .startWhileBusy with activeIs1 := !s.activeIs1, swapPending := false }
  else s

/-- `try_swap()` (43_ownership_gate.md R170): only a swap that is performed clears `swap_requested`, sets `started`
and, last, sets `frame_requested`. -/
def State.trySwap (s : State) : State :=
  if s.swapPending then
    { s.commitSwap with swapRequested := false, started := true, frameRequested := true }
  else s

/-- Channel `request_swap()`: both flags in one step (R168). -/
def State.requestSwap (s : State) : State := { s with swapRequested := true, swapPending := true }

/-- `byte_count = strip_length * 12` as a 32-bit length (45_consumer.md R203, R204). -/
def State.byteCount (s : State) : Word32 := BitVec.ofNat 32 (s.stripLength.toNat * 12)

/-- `TRANSFER(active, byte_count)` (R204, 47_collaborator_ports.md R233, R237): the event, the region and length in
flight, the engine at offset 0; PV_START_WHILE_BUSY when a transfer was in flight. -/
def State.startTransfer (s : State) : State :=
  { (s.violateIf s.txRegion.isSome .startWhileBusy).log (.transfer s.active s.byteCount) with
    txRegion := some s.active, txLen := s.byteCount, txNext := 0 }

/-- The side effect of `is_animation_finished()`: the grace check sets `last_frame_shown` (45_consumer.md R200). -/
def State.graceCheck (s : State) : State :=
  if !s.lastFrameShown && s.lastFrameCalculated then { s with lastFrameShown := true } else s

end Sys2Proof.Machine
end

