-- ==== Sys2Proof/Machine/Channel.lean ====
section
/-! DEFINITION. The channel's swap protocol: CH_REQUEST_SWAP, CH_TRY_SWAP (43_ownership_gate.md R168, R170), issued as
commands of their own (60_exceptions.md R256). -/

namespace Sys2Proof.Machine

/-- CH_REQUEST_SWAP (R168). -/
def execChRequestSwap (s : State) : Result :=
  checked .producer s fun s => respond (s.violate .primitiveMisuse).requestSwap 0

/-- CH_TRY_SWAP (R170): responds 1 if a swap was performed; otherwise `frame_requested` is not set. -/
def execChTrySwap (s : State) : Result :=
  checked .consumer s fun s => respond (s.violate .primitiveMisuse).trySwap (flagData s.swapPending)

end Sys2Proof.Machine
end

