-- ==== Sys2Proof/Machine/Colour.lean ====
section
/-! DEFINITION. The colour commands: SCALE (40_color_scaler.md R120) and ENCODE_PIXEL (41_bit_encoder.md R130). -/

namespace Sys2Proof.Machine

/-- SCALE (R120): no state is read or written. -/
def execScale (blue red green bright : Byte) (s : State) : Result :=
  checked .host s fun s => respond s (0#8 ++ scaleColour ⟨blue, red, green⟩ bright)

/-- ENCODE_PIXEL (R130): the slot is checked before the first write; `strip_length` is not looked at. Issued as a
command of its own it records PV_PRIMITIVE_MISUSE (60_exceptions.md R256). -/
def execEncodePixel (pix : Nat) (packed : Word24) (s : State) : Result :=
  checked .producer s fun s =>
    if s.slotFits pix then respond ((s.violate .primitiveMisuse).putPixel pix packed) 0
    else raise s .range

end Sys2Proof.Machine
end

