-- ==== Sys2Proof/Machine/Consumer.lean ====
section
/-! DEFINITION. The consumer: IS_ANIMATION_FINISHED and START_FRAME (45_consumer.md R200 to R211). Both are one step
(20_memory.md R75 a). -/

namespace Sys2Proof.Machine

/-- IS_ANIMATION_FINISHED (R200, R201): 1 exactly when `last_frame_shown` was already 1. -/
def execIsAnimationFinished (s : State) : Result :=
  checked .consumer s fun s => respond s.graceCheck (flagData s.lastFrameShown)

/-- The part of START_FRAME that runs when the animation is not finished: the swap if one is pending, then the
transfer of the active region (R203, R205, R207). No frame ever swapped in records PV_START_BEFORE_FIRST_FRAME
(60_exceptions.md R255). -/
def State.showFrame (s : State) : State :=
  (s.trySwap.violateIf (!s.trySwap.started) .startBeforeFirstFrame).startTransfer

/-- START_FRAME (R203): the finished check with its side effect decides both the swap and the transfer. -/
def execStartFrame (s : State) : Result :=
  checked .consumer s fun s =>
    if s.lastFrameShown then respond s 0
    else respond s.graceCheck.showFrame 1

end Sys2Proof.Machine
end

