-- ==== Sys2Proof/Machine/DoubleBuffer.lean ====
section
/-! DEFINITION. The double buffer primitives (42_double_buffer.md R145 to R153). Issued as commands of their own, all but
RB_LENGTH and the two view queries record PV_PRIMITIVE_MISUSE (60_exceptions.md R256, 92_eei_decisions.md D26; log entries
19, 26). -/

namespace Sys2Proof.Machine

/-- RB_READABLE_VIEW (R145). -/
def execRbReadableView (s : State) : Result :=
  checked .consumer s fun s => respond s (regionId s.active)

/-- RB_WRITABLE_VIEW (R146). -/
def execRbWritableView (s : State) : Result :=
  checked .producer s fun s => respond s (regionId s.inactive)

/-- RB_REQUEST_SWAP (R149). -/
def execRbRequestSwap (s : State) : Result :=
  checked .producer s fun s => respond { s.violate .primitiveMisuse with swapPending := true } 0

/-- RB_COMMIT_SWAP (R150): responds 1 if a swap was performed. -/
def execRbCommitSwap (s : State) : Result :=
  checked .consumer s fun s => respond (s.violate .primitiveMisuse).commitSwap (flagData s.swapPending)

/-- RB_LENGTH (R151). -/
def execRbLength (s : State) : Result :=
  checked .host s fun s => respond s (0#8 ++ s.par.bufLen)

/-- RB_READ (R147): the view is the whole active region. Of the state a command can see it writes nothing; its misuse is
recorded in the ghost set (D26; log entry 26). -/
def execRbRead (off : Nat) (s : State) : Result :=
  checked .consumer s fun s =>
    if off < s.bufLen then respond (s.violate .primitiveMisuse) (0#24 ++ s.readByte s.active off)
    else raise s .range

/-- RB_WRITE (R148). -/
def execRbWrite (off : Nat) (data : Byte) (s : State) : Result :=
  checked .producer s fun s =>
    if off < s.bufLen then respond ((s.violate .primitiveMisuse).putByte off data) 0
    else raise s .range

end Sys2Proof.Machine
end

