-- ==== Sys2Proof/Machine/Gate.lean ====
section
/-! DEFINITION. The ownership gate: TAKE_PRODUCER, TAKE_CONSUMER (43_ownership_gate.md R160 to R164). -/

namespace Sys2Proof.Machine

/-- TAKE_PRODUCER (R162): the read of the taken flag and its write are one step (R161). -/
def execTakeProducer (s : State) : Result :=
  checked .host s fun s =>
    if s.producerTaken then raise s .absent
    else respond { s with producerTaken := true } 1

/-- TAKE_CONSUMER (R163). -/
def execTakeConsumer (s : State) : Result :=
  checked .host s fun s =>
    if s.consumerTaken then raise s .absent
    else respond { s with consumerTaken := true } 1

end Sys2Proof.Machine
end

