-- ==== Sys2Proof/Machine/HostAccess.lean ====
section
/-! DEFINITION. RD_REG (46_host_access.md R220), the one command that runs under `config_fault`
(60_exceptions.md R262). -/

namespace Sys2Proof.Machine

/-- RD_REG (R220): the value of a status register, RANGE where there is none; check 1 of R264 does not apply to it. -/
def execRdReg (reg : Nat) (s : State) : Result :=
  match s.readReg reg with
  | some value => respond s value
  | none => raise s .range

end Sys2Proof.Machine
end

