-- ==== Sys2Proof/Machine/Producer.lean ====
section
/-! DEFINITION. COMPUTE_FRAME (44_producer.md R180 to R191) and its micro-steps u1, u2.p, u3, u4 (R181). -/

namespace Sys2Proof.Machine

/-- A listed answer of the generator (log entry 8). -/
def listedAnswer (id len : Byte) (frame : Word32) (pixel : Byte) : List GenEntry → Option (Option Colour)
  | [] => none
  | e :: rest =>
    if e.stripId = id ∧ e.stripLength = len ∧ e.frame = frame ∧ e.pixel = pixel then some e.answer
    else listedAnswer id len frame pixel rest

/-- `gen(strip_id, strip_length, frame_number, p)`: a total function of its four arguments, fixed for the life of the
channel (47_collaborator_ports.md R230, R232): the listed answer, or the free one (log entry 8). -/
def State.generate (s : State) (pixel : Byte) : Option Colour :=
  match listedAnswer s.stripId s.stripLength s.frameNumber pixel s.par.genTable with
  | some answer => answer
  | none => Config.gen s.epoch s.stripId s.stripLength s.frameNumber pixel

/-- A present result: scaled by the `brightness` register, encoded, stored in slot `p` (44_producer.md R183). -/
def State.paint (s : State) (p : Nat) (c : Colour) : State := s.putPixel p (scaleColour c s.brightness)

/-- The twelve bytes of slot `p` become arbitrary: free values (R185, any_value). DESIGN CHOICE (log entries 10, 17): each
slot takes them at places of the state's counter that no other slot of this channel life takes, and each life at its
number `epoch`, since the counter starts anew with a life; so nothing says how the bytes of two slots, or of an earlier
and a later life, are related. -/
def State.scramble (s : State) (p : Nat) : State :=
  let t := s.putBytes (slotWrites p (fun i => Config.freeByte s.epoch (s.freeCount + i)))
  { t with freeCount := s.freeCount + 12 }

/-- An absent result at pixel `p`: at the final index the animation's end (R184); before it PV_EARLY_END and
`EARLY_END_POLICY` (R185, 60_exceptions.md R254). -/
def State.absentAt (s : State) (p : Nat) : State :=
  if p + 1 = s.stripLength.toNat then { s with lastFrameCalculated := true }
  else match s.par.earlyEnd with
    | .skip => s.violate .earlyEnd
    | .anyValue => (s.violate .earlyEnd).scramble p

/-- Micro-step u2.p without its place in the sequence (R180): the query, which only the generator source makes (R187),
and what its answer does. -/
def State.pixelStep (s : State) (p : Nat) : Result :=
  if s.slotFits p then
    match s.srcKind with
    | .static => .next (s.paint p (colourOfWord s.staticColor))
    | .generator =>
      let pixel := BitVec.ofNat 8 p
      let answer := s.generate pixel
      let t := s.log (.genQuery s.stripId s.stripLength s.frameNumber pixel answer)
      match answer with
      | some c => .next (t.paint p c)
      | none => .next (t.absentAt p)
  else .fault .outsideRegion

/-- Micro-step u3 without its place in the sequence (R186): the counter and `frame_requested`. -/
def State.countStep (s : State) : Result :=
  if s.frameNumber = BitVec.allOnes 32 ∧ s.par.frameWrap = .fault then .fault .frameCounterOverflow
  else .next { s with frameNumber := s.frameNumber + 1, frameRequested := false }

/-- Pixels `p`, `p + 1`, …, `n` of them, in ascending order (R183). -/
def State.pixelLoop : Nat → Nat → State → Result
  | 0, _, s => .next s
  | n + 1, p, s => andThen (s.pixelStep p) (State.pixelLoop n (p + 1))

/-- What comes after the gate or after pixel `p - 1`: pixel `p`, or u3 when there is none (R181, R189). -/
def State.phaseAt (s : State) (p : Nat) : Compute := if p < s.stripLength.toNat then .pixel p else .count

/-- The next micro-step of the COMPUTE_FRAME in progress (R181); its response is given at u4. With none in progress
the producer context has no step, and nothing changes (log entry 4). -/
def State.microStep (s : State) : Result :=
  match s.compute with
  | .idle => .next s
  | .pixel p => andThen (s.pixelStep p) fun t => .next { t with compute := t.phaseAt (p + 1) }
  | .count => andThen s.countStep fun t => .next { t with compute := .publish }
  | .publish => .next (({ s.requestSwap with compute := .idle }.answer .ok 1).log (.completed ⟨.ok, 1⟩))

/-- The frame as one step: all pixels, u3, u4 (`PREEMPT_GRANULARITY` = op, 20_memory.md R75 d; log entry 18). -/
def State.wholeFrame (s : State) : Result :=
  andThen (State.pixelLoop s.stripLength.toNat 0 s) fun t =>
    andThen t.countStep fun u => respond u.requestSwap 1

/-- COMPUTE_FRAME (R180): u1, the gate; with granularity micro the micro-steps follow as steps of their own and there
is no response yet (log entry 14), with op the whole frame. -/
def execComputeFrame (s : State) : Result :=
  checked .producer s fun s =>
    if s.gateOpen then
      match s.par.preempt with
      | .micro => .next { s with compute := s.phaseAt 0, response := none }
      | .op => s.wholeFrame
    else respond s 0

end Sys2Proof.Machine
end

