-- ==== Sys2Proof/Machine/Dispatch.lean ====
section
/-! DEFINITION. What each command does: one arm per constructor of Instr. -/

namespace Sys2Proof.Machine

/-- The effect of one command. -/
def exec (i : Instr) (s : State) : Host.Outcome State Fault Refusal :=
  match i with
  | .takeProducer => Sys2Proof.Machine.execTakeProducer s
  | .takeConsumer => Sys2Proof.Machine.execTakeConsumer s
  | .scale blue red green bright => Sys2Proof.Machine.execScale blue red green bright s
  | .encodePixel pix packed => Sys2Proof.Machine.execEncodePixel pix packed s
  | .rbReadableView => Sys2Proof.Machine.execRbReadableView s
  | .rbWritableView => Sys2Proof.Machine.execRbWritableView s
  | .rbRequestSwap => Sys2Proof.Machine.execRbRequestSwap s
  | .rbCommitSwap => Sys2Proof.Machine.execRbCommitSwap s
  | .rbLength => Sys2Proof.Machine.execRbLength s
  | .rbRead off => Sys2Proof.Machine.execRbRead off s
  | .rbWrite off data => Sys2Proof.Machine.execRbWrite off data s
  | .chRequestSwap => Sys2Proof.Machine.execChRequestSwap s
  | .chTrySwap => Sys2Proof.Machine.execChTrySwap s
  | .computeFrame => Sys2Proof.Machine.execComputeFrame s
  | .isAnimationFinished => Sys2Proof.Machine.execIsAnimationFinished s
  | .startFrame => Sys2Proof.Machine.execStartFrame s
  | .rdReg reg => Sys2Proof.Machine.execRdReg reg s

end Sys2Proof.Machine
end

