-- ==== Sys2Proof/Machine/Schedule.lean ====
section
/-! DEFINITION. How commands reach the block and how the agents' steps interleave (20_memory.md R74, R75): delivering a
command word, the producer's micro-steps, the transfer engine's steps, a new reset. Step.lean calls what stands here. -/

namespace Sys2Proof.Machine

/-- The agent that issues a class of commands (00_scope.md R5). -/
def agentOf : CmdClass → Agent
  | .host => .host
  | .producer => .producer
  | .consumer => .consumer

/-- The agent of a word's class; the host for a word that is no command (log entry 20). -/
def agentOfWord (w : Word40) : Agent :=
  match decode w with
  | .ok i => agentOf (classOf i)
  | .error _ => .host

/-- Whether a word is a producer-class command. -/
def isProducerWord (w : Word40) : Bool :=
  match decode w with
  | .ok i => decide (classOf i = .producer)
  | .error _ => false

/-- The check order for a word that decodes to nothing (60_exceptions.md R264, checks 1 and 2): under `config_fault`
every opcode but RD_REG's is CONFIG_FATAL, otherwise ILLEGAL (R95, R96). -/
def rejectWord (w : Word40) (s : State) : Result :=
  if s.configFault && decide (opcodeField w ≠ 0x60#8) then raise s .configFatal
  else raise s .illegal

/-- A command word runs: the decoded command's effect, or the rejection of the word. -/
def runWord (w : Word40) (s : State) : Result :=
  match decode w with
  | .ok i => exec i s
  | .error _ => rejectWord w s

/-- The step of an agent is over: the engine steps planned inside it are forgotten (log entry 13). -/
def State.settle (s : State) : State := { s with inside := [] }

/-- An agent's command: it runs, and the history takes the command with its response (47_collaborator_ports.md R239). -/
def deliver (agent : Agent) (w : Word40) (s : State) : Result :=
  andThen (runWord w s) fun t => .next (t.log (.command agent w t.response)).settle

/-- A producer micro-step. -/
def producerTurn (s : State) : Result := andThen s.microStep fun t => .next t.settle

/-- Whether the input at the head has to wait: the producer context is inside a COMPUTE_FRAME and the input is its
next command, or a producer-class command, which "cannot start before u4" (44_producer.md R181; log entry 3). -/
def State.heldBack (s : State) : Input → Bool
  | .command agent w _ => decide (s.compute ≠ .idle) && (decide (agent = .producer) || isProducerWord w)
  | .producer _ => false
  | .engine => false
  | .reset _ _ => false

/-- A reset: a new channel with this configuration, the agents' coming inputs kept (70_reset_and_hazards.md R280; log
entry 17). -/
def State.recreate (s : State) (par : Params) (cfg : Configuration) : State :=
  { State.resetWith par cfg (s.epoch + 1) with inputs := s.inputs }

/-- One input, already taken from the list. -/
def takeInput (i : Input) (s : State) : Result :=
  match i with
  | .command agent w inside => deliver agent w { s with inside := inside }
  | .producer inside => producerTurn { s with inside := inside }
  | .engine => .next s.engineStep
  | .reset par cfg => .next (s.recreate par cfg)

/-- The step when no input is listed: a COMPUTE_FRAME in progress goes on, else the transfer engine moves, else the
block waits (70_reset_and_hazards.md R282, R300; log entry 2). -/
def unattended (s : State) : Result :=
  if s.compute = .idle then .next s.engineStep else producerTurn { s with inside := [] }

/-- One step. An input that has to wait stays listed and the producer's micro-step runs in its place. -/
def oneStep (s : State) : Result :=
  match s.inputs with
  | [] => unattended s
  | i :: rest =>
    if s.heldBack i then producerTurn { s with inside := [] }
    else takeInput i { s with inputs := rest }

/-- The pseudo-instruction SETUP (30_encoding.md R103). -/
def setupInputs : List Input :=
  [.command .host (encode .takeProducer) [], .command .host (encode .takeConsumer) []]

/-- The pseudo-instruction CYCLE (R103) for a frame of `n` pixels, the producer not preempted: COMPUTE_FRAME with its
`n + 2` micro-steps after the gate, START_FRAME, the engine's `12 n` reads and TX_DONE. -/
def cycleInputs (n : Nat) : List Input :=
  .command .producer (encode .computeFrame) [] :: List.replicate (n + 2) (.producer [])
    ++ .command .consumer (encode .startFrame) [] :: List.replicate (12 * n + 1) .engine

end Sys2Proof.Machine
end

