-- ==== Sys2Proof/Machine/Step.lean ====
section
/-! DEFINITION. One step of the machine, and where the next command is placed. The block has no program counter
(10_state.md R28): the next command is the head of `inputs`. -/

namespace Sys2Proof.Machine

/-- One step (20_memory.md R74, R75). -/
def step (s : State) : Host.Outcome State Fault Refusal := oneStep s

/-- The state with a command word as the very next input, issued by the agent of its class. The producer context is
taken out of a COMPUTE_FRAME in progress only where the word would have to wait for it (log entries 1, 3, 20). -/
def State.withFetchWord (s : State) (nbits w : Nat) : State :=
  let i := Input.command (agentOfWord (tableWord nbits w)) (tableWord nbits w) []
  { s with inputs := i :: s.inputs, compute := if s.heldBack i then .idle else s.compute }

end Sys2Proof.Machine
end

