-- ==== Sys2Proof/Safety.lean ====
section
/-! DEFINITION. What counts as a sound state, a disciplined use and a clean run, in the terms the statements use
(10_state.md R37, R38; 60_exceptions.md R258; 70_reset_and_hazards.md R290). -/

namespace Sys2Proof.Machine

/-- No violation recorded: the premise of claims about what the strip shows (R258). -/
def State.clean (s : State) : Bool := decide (s.violations = Violations.empty)

/-- Whether the next input is a reset, taken in this step. -/
def State.nextIsReset (s : State) : Bool :=
  match s.inputs with
  | .reset _ _ :: _ => true
  | _ => false

/-- The micro-step a COMPUTE_FRAME in progress is at belongs to a frame that fits the region (44_producer.md R181,
20_memory.md R70). -/
def State.cursorSound (s : State) : Prop :=
  match s.compute with
  | .idle => True
  | .pixel p => p < s.stripLength.toNat ∧ s.configFault = false
  | .count => s.configFault = false
  | .publish => s.configFault = false

/-- The machine's invariant: both regions in canonical form and inside their capacity, `config_fault` as R40 says, the
pixel cursor and the transfer inside the region. -/
structure State.Sound (s : State) : Prop where
  canonical1 : s.buffer1.wf
  canonical2 : s.buffer2.wf
  within1 : s.buffer1.within s.bufLen
  within2 : s.buffer2.within s.bufLen
  capacity : s.configFault = decide (s.bufLen < s.stripLength.toNat * 12)
  cursor : s.cursorSound
  transferLen : s.txRegion ≠ none → s.txLen = s.byteCount ∧ s.configFault = false
  transferNext : s.txNext ≤ s.txLen.toNat

/-! ## The discipline

`disciplined` is what the next step must keep for I1 to I5 of R38: the commands of R37 with the host duties H-c and H-d
of 70_reset_and_hazards.md R290. It is wider than R37's definition, so a statement under it is one about more runs.
`UnderDiscipline` is the definition itself, with all of R290. -/

/-- The commands of R37 with H-c and H-d of R290: START_FRAME only when no transfer is in flight and a first frame has
been swapped in or is pending, which is so once the first COMPUTE_FRAME has completed. Commands that change no state are
harmless; the primitives that record a misuse of their own are not among them (60_exceptions.md R256, log entry 26). -/
def State.disciplinedCommand (s : State) : Instr → Bool
  | .takeProducer => true
  | .takeConsumer => true
  | .scale _ _ _ _ => true
  | .encodePixel _ _ => false
  | .rbReadableView => true
  | .rbWritableView => true
  | .rbRequestSwap => false
  | .rbCommitSwap => false
  | .rbLength => true
  | .rbRead _ => false
  | .rbWrite _ _ => false
  | .chRequestSwap => false
  | .chTrySwap => false
  | .computeFrame => true
  | .isAnimationFinished => true
  | .startFrame => s.txRegion.isNone && (s.started || s.swapPending)
  | .rdReg _ => true

/-- The same of an input: a word that is no command changes no state, micro-steps and engine steps are not commands,
a reset starts anew. -/
def State.disciplinedInput (s : State) : Input → Bool
  | .command _ w _ =>
    match decode w with
    | .ok i => s.disciplinedCommand i
    | .error _ => true
  | .producer _ => true
  | .engine => true
  | .reset _ _ => true

/-- The next step issues nothing but the commands of R37, with H-c and H-d of R290. -/
def State.disciplined (s : State) : Bool :=
  match s.inputs with
  | [] => true
  | i :: _ => s.heldBack i || s.disciplinedInput i

/-- The next input is an RB_READ. It records its own misuse and is outside the discipline for that (60_exceptions.md R256,
92_eei_decisions.md D26; log entry 26), but changes nothing I1 to I5 speak of. -/
def State.nextReads (s : State) : Bool :=
  match s.inputs with
  | .command _ w _ :: _ =>
    match decode w with
    | .ok (.rbRead _) => true
    | _ => false
  | _ => false

/-- H-a of R290: a producer-class command is the producer context's, a consumer-class command the consumer context's,
each after the take that granted its handle. H-f of a reset: the configuration is valid. Host-class commands and words
that are no command need no handle (60_exceptions.md R266). -/
def State.dutifulInput (s : State) : Input → Bool
  | .command agent w _ =>
    match decode w with
    | .ok i =>
      match classOf i with
      | .host => true
      | cls => decide (agent = agentOf cls) && s.granted cls
    | .error _ => true
  | .producer _ => true
  | .engine => true
  | .reset par cfg => cfg.fits par

/-- The same of the next step. -/
def State.dutiful (s : State) : Bool :=
  match s.inputs with
  | [] => true
  | i :: _ => s.heldBack i || s.dutifulInput i

/-- H-e of R290: on no frame does the generator answer absent before the final pixel index. That it is pure and
deterministic it is by its form (log entry 8). -/
def State.generatorEndsLast (s : State) : Prop :=
  s.srcKind = .generator → ∀ (frame : Word32) (p : Nat), p + 1 < s.stripLength.toNat →
    ({ s with frameNumber := frame } : State).generate (BitVec.ofNat 8 p) ≠ none

/-- What R37 asks of the next step: its commands, and the host duties of R290. H-b, one core on which the consumer
context interrupts the producer and never the reverse, holds of every run of the model (20_memory.md R75, log entry
21). -/
structure State.UnderDiscipline (s : State) : Prop where
  /-- R37's commands, H-c, H-d. -/
  commands : s.disciplined = true
  /-- H-a, and H-f of a channel that is created. -/
  duties : s.dutiful = true
  /-- H-e. -/
  generator : s.generatorEndsLast
  /-- H-f. -/
  valid : s.configFault = false

/-! ## Invariants and runs -/

/-- I1 to I5 of 10_state.md R38, with what I2 says of the micro-steps: a gated COMPUTE_FRAME keeps `frame_requested`
until u3, and both flags are 0 between u3 and u4. -/
structure State.Protocol (s : State) : Prop where
  i1 : s.swapRequested = s.swapPending
  i2 : match s.compute with
    | .idle => s.frameRequested = !s.swapPending
    | .pixel _ => s.frameRequested = true ∧ s.swapPending = false
    | .count => s.frameRequested = true ∧ s.swapPending = false
    | .publish => s.frameRequested = false ∧ s.swapPending = false
  i3 : s.lastFrameShown = true → s.lastFrameCalculated = true
  i4 : s.compute ≠ .idle → s.swapPending = false
  i5 : ∀ r, s.txRegion = some r → r = s.active

/-- No violation recorded but PV_EARLY_END, which rests on the generator alone (60_exceptions.md R254). -/
def State.cleanButEarlyEnd (s : State) : Prop :=
  s.violations = { Violations.empty with earlyEnd := s.violations.earlyEnd }

/-- The states of the runs by disciplined steps: from a reset with any parameters and configuration, whatever the
agents' coming inputs are. -/
inductive DisciplinedRun : State → Prop where
  | created (par : Params) (cfg : Configuration) (epoch : Nat) (inputs : List Input) :
      DisciplinedRun { State.resetWith par cfg epoch with inputs := inputs }
  | step (s t : State) : DisciplinedRun s → s.disciplined = true → Machine.step s = .next t → DisciplinedRun t

/-- The states of the runs under discipline as 10_state.md R37 defines it: from a reset with a valid configuration, by
steps that keep all of it. -/
inductive RunUnderDiscipline : State → Prop where
  | created (par : Params) (cfg : Configuration) (epoch : Nat) (inputs : List Input) : cfg.fits par = true →
      RunUnderDiscipline { State.resetWith par cfg epoch with inputs := inputs }
  | step (s t : State) :
      RunUnderDiscipline s → s.UnderDiscipline → Machine.step s = .next t → RunUnderDiscipline t

/-- `k` steps of the machine, stopping at the first fault or refusal: `Host.Core.run` in the model's own words. -/
def runSteps : Nat → State → Result
  | 0, s => .next s
  | k + 1, s => andThen (step s) (runSteps k)

/-- How far a lifecycle label is along the order of 45_consumer.md R208. -/
def Lifecycle.rank : Lifecycle → Nat
  | .awaitingFirstFrame => 0
  | .running => 1
  | .draining => 2
  | .stopped => 3

/-- Whether an event starts a transfer. -/
def Event.isTransfer : Event → Bool
  | .transfer _ _ => true
  | _ => false

/-- How many transfers the history holds (47_collaborator_ports.md R239). -/
def State.transfers (s : State) : Nat := s.history.countP Event.isTransfer

/-- What engine steps that fall inside a producer's step can have done, after the events the step itself made: the
engine sent `vs`, byte after byte from where it stood, and then may have been done; with no transfer in flight nothing
(47_collaborator_ports.md R234, 20_memory.md R75 e). -/
def EngineOnly (made : List Event) (s t : State) : Prop :=
  ∃ (vs : List Byte) (done : Bool),
    t.history =
      s.history ++ made ++ vs.mapIdx (fun j v => .txByte (s.txNext + j) v) ++ (if done then [.txDone] else []) ∧
    t.txNext = s.txNext + vs.length ∧
    t.txRegion = (if done then none else s.txRegion) ∧
    (s.txRegion = none → vs = [] ∧ done = false)

/-- The two states agree on every byte of both regions. -/
def SameBytes (s t : State) : Prop := ∀ r off, t.readByte r off = s.readByte r off

/-- The two states agree on every byte but those of region `r` at offsets `lo` to `lo + n - 1`. -/
def SameBytesOutside (r : Region) (lo n : Nat) (s t : State) : Prop :=
  ∀ r' off, ¬(r' = r ∧ lo ≤ off ∧ off < lo + n) → t.readByte r' off = s.readByte r' off

end Sys2Proof.Machine
end

