-- ==== Sys2Proof/Certificates/Slice0/Obligations.lean ====
section
/-! DEFINITION. The statements for the provers. Each says in its docstring which rule of the spec it formalises. -/

namespace Sys2Proof.Machine

/-- The opcodes of 30_encoding.md R94. -/
def definedOpcodes : List Nat :=
  [0x01, 0x02, 0x10, 0x11, 0x20, 0x21, 0x22, 0x23, 0x24, 0x25, 0x26, 0x30, 0x31, 0x40, 0x50, 0x51, 0x60]

/-- The opcodes of format Z (R94). -/
def formatZOpcodes : List Nat := [0x01, 0x02, 0x20, 0x21, 0x22, 0x23, 0x24, 0x30, 0x31, 0x40, 0x50, 0x51]

/-- The must-be-zero bits of a word's format are all 0 (R92). -/
def MbzClear (w : Word40) : Prop :=
  ((opcodeField w).toNat ∈ formatZOpcodes → operandField w = 0) ∧
  ((opcodeField w).toNat = 0x25 → byteField w 3 = 0) ∧
  ((opcodeField w).toNat = 0x60 → highField24 w = 0)

/-- The range check a command's own rule makes (60_exceptions.md R264, check 4). -/
def OutOfRange : Instr → State → Prop
  | .encodePixel pix _, s => s.bufLen ≤ 12 * pix + 11
  | .rbRead off, s => s.bufLen ≤ off
  | .rbWrite off _, s => s.bufLen ≤ off
  | .rdReg reg, _ => 4 < reg
  | _, _ => False

/-- RB_WRITE commands for the bytes of a list, at rising offsets (42_double_buffer.md R152). -/
def writeFrom : Nat → List Byte → State → Result
  | _, [], s => .next s
  | off, b :: bs, s => andThen (exec (.rbWrite off b) s) (writeFrom (off + 1) bs)

/-- RB_REQUEST_SWAP, then RB_COMMIT_SWAP. -/
def swapBuffers (s : State) : Result := andThen (exec .rbRequestSwap s) (exec .rbCommitSwap)

/-- The query a pixel's micro-step makes: one of the generator, none for a static display (44_producer.md R183, R187). -/
def pixelQuery (s : State) (p : Nat) (answer : Option Colour) : List Event :=
  match s.srcKind with
  | .static => []
  | .generator => [.genQuery s.stripId s.stripLength s.frameNumber (BitVec.ofNat 8 p) answer]

/-- The byte of a bit pair by the table of 30_encoding.md R100. -/
def tableByte (d1 d0 : Bool) : Byte :=
  match d1, d0 with
  | false, false => 0xEF
  | false, true => 0x0F
  | true, false => 0xE8
  | true, true => 0x08

end Sys2Proof.Machine

open Sys2Proof Sys2Proof.Machine

/-! ## Command words -/

/-- Every well-formed command is read back from its word (30_encoding.md R90, R92 to R94). -/
def Obligations.DecodeInvertsEncode : Prop :=
  ∀ i : Instr, i.wellFormed = true → decode (encode i) = .ok i

/-- A word that decodes is the word of the command it decodes to: no bit of it is dropped (R92, R96). -/
def Obligations.DecodedWordIsItsEncoding : Prop :=
  ∀ (w : Word40) (i : Instr), decode w = .ok i → i.wellFormed = true ∧ encode i = w

/-- The decoder rejects exactly the reserved opcodes and the words with a must-be-zero bit set, each by name (R95,
R96). -/
def Obligations.DecoderRejectsExactlyReservedAndMbz : Prop :=
  ∀ w : Word40,
    (decode w = .error .reservedOpcode ↔ (opcodeField w).toNat ∉ definedOpcodes) ∧
    (decode w = .error .mustBeZero ↔ (opcodeField w).toNat ∈ definedOpcodes ∧ ¬MbzClear w)

/-- Words of 95_test_vectors.md decode to the commands it names. -/
def Obligations.VectorWordsDecode : Prop :=
  decode 0x0100000000 = .ok .takeProducer ∧ decode 0x0200000000 = .ok .takeConsumer ∧
  decode 0x100A141EFF = .ok (.scale 10 20 30 255) ∧ decode 0x11000A141E = .ok (.encodePixel 0 0x0A141E) ∧
  decode 0x2500000BF3 = .ok (.rbRead 3059) ∧ decode 0x26000BF411 = .ok (.rbWrite 3060 0x11) ∧
  decode 0x3100000000 = .ok .chTrySwap ∧ decode 0x4000000000 = .ok .computeFrame ∧
  decode 0x5100000000 = .ok .startFrame ∧ decode 0x6000000003 = .ok (.rdReg 3) ∧
  decode 0x5100000001 = .error .mustBeZero ∧ decode 0xFFFFFFFFFF = .error .reservedOpcode

/-! ## Steps -/

/-- A step whose next input is a command word runs the decoded command: `exec` of it in the state without the input,
then the history takes the command with its response (R91, 47_collaborator_ports.md R239; the input list is the
model's, log entry 1). -/
def Obligations.StepRunsTheDecodedCommand : Prop :=
  ∀ (s : State) (agent : Agent) (w : Word40) (inside : List Nat) (rest : List Input) (i : Instr),
    s.inputs = .command agent w inside :: rest → s.heldBack (.command agent w inside) = false → decode w = .ok i →
    step s =
      match exec i { s with inputs := rest, inside := inside } with
      | .next t => .next { t with inside := [], history := t.history ++ [.command agent w t.response] }
      | .fault r => .fault r
      | .refused r => .refused r

/-- A second producer-class command does not start while a COMPUTE_FRAME is between micro-steps: the step is the next
micro-step and the command stays listed (44_producer.md R181; the model's way of saying it, log entry 3). -/
def Obligations.ProducerCommandWaitsForTheFrame : Prop :=
  ∀ (s : State) (agent : Agent) (w : Word40) (inside : List Nat) (rest : List Input) (i : Instr),
    s.inputs = .command agent w inside :: rest → s.compute ≠ .idle → decode w = .ok i → classOf i = .producer →
    step s = andThen ({ s with inside := [] } : State).microStep (fun t => .next { t with inside := [] }) ∧
    ∀ t, step s = .next t → t.inputs = s.inputs

/-- A word that is no command changes no state of the channel and is answered ILLEGAL (R95, R96). -/
def Obligations.IllegalWordChangesNothing : Prop :=
  ∀ (s : State) (agent : Agent) (w : Word40) (inside : List Nat) (rest : List Input),
    s.inputs = .command agent w inside :: rest → s.heldBack (.command agent w inside) = false →
    s.configFault = false → ((opcodeField w).toNat ∉ definedOpcodes ∨ ¬MbzClear w) →
    step s = .next { s with
      inputs := rest, inside := [], response := some ⟨.illegal, 0⟩
      history := s.history ++ [.command agent w (some ⟨.illegal, 0⟩)] }

/-- The capacity fault (60_exceptions.md R262): set at reset exactly by a configuration beyond the capacity; while it is
set every word but RD_REG's is answered CONFIG_FATAL and changes nothing, and RD_REG changes nothing; no byte is written
and no transfer issued; nothing but a reset ends it. -/
def Obligations.CapacityFaultRefusesEveryCommand : Prop :=
  (∀ (par : Params) (cfg : Configuration) (epoch : Nat),
    (State.resetWith par cfg epoch).configFault = decide (par.bufLen.toNat < cfg.stripLength.toNat * 12)) ∧
  (∀ (w : Word40) (s : State), s.configFault = true →
    (opcodeField w ≠ 0x60#8 → runWord w s = .next { s with response := some ⟨.configFatal, 0⟩ }) ∧
    (opcodeField w = 0x60#8 → ∃ r, runWord w s = .next { s with response := some r })) ∧
  (∀ s t : State, s.Sound → s.configFault = true → s.nextIsReset = false → step s = .next t →
    t.configFault = true ∧ SameBytes s t ∧ t.transfers = s.transfers)

/-- The common checks in their order, the first that fails giving the status, and what answers when none fails: OK, or
ABSENT for a repeated take (60_exceptions.md R264). A COMPUTE_FRAME whose gate is open answers at its u4 (44_producer.md
R180, R181); that the response port shows none until then is the model's choice (log entry 14), and that an RD_REG word
with a must-be-zero bit set is ILLEGAL under the capacity fault is the model's reading of R264's order (log entry 23). -/
def Obligations.ChecksComeInOrder : Prop :=
  ∀ (w : Word40) (s : State),
    (s.configFault = true ∧ opcodeField w ≠ 0x60#8 →
      runWord w s = .next { s with response := some ⟨.configFatal, 0⟩ }) ∧
    (¬(s.configFault = true ∧ opcodeField w ≠ 0x60#8) →
      (∀ e, decode w = .error e → runWord w s = .next { s with response := some ⟨.illegal, 0⟩ }) ∧
      (∀ i, decode w = .ok i → s.granted (classOf i) = false →
        runWord w s = .next { s with response := some ⟨.notOwner, 0⟩ }) ∧
      (∀ i, decode w = .ok i → s.granted (classOf i) = true → OutOfRange i s →
        runWord w s = .next { s with response := some ⟨.range, 0⟩ }) ∧
      (∀ i t, decode w = .ok i → s.granted (classOf i) = true → ¬OutOfRange i s → runWord w s = .next t →
        (∃ d, t.response = some ⟨.ok, d⟩) ∨
        (i = .takeProducer ∧ s.producerTaken = true ∧ t.response = some ⟨.absent, 0⟩) ∨
        (i = .takeConsumer ∧ s.consumerTaken = true ∧ t.response = some ⟨.absent, 0⟩) ∨
        (i = .computeFrame ∧ s.gateOpen = true ∧ s.par.preempt = .micro ∧ t.response = none)))

/-- A response other than OK goes with no change at all: the state is equal but for the response (60_exceptions.md
R265). -/
def Obligations.FailedCommandChangesNothing : Prop :=
  ∀ (w : Word40) (s t : State) (r : Response),
    runWord w s = .next t → t.response = some r → r.status ≠ .ok → t = { s with response := some r }

/-- Every command answers a next state; only COMPUTE_FRAME taken as one step can stop, by `FRAME_WRAP` = fault or, in
states no run reaches, outside the region (70_reset_and_hazards.md R300). -/
def Obligations.EveryCommandAnswers : Prop :=
  ∀ (i : Instr) (s : State), (i = .computeFrame → s.par.preempt = .micro) → ∃ t, exec i s = .next t

/-- No step of a sound machine whose counter wraps is stuck or stops (R300). -/
def Obligations.SoundMachineAlwaysSteps : Prop :=
  ∀ s : State, s.Sound → s.par.frameWrap = .wrap → ∃ t, step s = .next t

/-- The word placed by `withFetchWord` is the one the very next step runs (the model's own function, log entry 1). -/
def Obligations.FetchedWordRunsNext : Prop :=
  ∀ (s : State) (w : Word40) (i : Instr), decode w = .ok i →
    step (s.withFetchWord 40 w.toNat) =
      andThen (exec i { s with inside := [], compute := if classOf i = .producer then .idle else s.compute })
        (fun t => .next { t with
          inside := [], history := t.history ++ [.command (agentOf (classOf i)) w t.response] })

/-! ## The ownership gate -/

/-- Each handle is granted once; a repeated take responds ABSENT and changes nothing (60_exceptions.md R252,
43_ownership_gate.md R162, R163). -/
def Obligations.TakesGrantOnce : Prop :=
  ∀ s : State, s.configFault = false →
    (s.producerTaken = false →
      exec .takeProducer s = .next { s with producerTaken := true, response := some ⟨.ok, 1⟩ }) ∧
    (s.producerTaken = true → exec .takeProducer s = .next { s with response := some ⟨.absent, 0⟩ }) ∧
    (s.consumerTaken = false →
      exec .takeConsumer s = .next { s with consumerTaken := true, response := some ⟨.ok, 1⟩ }) ∧
    (s.consumerTaken = true → exec .takeConsumer s = .next { s with response := some ⟨.absent, 0⟩ })

/-! ## The scaler -/

/-- SCALE responds with the packed value and writes no state (40_color_scaler.md R120). -/
def Obligations.ScaleRespondsThePackedValue : Prop :=
  ∀ (s : State) (blue red green bright : Byte), s.configFault = false →
    exec (.scale blue red green bright) s = .next { s with
      response := some ⟨.ok, BitVec.ofNat 32
        ((blue.toNat * bright.toNat / 255) * 2 ^ 16 + (red.toNat * bright.toNat / 255) * 2 ^ 8
          + green.toNat * bright.toNat / 255)⟩ }

/-- The laws of one lane (R122). -/
def Obligations.ScaleLaneLaws : Prop :=
  ∀ c b : Byte, (scaleLane c b).toNat = c.toNat * b.toNat / 255 ∧ scaleLane c 0 = 0 ∧ scaleLane c 255 = c

/-- The corner cases of the lanes (R123). -/
def Obligations.ScaleLaneCorners : Prop :=
  (∀ c b : Byte, scaleLane c b = scaleLane b c ∧ scaleLane 0 b = 0 ∧
    (scaleLane c b).toNat ≤ min c.toNat b.toNat ∧
    255 * (scaleLane c b).toNat ≤ c.toNat * b.toNat ∧ c.toNat * b.toNat ≤ 255 * (scaleLane c b).toNat + 254) ∧
  (scaleLane 1 254 = 0 ∧ scaleLane 127 2 = 0 ∧ scaleLane 128 2 = 1 ∧ scaleLane 255 254 = 254 ∧
    scaleLane 128 128 = 64 ∧ scaleLane 200 200 = 156) ∧
  (∀ (c : Colour) (b : Byte), (scaleColour c b).extractLsb' 16 8 = scaleLane c.blue b ∧
    (scaleColour c b).extractLsb' 8 8 = scaleLane c.red b ∧ (scaleColour c b).extractLsb' 0 8 = scaleLane c.green b)

/-! ## The pixel encoder -/

/-- Byte `k` of an encoded pixel is the table's byte of bit pair `11 - k`; the other choice of `d0` exchanges the two
middle rows (30_encoding.md R100). -/
def Obligations.EncodedPixelFollowsTheTable : Prop :=
  ∀ packed : Word24,
    (∀ d0IsLow, (encodePixel d0IsLow packed).length = 12) ∧
    ∀ k, k < 12 →
      (encodePixel true packed)[k]? =
        some (tableByte (packed.getLsbD (2 * (11 - k) + 1)) (packed.getLsbD (2 * (11 - k)))) ∧
      (encodePixel false packed)[k]? =
        some (tableByte (packed.getLsbD (2 * (11 - k))) (packed.getLsbD (2 * (11 - k) + 1)))

/-- Twelve bytes for every value; all-zero and all-one values are uniform (41_bit_encoder.md R137). -/
def Obligations.EncodedPixelIsTwelveBytes : Prop :=
  ∀ d0IsLow, (∀ packed, (encodePixel d0IsLow packed).length = 12) ∧
    encodePixel d0IsLow 0x000000 = List.replicate 12 0xEF ∧ encodePixel d0IsLow 0xFFFFFF = List.replicate 12 0x08

/-- Decoding an encoded pixel gives the packed value back, and no other byte is an encoded one (R136). -/
def Obligations.PixelDecodesBack : Prop :=
  (∀ (d0IsLow : Bool) (packed : Word24), decodePixel d0IsLow (encodePixel d0IsLow packed) = some packed) ∧
  (∀ y : Byte, symbolBits y = none ↔ y ∉ [0xEF#8, 0xE8#8, 0x0F#8, 0x08#8])

/-- ENCODE_PIXEL stores the twelve bytes into its slot of the inactive region and nothing else: every other byte, flag
and register is unchanged. Its own misuse is recorded, and PV_WRITE_WHILE_BUSY when the region is in flight. The
engine's state changes only by engine steps that fall between its byte writes, and the history grows by their events
alone (41_bit_encoder.md R130, R133; 60_exceptions.md R256; 20_memory.md R75 e; log entry 13). In which order the bytes
are written, EncodePixelWritesItsHighestByteFirst says. -/
def Obligations.EncodePixelStoresItsSlot : Prop :=
  ∀ (s : State) (pix : Nat) (packed : Word24), s.configFault = false → s.producerTaken = true →
    12 * pix + 11 < s.bufLen →
    ∃ t, exec (.encodePixel pix packed) s = .next t ∧
      (∀ k, k < 12 →
        t.readByte s.inactive (12 * pix + k) = (encodePixel s.par.pairD0IsLowBit packed).getD k 0) ∧
      SameBytesOutside s.inactive (12 * pix) 12 s t ∧
      t = { s with
        buffer1 := t.buffer1, buffer2 := t.buffer2, response := some ⟨.ok, 0⟩
        violations := { s.violations with
          primitiveMisuse := true
          writeWhileBusy := s.violations.writeWhileBusy || decide (s.txRegion = some s.inactive) }
        txRegion := t.txRegion, txNext := t.txNext, history := t.history, inside := t.inside } ∧
      EngineOnly [] s t ∧
      (s.inside = [] → t.txRegion = s.txRegion ∧ t.txNext = s.txNext ∧ t.history = s.history ∧ t.inside = [])

/-! ## The double buffer -/

/-- The two views answer the ids of the active and the inactive region and change nothing; the ids differ
(42_double_buffer.md R145, R146). -/
def Obligations.ViewsNameTheTwoRegions : Prop :=
  ∀ s : State, s.configFault = false →
    (s.consumerTaken = true →
      exec .rbReadableView s = .next { s with response := some ⟨.ok, if s.activeIs1 then 1 else 2⟩ }) ∧
    (s.producerTaken = true →
      exec .rbWritableView s = .next { s with response := some ⟨.ok, if s.activeIs1 then 2 else 1⟩ })

/-- RB_LENGTH answers the capacity of one region and changes nothing (R151). -/
def Obligations.LengthAnswersTheCapacity : Prop :=
  ∀ s : State, s.configFault = false →
    exec .rbLength s = .next { s with response := some ⟨.ok, BitVec.ofNat 32 s.bufLen⟩ }

/-- RB_READ answers the byte of the active region, records its own misuse (60_exceptions.md R256 with 92_eei_decisions.md
D26, the model's reading of the two, log entry 26) and changes nothing else; beyond the region it answers RANGE and
records nothing (R147). -/
def Obligations.ReadAnswersTheActiveByte : Prop :=
  ∀ (s : State) (off : Nat), s.configFault = false → s.consumerTaken = true →
    (off < s.bufLen →
      exec (.rbRead off) s = .next { s with
        violations := { s.violations with primitiveMisuse := true }
        response := some ⟨.ok, BitVec.ofNat 32 (s.readByte (if s.activeIs1 then .one else .two) off).toNat⟩ }) ∧
    (s.bufLen ≤ off → exec (.rbRead off) s = .next { s with response := some ⟨.range, 0⟩ })

/-- RB_WRITE stores one byte of the inactive region and nothing else; beyond the region it answers RANGE and nothing is
written (R148, 20_memory.md R70). -/
def Obligations.WriteStoresOneInactiveByte : Prop :=
  ∀ (s : State) (off : Nat) (data : Byte), s.configFault = false → s.producerTaken = true →
    (off < s.bufLen → ∃ t, exec (.rbWrite off data) s = .next t ∧
      t.readByte s.inactive off = data ∧ SameBytesOutside s.inactive off 1 s t ∧
      t = { s with
        buffer1 := t.buffer1, buffer2 := t.buffer2, response := some ⟨.ok, 0⟩
        violations := { s.violations with
          primitiveMisuse := true
          writeWhileBusy := s.violations.writeWhileBusy || decide (s.txRegion = some s.inactive) } }) ∧
    (s.bufLen ≤ off → exec (.rbWrite off data) s = .next { s with response := some ⟨.range, 0⟩ })

/-- RB_REQUEST_SWAP sets `swap_pending` alone; RB_COMMIT_SWAP flips the selector and clears the flag when it is set, and
does nothing when not; no byte moves. Both record their misuse, a commit that swaps under a transfer also
PV_START_WHILE_BUSY (42_double_buffer.md R149, R150, R153; 60_exceptions.md R256). -/
def Obligations.BufferSwapIsRequestedThenCommitted : Prop :=
  ∀ s : State, s.configFault = false →
    (s.producerTaken = true →
      exec .rbRequestSwap s = .next { s with
        swapPending := true, response := some ⟨.ok, 0⟩
        violations := { s.violations with primitiveMisuse := true } }) ∧
    (s.consumerTaken = true → s.swapPending = true →
      exec .rbCommitSwap s = .next { s with
        activeIs1 := !s.activeIs1, swapPending := false, response := some ⟨.ok, 1⟩
        violations := { s.violations with
          primitiveMisuse := true
          startWhileBusy := s.violations.startWhileBusy || s.txRegion.isSome } }) ∧
    (s.consumerTaken = true → s.swapPending = false →
      exec .rbCommitSwap s = .next { s with
        response := some ⟨.ok, 0⟩, violations := { s.violations with primitiveMisuse := true } })

/-- Round trip: bytes written through the writable view, then a request and a commit, are read back through the
readable view (42_double_buffer.md R152). The reads add no violation to what the request has recorded. -/
def Obligations.WrittenBytesAreReadAfterTheSwap : Prop :=
  ∀ (s : State) (bs : List Byte), s.configFault = false → s.producerTaken = true → s.consumerTaken = true →
    bs.length ≤ s.bufLen →
    ∃ t, andThen (writeFrom 0 bs s) swapBuffers = .next t ∧
      ∀ j b, bs[j]? = some b → exec (.rbRead j) t = .next { t with response := some ⟨.ok, BitVec.ofNat 32 b.toNat⟩ }

/-! ## The channel's swap protocol -/

/-- CH_REQUEST_SWAP sets both swap flags; CH_TRY_SWAP, when a swap is pending, flips the selector, clears both, sets
`started` and `frame_requested`, and when none is pending changes no flag; no byte moves (43_ownership_gate.md R168,
R170; 60_exceptions.md R256). -/
def Obligations.ChannelSwapRearmsTheProducer : Prop :=
  ∀ s : State, s.configFault = false →
    (s.producerTaken = true →
      exec .chRequestSwap s = .next { s with
        swapRequested := true, swapPending := true, response := some ⟨.ok, 0⟩
        violations := { s.violations with primitiveMisuse := true } }) ∧
    (s.consumerTaken = true → s.swapPending = true →
      exec .chTrySwap s = .next { s with
        activeIs1 := !s.activeIs1, swapPending := false, swapRequested := false, started := true
        frameRequested := true, response := some ⟨.ok, 1⟩
        violations := { s.violations with
          primitiveMisuse := true
          startWhileBusy := s.violations.startWhileBusy || s.txRegion.isSome } }) ∧
    (s.consumerTaken = true → s.swapPending = false →
      exec .chTrySwap s = .next { s with
        response := some ⟨.ok, 0⟩, violations := { s.violations with primitiveMisuse := true } })

/-! ## The producer -/

/-- COMPUTE_FRAME with the gate closed is a no-op: nothing but the response changes, no query is made
(44_producer.md R182). -/
def Obligations.ClosedGateMakesComputeFrameANoOp : Prop :=
  ∀ s : State, s.configFault = false → s.producerTaken = true →
    ¬(s.frameRequested = true ∧ s.lastFrameCalculated = false) →
    exec .computeFrame s = .next { s with response := some ⟨.ok, 0⟩ }

/-- COMPUTE_FRAME with the gate open, granularity micro: u1 changes nothing but where the producer stands, at pixel 0,
or at u3 when the strip has no pixel (44_producer.md R180, R181, R189; no response before u4, log entry 14). -/
def Obligations.OpenGateStartsTheFrame : Prop :=
  ∀ s : State, s.configFault = false → s.producerTaken = true → s.frameRequested = true →
    s.lastFrameCalculated = false → s.par.preempt = .micro →
    exec .computeFrame s = .next { s with
      compute := if s.stripLength = 0 then .count else .pixel 0, response := none }

/-- A present colour at pixel `p`, static or from the generator, is scaled by `brightness`, encoded and stored in slot
`p` of the inactive region, and nothing else of the channel changes but the cursor. The history takes the generator's
query with its answer and after it the events of engine steps that fall between the byte writes, nothing else
(44_producer.md R183, 20_memory.md R75 e; log entry 13). -/
def Obligations.PresentPixelIsStoredInItsSlot : Prop :=
  ∀ (s : State) (p : Nat) (c : Colour), s.compute = .pixel p → 12 * p + 11 < s.bufLen →
    (s.srcKind = .static ∧ c = colourOfWord s.staticColor ∨
      s.srcKind = .generator ∧ s.generate (BitVec.ofNat 8 p) = some c) →
    ∃ t, s.microStep = .next t ∧
      (∀ k, k < 12 → t.readByte s.inactive (12 * p + k) =
        (encodePixel s.par.pairD0IsLowBit (scaleColour c s.brightness)).getD k 0) ∧
      SameBytesOutside s.inactive (12 * p) 12 s t ∧
      t = { s with
        buffer1 := t.buffer1, buffer2 := t.buffer2
        compute := if p + 1 < s.stripLength.toNat then .pixel (p + 1) else .count
        violations := { s.violations with
          writeWhileBusy := s.violations.writeWhileBusy || decide (s.txRegion = some s.inactive) }
        txRegion := t.txRegion, txNext := t.txNext, history := t.history, inside := t.inside } ∧
      EngineOnly (pixelQuery s p (some c)) s t ∧
      (s.inside = [] → t.txRegion = s.txRegion ∧ t.txNext = s.txNext ∧ t.inside = [] ∧
        t.history = s.history ++ pixelQuery s p (some c))

/-- An absent answer at the final pixel sets `last_frame_calculated` and writes no byte (44_producer.md R184). -/
def Obligations.AbsentFinalPixelEndsTheAnimation : Prop :=
  ∀ (s : State) (p : Nat), s.compute = .pixel p → 12 * p + 11 < s.bufLen → s.srcKind = .generator →
    s.generate (BitVec.ofNat 8 p) = none → p + 1 = s.stripLength.toNat →
    s.microStep = .next { s with
      lastFrameCalculated := true, compute := .count
      history := s.history ++ [.genQuery s.stripId s.stripLength s.frameNumber (BitVec.ofNat 8 p) none] }

/-- An absent answer before the final pixel records PV_EARLY_END, changes no flag and goes on; under `skip` the slot
keeps its bytes, under `any_value` it is as `skip` but that the slot's bytes become whatever values (44_producer.md R185,
60_exceptions.md R254). They do so by byte writes, so that PV_WRITE_WHILE_BUSY is recorded when the region is in flight
and engine steps can fall between them: the model's choice (log entries 10, 13). -/
def Obligations.EarlyAbsentPixelFollowsThePolicy : Prop :=
  ∀ (s : State) (p : Nat), s.compute = .pixel p → 12 * p + 11 < s.bufLen → s.srcKind = .generator →
    s.generate (BitVec.ofNat 8 p) = none → p + 1 < s.stripLength.toNat →
    (s.par.earlyEnd = .skip →
      s.microStep = .next { s with
        violations := { s.violations with earlyEnd := true }, compute := .pixel (p + 1)
        history := s.history ++ [.genQuery s.stripId s.stripLength s.frameNumber (BitVec.ofNat 8 p) none] }) ∧
    (s.par.earlyEnd = .anyValue → ∃ t, s.microStep = .next t ∧ SameBytesOutside s.inactive (12 * p) 12 s t ∧
      t = { s with
        buffer1 := t.buffer1, buffer2 := t.buffer2, compute := .pixel (p + 1), freeCount := t.freeCount
        violations := { s.violations with
          earlyEnd := true
          writeWhileBusy := s.violations.writeWhileBusy || decide (s.txRegion = some s.inactive) }
        txRegion := t.txRegion, txNext := t.txNext, history := t.history, inside := t.inside } ∧
      EngineOnly (pixelQuery s p none) s t ∧
      (s.inside = [] → t.txRegion = s.txRegion ∧ t.txNext = s.txNext ∧ t.inside = [] ∧
        t.history = s.history ++ pixelQuery s p none))

/-- The closing micro-steps: u3 counts the frame modulo 2^32 (or stops at 2^32 - 1 when `FRAME_WRAP` = fault) and clears
`frame_requested`; u4 requests the swap and responds (44_producer.md R186). -/
def Obligations.ClosingStepsCountAndRequestTheSwap : Prop :=
  ∀ s : State,
    (s.compute = .count → (s.par.frameWrap = .wrap ∨ s.frameNumber ≠ 0xFFFFFFFF#32) →
      s.microStep = .next { s with
        frameNumber := BitVec.ofNat 32 (s.frameNumber.toNat + 1), frameRequested := false, compute := .publish }) ∧
    (s.compute = .count → s.par.frameWrap = .fault → s.frameNumber = 0xFFFFFFFF#32 →
      s.microStep = .fault .frameCounterOverflow) ∧
    (s.compute = .publish →
      s.microStep = .next { s with
        swapRequested := true, swapPending := true, compute := .idle, response := some ⟨.ok, 1⟩
        history := s.history ++ [.completed ⟨.ok, 1⟩] })

/-- COMPUTE_FRAME as one step on a static display: every slot of the frame takes the encoded colour, the rest of both
regions keeps its bytes, the counter counts, the swap is requested and `last_frame_calculated` is not set
(44_producer.md R180, R187). Taken as one step it answers at once (log entry 18); the engine's state changes only by
engine steps that fall between its byte writes (log entry 13). -/
def Obligations.StaticFrameFillsEverySlot : Prop :=
  ∀ s : State, s.Sound → s.configFault = false → s.producerTaken = true → s.frameRequested = true →
    s.lastFrameCalculated = false → s.par.preempt = .op → s.srcKind = .static → s.par.frameWrap = .wrap →
    ∃ t, exec .computeFrame s = .next t ∧
      (∀ p k, p < s.stripLength.toNat → k < 12 →
        t.readByte s.inactive (12 * p + k) =
          (encodePixel s.par.pairD0IsLowBit (scaleColour (colourOfWord s.staticColor) s.brightness)).getD k 0) ∧
      SameBytesOutside s.inactive 0 (12 * s.stripLength.toNat) s t ∧
      t = { s with
        buffer1 := t.buffer1, buffer2 := t.buffer2, frameNumber := s.frameNumber + 1, frameRequested := false
        swapRequested := true, swapPending := true, response := some ⟨.ok, 1⟩
        violations := { s.violations with
          writeWhileBusy := s.violations.writeWhileBusy ||
            (decide (s.stripLength ≠ 0) && decide (s.txRegion = some s.inactive)) }
        txRegion := t.txRegion, txNext := t.txNext, history := t.history, inside := t.inside } ∧
      EngineOnly [] s t ∧
      (s.inside = [] → t.txRegion = s.txRegion ∧ t.txNext = s.txNext ∧ t.history = s.history ∧ t.inside = [])

/-- Taken micro-step by micro-step with nothing in between, a COMPUTE_FRAME ends in the state the command taken as one
step gives, but for the granularity itself and the event of its completion (44_producer.md R181, 20_memory.md R75 d). That
nothing comes in between with no input listed is log entry 2, the event of the completion log entry 15, the command as
one step log entry 18; under `any_value` both runs take the same free bytes by log entry 10. -/
def Obligations.MicroStepsAddUpToTheWholeFrame : Prop :=
  ∀ s t u : State, s.compute = .idle → s.inputs = [] → s.inside = [] → s.par.preempt = .micro →
    exec .computeFrame s = .next u → u.compute ≠ .idle →
    exec .computeFrame { s with par := { s.par with preempt := .op } } = .next t →
    runSteps (s.stripLength.toNat + 2) u =
      .next { t with par := s.par, history := t.history ++ [.completed ⟨.ok, 1⟩] }

/-! ## The consumer -/

/-- The truth table of IS_ANIMATION_FINISHED: it responds 1 exactly when `last_frame_shown` was 1, and sets it exactly
when `last_frame_calculated` is 1 (45_consumer.md R201). -/
def Obligations.FinishedCheckFollowsItsTruthTable : Prop :=
  ∀ s : State, s.configFault = false → s.consumerTaken = true →
    exec .isAnimationFinished s = .next { s with
      lastFrameShown := s.lastFrameShown || s.lastFrameCalculated
      response := some ⟨.ok, if s.lastFrameShown then 1 else 0⟩ }

/-- START_FRAME once the animation is finished does nothing and responds 0 (45_consumer.md R203, R210). -/
def Obligations.FinishedStartFrameDoesNothing : Prop :=
  ∀ s : State, s.configFault = false → s.consumerTaken = true → s.lastFrameShown = true →
    exec .startFrame s = .next { s with response := some ⟨.ok, 0⟩ }

/-- START_FRAME before that makes the finished check, swaps if a swap is pending, and hands the region active after it
to the engine with `strip_length * 12` bytes, a transfer of none for an empty strip; the violations of 60_exceptions.md
R255 and R256 are recorded (45_consumer.md R203 to R207). -/
def Obligations.StartFrameSwapsAndTransfers : Prop :=
  ∀ s : State, s.configFault = false → s.consumerTaken = true → s.lastFrameShown = false →
    exec .startFrame s = .next { s with
      lastFrameShown := s.lastFrameCalculated
      activeIs1 := if s.swapPending then !s.activeIs1 else s.activeIs1
      swapPending := false
      swapRequested := if s.swapPending then false else s.swapRequested
      started := s.started || s.swapPending
      frameRequested := s.frameRequested || s.swapPending
      txRegion := some (if s.activeIs1 = s.swapPending then .two else .one)
      txLen := BitVec.ofNat 32 (s.stripLength.toNat * 12)
      txNext := 0
      violations := { s.violations with
        startWhileBusy := s.violations.startWhileBusy || s.txRegion.isSome
        startBeforeFirstFrame := s.violations.startBeforeFirstFrame || !(s.started || s.swapPending) }
      history := s.history ++ [.transfer (if s.activeIs1 = s.swapPending then .two else .one)
        (BitVec.ofNat 32 (s.stripLength.toNat * 12))]
      response := some ⟨.ok, 1⟩ }

/-! ## The host's registers -/

/-- RD_REG shows the five status registers field by field, changes nothing, and answers RANGE for any other number
(46_host_access.md R220, 10_state.md R39). -/
def Obligations.StatusRegistersShowTheState : Prop :=
  ∀ s : State,
    (∃ v, exec (.rdReg 0) s = .next { s with response := some ⟨.ok, v⟩ } ∧
      v.getLsbD 0 = s.frameRequested ∧ v.getLsbD 1 = s.lastFrameCalculated ∧ v.getLsbD 2 = s.lastFrameShown ∧
      v.getLsbD 3 = s.swapRequested ∧ v.getLsbD 4 = s.swapPending ∧ v.getLsbD 5 = s.activeIs1 ∧
      v.getLsbD 6 = s.producerTaken ∧ v.getLsbD 7 = s.consumerTaken ∧ v.getLsbD 8 = s.configFault ∧
      ∀ n, 9 ≤ n → v.getLsbD n = false) ∧
    (∃ v, exec (.rdReg 1) s = .next { s with response := some ⟨.ok, v⟩ } ∧
      v.extractLsb' 0 8 = s.stripId ∧ v.extractLsb' 8 8 = s.stripLength ∧ v.extractLsb' 16 8 = s.brightness ∧
      v.getLsbD 24 = decide (s.srcKind = .static) ∧ v.extractLsb' 25 7 = 0) ∧
    (∃ v, exec (.rdReg 2) s = .next { s with response := some ⟨.ok, v⟩ } ∧ v.extractLsb' 24 8 = 0 ∧
      v.extractLsb' 0 24 = if s.srcKind = .static then s.staticColor else 0) ∧
    exec (.rdReg 3) s = .next { s with response := some ⟨.ok, s.frameNumber⟩ } ∧
    exec (.rdReg 4) s = .next { s with response := some ⟨.ok, BitVec.ofNat 32 s.bufLen⟩ } ∧
    ∀ reg, 4 < reg → exec (.rdReg reg) s = .next { s with response := some ⟨.range, 0⟩ }

/-! ## The transfer engine -/

/-- Left alone, the engine reads the region in flight byte by byte in ascending order, each byte once, and then is
done; the transfer's end changes `tx_region` and nothing else of the channel (47_collaborator_ports.md R234 to R236). -/
def Obligations.EngineSendsTheRegionInOrder : Prop :=
  ∀ (s : State) (r : Region), s.inputs = [] → s.compute = .idle → s.txRegion = some r → s.txNext = 0 →
    s.txLen.toNat ≤ s.bufLen →
    runSteps (s.txLen.toNat + 1) s = .next { s with
      txRegion := none, txNext := s.txLen.toNat
      history := s.history ++ (List.range s.txLen.toNat).map (fun k => .txByte k (s.readByte r k)) ++ [.txDone] }

/-! ## Every step -/

/-- What each class of command may change (60_exceptions.md R266): a host-class command the taken flags; a
producer-class command bytes of the inactive region, its flags and the counter, setting the swap flags and
`last_frame_calculated` and clearing `frame_requested` only; a consumer-class command no byte, and its flags in its own
direction only. The response, the ghost state and the engine's own state apart. -/
def Obligations.ClassesChangeOnlyWhatIsTheirs : Prop :=
  ∀ (i : Instr) (s t : State), exec i s = .next t →
    (classOf i = .host →
      t = { s with producerTaken := t.producerTaken, consumerTaken := t.consumerTaken, response := t.response }) ∧
    (classOf i = .producer →
      t = { s with
        buffer1 := t.buffer1, buffer2 := t.buffer2, swapRequested := t.swapRequested, swapPending := t.swapPending
        lastFrameCalculated := t.lastFrameCalculated, frameRequested := t.frameRequested
        frameNumber := t.frameNumber, compute := t.compute, response := t.response, violations := t.violations
        txRegion := t.txRegion, txNext := t.txNext, history := t.history, inside := t.inside
        freeCount := t.freeCount } ∧
      (s.swapRequested = true → t.swapRequested = true) ∧ (s.swapPending = true → t.swapPending = true) ∧
      (s.lastFrameCalculated = true → t.lastFrameCalculated = true) ∧
      (s.frameRequested = false → t.frameRequested = false) ∧
      ∀ off, t.readByte s.active off = s.readByte s.active off) ∧
    (classOf i = .consumer →
      t = { s with
        activeIs1 := t.activeIs1, swapPending := t.swapPending, swapRequested := t.swapRequested
        frameRequested := t.frameRequested, lastFrameShown := t.lastFrameShown, started := t.started
        txRegion := t.txRegion, txLen := t.txLen, txNext := t.txNext, violations := t.violations
        history := t.history, response := t.response } ∧
      SameBytes s t ∧
      (s.swapRequested = false → t.swapRequested = false) ∧ (s.swapPending = false → t.swapPending = false) ∧
      (s.frameRequested = true → t.frameRequested = true) ∧ (s.lastFrameShown = true → t.lastFrameShown = true))

/-- The lifecycle flags in every step but a reset: `frame_requested` is set only by a swap that is performed and
cleared only where a frame is counted; `last_frame_calculated` is set only where the generator answers absent for the
last pixel, and stays once set; `last_frame_shown` is set only after `last_frame_calculated`, and stays once set
(10_state.md R29 to R31). -/
def Obligations.LifecycleFlagsMoveAsStated : Prop :=
  ∀ s t : State, step s = .next t → s.nextIsReset = false →
    (s.frameRequested = false → t.frameRequested = true →
      s.swapPending = true ∧ t.swapPending = false ∧ t.activeIs1 = !s.activeIs1) ∧
    (s.frameRequested = true → t.frameRequested = false → t.frameNumber = s.frameNumber + 1) ∧
    (s.lastFrameCalculated = true → t.lastFrameCalculated = true) ∧
    (s.lastFrameCalculated = false → t.lastFrameCalculated = true → s.srcKind = .generator ∧ s.stripLength ≠ 0 ∧
      .genQuery s.stripId s.stripLength s.frameNumber (s.stripLength - 1) none ∈ t.history.drop s.history.length) ∧
    (s.lastFrameShown = true → t.lastFrameShown = true) ∧
    (s.lastFrameShown = false → t.lastFrameShown = true → s.lastFrameCalculated = true)

/-- The swap flags in every step but a reset: the selector changes exactly when `swap_pending` is cleared, and
`swap_requested` is cleared only by a swap that is performed; a swap moves no byte (10_state.md R32 to R34,
20_memory.md R73). -/
def Obligations.SwapFlagsMoveAsStated : Prop :=
  ∀ s t : State, step s = .next t → s.nextIsReset = false →
    (t.activeIs1 = !s.activeIs1 ↔ s.swapPending = true ∧ t.swapPending = false) ∧
    (s.swapRequested = true → t.swapRequested = false → s.swapPending = true ∧ t.swapPending = false) ∧
    (t.activeIs1 = !s.activeIs1 → SameBytes s t)

/-- In every step but a reset the configuration, the parameters and `config_fault` stay, and a granted handle stays
granted (00_scope.md R7, 10_state.md R35, R40, 43_ownership_gate.md R164). -/
def Obligations.ConfigurationAndGrantsPersist : Prop :=
  ∀ s t : State, step s = .next t → s.nextIsReset = false →
    t.par = s.par ∧ t.epoch = s.epoch ∧ t.stripId = s.stripId ∧ t.stripLength = s.stripLength ∧
    t.brightness = s.brightness ∧ t.srcKind = s.srcKind ∧ t.staticColor = s.staticColor ∧
    t.configFault = s.configFault ∧ (s.producerTaken = true → t.producerTaken = true) ∧
    (s.consumerTaken = true → t.consumerTaken = true)

/-- No step but a reset writes a byte of the region active before it: "no command writes the active region"
(20_memory.md R62, 44_producer.md R188). -/
def Obligations.ActiveRegionIsNeverWritten : Prop :=
  ∀ s t : State, step s = .next t → s.nextIsReset = false →
    ∀ off, t.readByte s.active off = s.readByte s.active off

/-- Once `last_frame_shown` is 1 it stays 1 and no transfer is ever issued, but for a reset (45_consumer.md R210). -/
def Obligations.StoppedChannelTransfersNothing : Prop :=
  ∀ s t : State, s.lastFrameShown = true → step s = .next t → s.nextIsReset = false →
    t.lastFrameShown = true ∧ t.transfers = s.transfers ∧ t.lifecycle = .stopped

/-- No step but a reset takes the lifecycle label backwards, and STOPPED is entered only from DRAINING (45_consumer.md
R209). -/
def Obligations.LifecycleNeverGoesBack : Prop :=
  ∀ s t : State, step s = .next t → s.nextIsReset = false →
    s.lifecycle.rank ≤ t.lifecycle.rank ∧
    (t.lifecycle = .stopped → s.lifecycle = .stopped ∨ s.lifecycle = .draining)

/-- In an ended run under the protocol no command of the discipline changes anything but the taken flags and the
response (70_reset_and_hazards.md R301). -/
def Obligations.EndedRunIsFinal : Prop :=
  ∀ (s t : State) (i : Instr), s.ended = true → s.Protocol → s.disciplinedCommand i = true → exec i s = .next t →
    t = { s with producerTaken := t.producerTaken, consumerTaken := t.consumerTaken, response := t.response }

/-! ## Invariants -/

/-- Every step keeps the machine sound: canonical memories inside their capacity, `config_fault` as R40 says, the pixel
cursor and the transfer inside the region (20_memory.md R66, R70; 10_state.md R40). -/
def Obligations.EveryStepKeepsTheMachineSound : Prop :=
  ∀ s t : State, s.Sound → step s = .next t → t.Sound

/-- A channel just created is sound, with any parameters and any configuration. -/
def Obligations.ResetMachineIsSound : Prop :=
  (∀ (par : Params) (cfg : Configuration) (epoch : Nat), (State.resetWith par cfg epoch).Sound) ∧ State.reset.Sound

/-- Every disciplined step keeps I1 to I5 of 10_state.md R38, and so does an RB_READ. The premise asks less than R37 (log
entries 26, 27). -/
def Obligations.DisciplinedStepKeepsTheProtocol : Prop :=
  ∀ s t : State, s.Protocol → s.disciplined = true ∨ s.nextReads = true → step s = .next t → t.Protocol

/-- A channel just created meets I1 to I5 (10_state.md R38, 70_reset_and_hazards.md R281). -/
def Obligations.ResetMachineMeetsTheProtocol : Prop :=
  ∀ (par : Params) (cfg : Configuration) (epoch : Nat) (inputs : List Input),
    ({ State.resetWith par cfg epoch with inputs := inputs } : State).Protocol

/-- The safety property of 20_memory.md R82 in every run of disciplined steps, wider than R37's (log entry 27): whenever
a producer micro-step is about to write a region, that region is not in flight, and no violation but PV_EARLY_END is
ever recorded. -/
def Obligations.DisciplinedRunNeverWritesTheRegionInFlight : Prop :=
  ∀ s : State, DisciplinedRun s →
    (∀ p, s.compute = .pixel p → s.txRegion ≠ some s.inactive) ∧
    s.violations = { Violations.empty with earlyEnd := s.violations.earlyEnd }

/-- In disciplined steps, and in an RB_READ, the bytes of the region in flight stand still: what is transmitted is the
frame as it stood when the transfer started (47_collaborator_ports.md R235, 95_test_vectors.md part 4 claim 5). -/
def Obligations.RegionInFlightStandsStill : Prop :=
  ∀ (s t : State) (r : Region), s.Protocol → s.disciplined = true ∨ s.nextReads = true → step s = .next t →
    s.nextIsReset = false → s.txRegion = some r →
    (∀ off, t.readByte r off = s.readByte r off) ∧ (t.txRegion = some r ∨ t.txRegion = none) ∧
    ∀ k v, Event.txByte k v ∈ t.history.drop s.history.length → v = s.readByte r k

/-! ## Reset -/

/-- Reset puts every piece of state at the value of 70_reset_and_hazards.md R281, for any parameters and
configuration. -/
def Obligations.ResetPutsEveryPieceAtItsValue : Prop :=
  ∀ (par : Params) (cfg : Configuration) (epoch : Nat) (s : State), s = State.resetWith par cfg epoch →
    s.stripId = cfg.stripId ∧ s.stripLength = cfg.stripLength ∧ s.brightness = cfg.brightness ∧
    (cfg.source = .generator → s.srcKind = .generator) ∧
    (∀ c, cfg.source = .static c → s.srcKind = .static ∧ s.staticColor = c) ∧
    s.frameNumber = 0 ∧ s.frameRequested = true ∧ s.lastFrameCalculated = false ∧ s.lastFrameShown = false ∧
    s.swapRequested = false ∧ s.swapPending = false ∧ s.activeIs1 = par.activeReset ∧
    s.producerTaken = false ∧ s.consumerTaken = false ∧
    s.configFault = decide (par.bufLen.toNat < cfg.stripLength.toNat * 12) ∧
    (par.bufReset = .unspecified → ∀ r off, s.readByte r off = Config.bufReset epoch r off) ∧
    (∀ b1 b2, par.bufReset = .content b1 b2 → ∀ off, off < s.bufLen →
      (∀ b, b1[off]? = some b → s.readByte .one off = b) ∧ (∀ b, b2[off]? = some b → s.readByte .two off = b)) ∧
    s.txRegion = none ∧ s.txLen = 0 ∧ s.started = false ∧ s.violations = Violations.empty ∧
    s.lifecycle = .awaitingFirstFrame

/-- A reset delivered in a run is the creation of a new channel: no state survives it (R280; how it is delivered is the
model's, log entry 17). -/
def Obligations.ResetInputCreatesANewChannel : Prop :=
  ∀ (s : State) (par : Params) (cfg : Configuration) (rest : List Input), s.inputs = .reset par cfg :: rest →
    step s = .next { State.resetWith par cfg (s.epoch + 1) with inputs := rest }

/-! ## The discipline step by step, and the order of a slot's byte writes -/

/-- A step under discipline, as 10_state.md R37 defines it with every host duty of 70_reset_and_hazards.md R290, keeps
the machine sound, keeps I1 to I5 of R38 and records no violation, PV_EARLY_END included (60_exceptions.md R254 to
R256). What the model takes for H-b is log entry 21. -/
def Obligations.StepUnderDisciplineRecordsNoViolation : Prop :=
  ∀ s t : State, s.Sound → s.Protocol → s.violations = Violations.empty → s.UnderDiscipline → step s = .next t →
    t.Sound ∧ t.Protocol ∧ t.violations = Violations.empty

/-- The step lemma of the safety property of 20_memory.md R82: from every state that meets I1 to I5 and has recorded
nothing but PV_EARLY_END, a disciplined step leads to such a state, and in it no pixel about to be written lies in the
region in flight. -/
def Obligations.DisciplinedStepKeepsTheRegionInFlightApart : Prop :=
  ∀ s t : State, s.Protocol → s.cleanButEarlyEnd → s.disciplined = true → step s = .next t →
    t.Protocol ∧ t.cleanButEarlyEnd ∧ ∀ p, t.compute = .pixel p → t.txRegion ≠ some t.inactive

/-- ENCODE_PIXEL writes bit pair 0 first: the byte at offset 12p + 11, then down to 12p (41_bit_encoder.md R133). An
engine step that falls after the first `m + 1` writes sends the new byte where one of these was made and the old byte
elsewhere, the region written being the one in flight (20_memory.md R71, R75 e; log entry 13 says how the engine step is
planned). -/
def Obligations.EncodePixelWritesItsHighestByteFirst : Prop :=
  ∀ (s : State) (pix : Nat) (packed : Word24) (m : Nat), s.configFault = false → s.producerTaken = true →
    12 * pix + 11 < s.bufLen → m < 12 → s.inside = List.replicate m 0 ++ [1] → s.txRegion = some s.inactive →
    s.txNext < s.txLen.toNat → s.txNext < s.bufLen →
    ∃ t, exec (.encodePixel pix packed) s = .next t ∧ t.txNext = s.txNext + 1 ∧ t.txRegion = s.txRegion ∧
      t.history = s.history ++ [.txByte s.txNext
        (if 12 * pix + (11 - m) ≤ s.txNext ∧ s.txNext ≤ 12 * pix + 11 then
          (encodePixel s.par.pairD0IsLowBit packed).getD (s.txNext - 12 * pix) 0
        else s.readByte s.inactive s.txNext)]
end

