-- ==== Sys2Proof/Laws/Memory.lean ====
section
/-! SUPPORT. One region's memory: a read after a write, and the canonical form kept by every operation. -/

namespace Sys2Proof.Machine

@[simp] theorem Memory.read_empty (a : Nat) : Memory.empty.read a = none := rfl

theorem Memory.lookup_store_same (cs : List Host.Cell) (a : Nat) (b : Byte) :
    Memory.lookup (Memory.store cs a b) a = some b := by
  induction cs with
  | nil => simp [Memory.store, Memory.lookup]
  | cons c rest ih =>
    obtain ⟨k, x⟩ := c
    simp only [Memory.store]
    split
    · simp [Memory.lookup]
    · split
      · simp [Memory.lookup]
      · have : k ≠ a := by omega
        simp [Memory.lookup, this, ih]

theorem Memory.lookup_store_other (cs : List Host.Cell) (a a' : Nat) (b : Byte) (h : a' ≠ a) :
    Memory.lookup (Memory.store cs a b) a' = Memory.lookup cs a' := by
  induction cs with
  | nil => simp [Memory.store, Memory.lookup, h.symm]
  | cons c rest ih =>
    obtain ⟨k, x⟩ := c
    simp only [Memory.store]
    split
    · simp [Memory.lookup, h.symm]
    · split
      · subst_vars
        simp [Memory.lookup, h.symm]
      · simp [Memory.lookup, ih]

/-- A byte written is read back. -/
@[simp] theorem Memory.read_write_same (m : Memory) (a : Nat) (b : Byte) : (m.write a b).read a = some b :=
  Memory.lookup_store_same m.cells a b

/-- A write leaves every other offset alone. -/
theorem Memory.read_write_other (m : Memory) (a a' : Nat) (b : Byte) (h : a' ≠ a) :
    (m.write a b).read a' = m.read a' :=
  Memory.lookup_store_other m.cells a a' b h

theorem Memory.mem_store (cs : List Host.Cell) (a : Nat) (b : Byte) (c : Host.Cell)
    (h : c ∈ Memory.store cs a b) : c = (a, b) ∨ c ∈ cs := by
  induction cs with
  | nil => simpa [Memory.store] using h
  | cons d rest ih =>
    obtain ⟨k, x⟩ := d
    simp only [Memory.store] at h
    split at h
    · simpa using h
    · split at h
      · rcases List.mem_cons.mp h with h | h
        · exact .inl h
        · exact .inr (List.mem_cons_of_mem _ h)
      · rcases List.mem_cons.mp h with h | h
        · exact .inr (by simp [h])
        · rcases ih h with h | h
          · exact .inl h
          · exact .inr (List.mem_cons_of_mem _ h)

/-- A write keeps the offsets strictly rising. -/
theorem Memory.wf_write (m : Memory) (a : Nat) (b : Byte) (h : m.wf) : (m.write a b).wf := by
  obtain ⟨cs⟩ := m
  show (Memory.store cs a b).Pairwise _
  replace h : cs.Pairwise (fun x y => x.1 < y.1) := h
  induction cs with
  | nil => simp [Memory.store]
  | cons c rest ih =>
    obtain ⟨k, x⟩ := c
    obtain ⟨hk, hr⟩ := List.pairwise_cons.mp h
    simp only [Memory.store]
    split
    · rename_i hlt
      refine List.pairwise_cons.mpr ⟨fun y hy => ?_, h⟩
      rcases List.mem_cons.mp hy with rfl | hy
      · exact hlt
      · exact Nat.lt_trans hlt (hk y hy)
    · split
      · rename_i heq
        subst heq
        exact List.pairwise_cons.mpr ⟨hk, hr⟩
      · refine List.pairwise_cons.mpr ⟨fun y hy => ?_, ih hr⟩
        rcases Memory.mem_store rest a b y hy with rfl | hy
        · show k < a
          omega
        · exact hk y hy

/-- A write inside the region keeps every listed offset inside it. -/
theorem Memory.within_write (m : Memory) (n a : Nat) (b : Byte) (h : m.within n) (ha : a < n) :
    (m.write a b).within n := by
  intro c hc
  rcases Memory.mem_store m.cells a b c hc with rfl | hc
  · exact ha
  · exact h c hc

@[simp] theorem Memory.wf_empty : Memory.empty.wf := List.Pairwise.nil

@[simp] theorem Memory.within_empty (n : Nat) : Memory.empty.within n := by simp [Memory.empty]

/-- A fold of writes keeps the canonical form and the bound. -/
theorem Memory.foldl_write_wf (ps : List (Byte × Nat)) (n : Nat) (hn : ∀ p ∈ ps, p.2 < n) (m : Memory) (h : m.wf)
    (hw : m.within n) :
    (ps.foldl (fun m p => m.write p.2 p.1) m).wf ∧ (ps.foldl (fun m p => m.write p.2 p.1) m).within n := by
  induction ps generalizing m with
  | nil => exact ⟨h, hw⟩
  | cons p ps ih =>
    exact ih (fun q hq => hn q (List.mem_cons_of_mem _ hq)) _ (m.wf_write _ _ h)
      (m.within_write _ _ _ hw (hn p (List.mem_cons_self ..)))

/-- A region whose content is given at reset is canonical and inside its capacity. -/
theorem Memory.ofBytes_wf (bytes : List Byte) (n : Nat) :
    (Memory.ofBytes bytes n).wf ∧ (Memory.ofBytes bytes n).within n := by
  refine Memory.foldl_write_wf _ n (fun p hp => ?_) _ Memory.wf_empty (Memory.within_empty n)
  obtain ⟨i, hi, rfl⟩ := List.mem_iff_getElem.mp hp
  simp at hi ⊢
  omega

/-- Writes at rising offsets, read back. -/
theorem Memory.foldl_write_read (bs : List Byte) (m : Memory) (k off : Nat) :
    ((bs.zipIdx k).foldl (fun m p => m.write p.2 p.1) m).read off =
      if k ≤ off ∧ off < k + bs.length then bs[off - k]? else m.read off := by
  induction bs generalizing m k with
  | nil =>
    rw [if_neg (by simp)]
    rfl
  | cons b bs ih =>
    rw [List.zipIdx_cons, List.foldl_cons, ih]
    by_cases h1 : k = off
    · subst h1
      rw [if_neg (by omega), if_pos (by simp)]
      simp
    · rw [Memory.read_write_other _ _ _ _ (Ne.symm h1)]
      by_cases h2 : k + 1 ≤ off ∧ off < k + 1 + bs.length
      · rw [if_pos h2, if_pos (by simp; omega), show off - k = (off - (k + 1)) + 1 by omega]
        simp
      · rw [if_neg h2, if_neg (by simp; omega)]

/-- The bytes given at reset are read at their offsets. -/
theorem Memory.ofBytes_read (bytes : List Byte) (n off : Nat) :
    (Memory.ofBytes bytes n).read off = if off < n then bytes[off]? else none := by
  have h := Memory.foldl_write_read (bytes.take n) Memory.empty 0 off
  simp only [Memory.ofBytes]
  rw [h]
  by_cases h1 : off < n
  · by_cases h2 : off < bytes.length
    · simp [h1, h2]
    · simp [h2]
  · simp [h1]

end Sys2Proof.Machine
end

