-- ==== Sys2Proof/Laws/State.lean ====
section
/-! SUPPORT. The fields of a state after each plain update, true by definition, so that no later proof unfolds one. -/

namespace Sys2Proof.Machine

/-! ## State.answer -/

@[simp] theorem answer_par (s : State) (st : Status) (d : Word32) : (s.answer st d).par = s.par := rfl
@[simp] theorem answer_epoch (s : State) (st : Status) (d : Word32) : (s.answer st d).epoch = s.epoch := rfl
@[simp] theorem answer_stripId (s : State) (st : Status) (d : Word32) : (s.answer st d).stripId = s.stripId := rfl
@[simp] theorem answer_stripLength (s : State) (st : Status) (d : Word32) : (s.answer st d).stripLength = s.stripLength := rfl
@[simp] theorem answer_brightness (s : State) (st : Status) (d : Word32) : (s.answer st d).brightness = s.brightness := rfl
@[simp] theorem answer_srcKind (s : State) (st : Status) (d : Word32) : (s.answer st d).srcKind = s.srcKind := rfl
@[simp] theorem answer_staticColor (s : State) (st : Status) (d : Word32) : (s.answer st d).staticColor = s.staticColor := rfl
@[simp] theorem answer_frameNumber (s : State) (st : Status) (d : Word32) : (s.answer st d).frameNumber = s.frameNumber := rfl
@[simp] theorem answer_frameRequested (s : State) (st : Status) (d : Word32) : (s.answer st d).frameRequested = s.frameRequested := rfl
@[simp] theorem answer_lastFrameCalculated (s : State) (st : Status) (d : Word32) : (s.answer st d).lastFrameCalculated = s.lastFrameCalculated := rfl
@[simp] theorem answer_lastFrameShown (s : State) (st : Status) (d : Word32) : (s.answer st d).lastFrameShown = s.lastFrameShown := rfl
@[simp] theorem answer_swapRequested (s : State) (st : Status) (d : Word32) : (s.answer st d).swapRequested = s.swapRequested := rfl
@[simp] theorem answer_activeIs1 (s : State) (st : Status) (d : Word32) : (s.answer st d).activeIs1 = s.activeIs1 := rfl
@[simp] theorem answer_swapPending (s : State) (st : Status) (d : Word32) : (s.answer st d).swapPending = s.swapPending := rfl
@[simp] theorem answer_producerTaken (s : State) (st : Status) (d : Word32) : (s.answer st d).producerTaken = s.producerTaken := rfl
@[simp] theorem answer_consumerTaken (s : State) (st : Status) (d : Word32) : (s.answer st d).consumerTaken = s.consumerTaken := rfl
@[simp] theorem answer_configFault (s : State) (st : Status) (d : Word32) : (s.answer st d).configFault = s.configFault := rfl
@[simp] theorem answer_buffer1 (s : State) (st : Status) (d : Word32) : (s.answer st d).buffer1 = s.buffer1 := rfl
@[simp] theorem answer_buffer2 (s : State) (st : Status) (d : Word32) : (s.answer st d).buffer2 = s.buffer2 := rfl
@[simp] theorem answer_txRegion (s : State) (st : Status) (d : Word32) : (s.answer st d).txRegion = s.txRegion := rfl
@[simp] theorem answer_txLen (s : State) (st : Status) (d : Word32) : (s.answer st d).txLen = s.txLen := rfl
@[simp] theorem answer_txNext (s : State) (st : Status) (d : Word32) : (s.answer st d).txNext = s.txNext := rfl
@[simp] theorem answer_started (s : State) (st : Status) (d : Word32) : (s.answer st d).started = s.started := rfl
@[simp] theorem answer_violations (s : State) (st : Status) (d : Word32) : (s.answer st d).violations = s.violations := rfl
@[simp] theorem answer_compute (s : State) (st : Status) (d : Word32) : (s.answer st d).compute = s.compute := rfl
@[simp] theorem answer_response (s : State) (st : Status) (d : Word32) : (s.answer st d).response = some ⟨st, d⟩ := rfl
@[simp] theorem answer_history (s : State) (st : Status) (d : Word32) : (s.answer st d).history = s.history := rfl
@[simp] theorem answer_inputs (s : State) (st : Status) (d : Word32) : (s.answer st d).inputs = s.inputs := rfl
@[simp] theorem answer_inside (s : State) (st : Status) (d : Word32) : (s.answer st d).inside = s.inside := rfl
@[simp] theorem answer_freeCount (s : State) (st : Status) (d : Word32) : (s.answer st d).freeCount = s.freeCount := rfl

/-! ## State.log -/

@[simp] theorem log_par (s : State) (e : Event) : (s.log e).par = s.par := rfl
@[simp] theorem log_epoch (s : State) (e : Event) : (s.log e).epoch = s.epoch := rfl
@[simp] theorem log_stripId (s : State) (e : Event) : (s.log e).stripId = s.stripId := rfl
@[simp] theorem log_stripLength (s : State) (e : Event) : (s.log e).stripLength = s.stripLength := rfl
@[simp] theorem log_brightness (s : State) (e : Event) : (s.log e).brightness = s.brightness := rfl
@[simp] theorem log_srcKind (s : State) (e : Event) : (s.log e).srcKind = s.srcKind := rfl
@[simp] theorem log_staticColor (s : State) (e : Event) : (s.log e).staticColor = s.staticColor := rfl
@[simp] theorem log_frameNumber (s : State) (e : Event) : (s.log e).frameNumber = s.frameNumber := rfl
@[simp] theorem log_frameRequested (s : State) (e : Event) : (s.log e).frameRequested = s.frameRequested := rfl
@[simp] theorem log_lastFrameCalculated (s : State) (e : Event) : (s.log e).lastFrameCalculated = s.lastFrameCalculated := rfl
@[simp] theorem log_lastFrameShown (s : State) (e : Event) : (s.log e).lastFrameShown = s.lastFrameShown := rfl
@[simp] theorem log_swapRequested (s : State) (e : Event) : (s.log e).swapRequested = s.swapRequested := rfl
@[simp] theorem log_activeIs1 (s : State) (e : Event) : (s.log e).activeIs1 = s.activeIs1 := rfl
@[simp] theorem log_swapPending (s : State) (e : Event) : (s.log e).swapPending = s.swapPending := rfl
@[simp] theorem log_producerTaken (s : State) (e : Event) : (s.log e).producerTaken = s.producerTaken := rfl
@[simp] theorem log_consumerTaken (s : State) (e : Event) : (s.log e).consumerTaken = s.consumerTaken := rfl
@[simp] theorem log_configFault (s : State) (e : Event) : (s.log e).configFault = s.configFault := rfl
@[simp] theorem log_buffer1 (s : State) (e : Event) : (s.log e).buffer1 = s.buffer1 := rfl
@[simp] theorem log_buffer2 (s : State) (e : Event) : (s.log e).buffer2 = s.buffer2 := rfl
@[simp] theorem log_txRegion (s : State) (e : Event) : (s.log e).txRegion = s.txRegion := rfl
@[simp] theorem log_txLen (s : State) (e : Event) : (s.log e).txLen = s.txLen := rfl
@[simp] theorem log_txNext (s : State) (e : Event) : (s.log e).txNext = s.txNext := rfl
@[simp] theorem log_started (s : State) (e : Event) : (s.log e).started = s.started := rfl
@[simp] theorem log_violations (s : State) (e : Event) : (s.log e).violations = s.violations := rfl
@[simp] theorem log_compute (s : State) (e : Event) : (s.log e).compute = s.compute := rfl
@[simp] theorem log_response (s : State) (e : Event) : (s.log e).response = s.response := rfl
@[simp] theorem log_history (s : State) (e : Event) : (s.log e).history = s.history ++ [e] := rfl
@[simp] theorem log_inputs (s : State) (e : Event) : (s.log e).inputs = s.inputs := rfl
@[simp] theorem log_inside (s : State) (e : Event) : (s.log e).inside = s.inside := rfl
@[simp] theorem log_freeCount (s : State) (e : Event) : (s.log e).freeCount = s.freeCount := rfl

/-! ## State.violate -/

@[simp] theorem violate_par (s : State) (v : Violation) : (s.violate v).par = s.par := rfl
@[simp] theorem violate_epoch (s : State) (v : Violation) : (s.violate v).epoch = s.epoch := rfl
@[simp] theorem violate_stripId (s : State) (v : Violation) : (s.violate v).stripId = s.stripId := rfl
@[simp] theorem violate_stripLength (s : State) (v : Violation) : (s.violate v).stripLength = s.stripLength := rfl
@[simp] theorem violate_brightness (s : State) (v : Violation) : (s.violate v).brightness = s.brightness := rfl
@[simp] theorem violate_srcKind (s : State) (v : Violation) : (s.violate v).srcKind = s.srcKind := rfl
@[simp] theorem violate_staticColor (s : State) (v : Violation) : (s.violate v).staticColor = s.staticColor := rfl
@[simp] theorem violate_frameNumber (s : State) (v : Violation) : (s.violate v).frameNumber = s.frameNumber := rfl
@[simp] theorem violate_frameRequested (s : State) (v : Violation) : (s.violate v).frameRequested = s.frameRequested := rfl
@[simp] theorem violate_lastFrameCalculated (s : State) (v : Violation) : (s.violate v).lastFrameCalculated = s.lastFrameCalculated := rfl
@[simp] theorem violate_lastFrameShown (s : State) (v : Violation) : (s.violate v).lastFrameShown = s.lastFrameShown := rfl
@[simp] theorem violate_swapRequested (s : State) (v : Violation) : (s.violate v).swapRequested = s.swapRequested := rfl
@[simp] theorem violate_activeIs1 (s : State) (v : Violation) : (s.violate v).activeIs1 = s.activeIs1 := rfl
@[simp] theorem violate_swapPending (s : State) (v : Violation) : (s.violate v).swapPending = s.swapPending := rfl
@[simp] theorem violate_producerTaken (s : State) (v : Violation) : (s.violate v).producerTaken = s.producerTaken := rfl
@[simp] theorem violate_consumerTaken (s : State) (v : Violation) : (s.violate v).consumerTaken = s.consumerTaken := rfl
@[simp] theorem violate_configFault (s : State) (v : Violation) : (s.violate v).configFault = s.configFault := rfl
@[simp] theorem violate_buffer1 (s : State) (v : Violation) : (s.violate v).buffer1 = s.buffer1 := rfl
@[simp] theorem violate_buffer2 (s : State) (v : Violation) : (s.violate v).buffer2 = s.buffer2 := rfl
@[simp] theorem violate_txRegion (s : State) (v : Violation) : (s.violate v).txRegion = s.txRegion := rfl
@[simp] theorem violate_txLen (s : State) (v : Violation) : (s.violate v).txLen = s.txLen := rfl
@[simp] theorem violate_txNext (s : State) (v : Violation) : (s.violate v).txNext = s.txNext := rfl
@[simp] theorem violate_started (s : State) (v : Violation) : (s.violate v).started = s.started := rfl
@[simp] theorem violate_violations (s : State) (v : Violation) : (s.violate v).violations = s.violations.add v := rfl
@[simp] theorem violate_compute (s : State) (v : Violation) : (s.violate v).compute = s.compute := rfl
@[simp] theorem violate_response (s : State) (v : Violation) : (s.violate v).response = s.response := rfl
@[simp] theorem violate_history (s : State) (v : Violation) : (s.violate v).history = s.history := rfl
@[simp] theorem violate_inputs (s : State) (v : Violation) : (s.violate v).inputs = s.inputs := rfl
@[simp] theorem violate_inside (s : State) (v : Violation) : (s.violate v).inside = s.inside := rfl
@[simp] theorem violate_freeCount (s : State) (v : Violation) : (s.violate v).freeCount = s.freeCount := rfl

/-! ## State.requestSwap -/

@[simp] theorem requestSwap_par (s : State) : (s.requestSwap).par = s.par := rfl
@[simp] theorem requestSwap_epoch (s : State) : (s.requestSwap).epoch = s.epoch := rfl
@[simp] theorem requestSwap_stripId (s : State) : (s.requestSwap).stripId = s.stripId := rfl
@[simp] theorem requestSwap_stripLength (s : State) : (s.requestSwap).stripLength = s.stripLength := rfl
@[simp] theorem requestSwap_brightness (s : State) : (s.requestSwap).brightness = s.brightness := rfl
@[simp] theorem requestSwap_srcKind (s : State) : (s.requestSwap).srcKind = s.srcKind := rfl
@[simp] theorem requestSwap_staticColor (s : State) : (s.requestSwap).staticColor = s.staticColor := rfl
@[simp] theorem requestSwap_frameNumber (s : State) : (s.requestSwap).frameNumber = s.frameNumber := rfl
@[simp] theorem requestSwap_frameRequested (s : State) : (s.requestSwap).frameRequested = s.frameRequested := rfl
@[simp] theorem requestSwap_lastFrameCalculated (s : State) : (s.requestSwap).lastFrameCalculated = s.lastFrameCalculated := rfl
@[simp] theorem requestSwap_lastFrameShown (s : State) : (s.requestSwap).lastFrameShown = s.lastFrameShown := rfl
@[simp] theorem requestSwap_swapRequested (s : State) : (s.requestSwap).swapRequested = true := rfl
@[simp] theorem requestSwap_activeIs1 (s : State) : (s.requestSwap).activeIs1 = s.activeIs1 := rfl
@[simp] theorem requestSwap_swapPending (s : State) : (s.requestSwap).swapPending = true := rfl
@[simp] theorem requestSwap_producerTaken (s : State) : (s.requestSwap).producerTaken = s.producerTaken := rfl
@[simp] theorem requestSwap_consumerTaken (s : State) : (s.requestSwap).consumerTaken = s.consumerTaken := rfl
@[simp] theorem requestSwap_configFault (s : State) : (s.requestSwap).configFault = s.configFault := rfl
@[simp] theorem requestSwap_buffer1 (s : State) : (s.requestSwap).buffer1 = s.buffer1 := rfl
@[simp] theorem requestSwap_buffer2 (s : State) : (s.requestSwap).buffer2 = s.buffer2 := rfl
@[simp] theorem requestSwap_txRegion (s : State) : (s.requestSwap).txRegion = s.txRegion := rfl
@[simp] theorem requestSwap_txLen (s : State) : (s.requestSwap).txLen = s.txLen := rfl
@[simp] theorem requestSwap_txNext (s : State) : (s.requestSwap).txNext = s.txNext := rfl
@[simp] theorem requestSwap_started (s : State) : (s.requestSwap).started = s.started := rfl
@[simp] theorem requestSwap_violations (s : State) : (s.requestSwap).violations = s.violations := rfl
@[simp] theorem requestSwap_compute (s : State) : (s.requestSwap).compute = s.compute := rfl
@[simp] theorem requestSwap_response (s : State) : (s.requestSwap).response = s.response := rfl
@[simp] theorem requestSwap_history (s : State) : (s.requestSwap).history = s.history := rfl
@[simp] theorem requestSwap_inputs (s : State) : (s.requestSwap).inputs = s.inputs := rfl
@[simp] theorem requestSwap_inside (s : State) : (s.requestSwap).inside = s.inside := rfl
@[simp] theorem requestSwap_freeCount (s : State) : (s.requestSwap).freeCount = s.freeCount := rfl

/-! ## State.settle -/

@[simp] theorem settle_par (s : State) : (s.settle).par = s.par := rfl
@[simp] theorem settle_epoch (s : State) : (s.settle).epoch = s.epoch := rfl
@[simp] theorem settle_stripId (s : State) : (s.settle).stripId = s.stripId := rfl
@[simp] theorem settle_stripLength (s : State) : (s.settle).stripLength = s.stripLength := rfl
@[simp] theorem settle_brightness (s : State) : (s.settle).brightness = s.brightness := rfl
@[simp] theorem settle_srcKind (s : State) : (s.settle).srcKind = s.srcKind := rfl
@[simp] theorem settle_staticColor (s : State) : (s.settle).staticColor = s.staticColor := rfl
@[simp] theorem settle_frameNumber (s : State) : (s.settle).frameNumber = s.frameNumber := rfl
@[simp] theorem settle_frameRequested (s : State) : (s.settle).frameRequested = s.frameRequested := rfl
@[simp] theorem settle_lastFrameCalculated (s : State) : (s.settle).lastFrameCalculated = s.lastFrameCalculated := rfl
@[simp] theorem settle_lastFrameShown (s : State) : (s.settle).lastFrameShown = s.lastFrameShown := rfl
@[simp] theorem settle_swapRequested (s : State) : (s.settle).swapRequested = s.swapRequested := rfl
@[simp] theorem settle_activeIs1 (s : State) : (s.settle).activeIs1 = s.activeIs1 := rfl
@[simp] theorem settle_swapPending (s : State) : (s.settle).swapPending = s.swapPending := rfl
@[simp] theorem settle_producerTaken (s : State) : (s.settle).producerTaken = s.producerTaken := rfl
@[simp] theorem settle_consumerTaken (s : State) : (s.settle).consumerTaken = s.consumerTaken := rfl
@[simp] theorem settle_configFault (s : State) : (s.settle).configFault = s.configFault := rfl
@[simp] theorem settle_buffer1 (s : State) : (s.settle).buffer1 = s.buffer1 := rfl
@[simp] theorem settle_buffer2 (s : State) : (s.settle).buffer2 = s.buffer2 := rfl
@[simp] theorem settle_txRegion (s : State) : (s.settle).txRegion = s.txRegion := rfl
@[simp] theorem settle_txLen (s : State) : (s.settle).txLen = s.txLen := rfl
@[simp] theorem settle_txNext (s : State) : (s.settle).txNext = s.txNext := rfl
@[simp] theorem settle_started (s : State) : (s.settle).started = s.started := rfl
@[simp] theorem settle_violations (s : State) : (s.settle).violations = s.violations := rfl
@[simp] theorem settle_compute (s : State) : (s.settle).compute = s.compute := rfl
@[simp] theorem settle_response (s : State) : (s.settle).response = s.response := rfl
@[simp] theorem settle_history (s : State) : (s.settle).history = s.history := rfl
@[simp] theorem settle_inputs (s : State) : (s.settle).inputs = s.inputs := rfl
@[simp] theorem settle_inside (s : State) : (s.settle).inside = [] := rfl
@[simp] theorem settle_freeCount (s : State) : (s.settle).freeCount = s.freeCount := rfl

end Sys2Proof.Machine
end

