-- ==== Sys2Proof/Laws/Ops.lean ====
section
/-! SUPPORT. What each shared operation can do, said once: later proofs cite these and never unfold the operation. -/

namespace Sys2Proof.Machine

/-! ## Outcomes -/

@[simp] theorem andThen_next (s : State) (f : State → Result) : andThen (.next s) f = f s := rfl
@[simp] theorem andThen_fault (r : Fault) (f : State → Result) : andThen (.fault r) f = .fault r := rfl
@[simp] theorem andThen_refused (r : Refusal) (f : State → Result) : andThen (.refused r) f = .refused r := rfl

/-- Going on answers a next state exactly when both parts do. -/
theorem andThen_eq_next {o : Result} {f : State → Result} {t : State} (h : andThen o f = .next t) :
    ∃ s, o = .next s ∧ f s = .next t := by
  cases o with
  | next s => exact ⟨s, rfl, h⟩
  | fault r => cases h
  | refused r => cases h

/-- The common checks 1 and 3: a refusal that changes nothing, or the body (60_exceptions.md R264). -/
theorem checked_cases (cls : CmdClass) (s : State) (body : State → Result) :
    (s.configFault = true ∧ checked cls s body = raise s .configFatal) ∨
    (s.configFault = false ∧ s.granted cls = false ∧ checked cls s body = raise s .notOwner) ∨
    (s.configFault = false ∧ s.granted cls = true ∧ checked cls s body = body s) := by
  cases hf : s.configFault
  · cases hg : s.granted cls
    · exact .inr (.inl ⟨rfl, rfl, by simp [checked, hf, hg]⟩)
    · exact .inr (.inr ⟨rfl, rfl, by simp [checked, hf, hg]⟩)
  · exact .inl ⟨rfl, by simp [checked, hf]⟩

theorem checked_pass {cls : CmdClass} {s : State} {body : State → Result} (hf : s.configFault = false)
    (hg : s.granted cls = true) : checked cls s body = body s := by simp [checked, hf, hg]

theorem checked_fault {cls : CmdClass} {s : State} {body : State → Result} (hf : s.configFault = true) :
    checked cls s body = raise s .configFatal := by simp [checked, hf]

theorem checked_unowned {cls : CmdClass} {s : State} {body : State → Result} (hf : s.configFault = false)
    (hg : s.granted cls = false) : checked cls s body = raise s .notOwner := by simp [checked, hf, hg]

@[simp] theorem granted_host (s : State) : s.granted .host = true := rfl
@[simp] theorem granted_producer (s : State) : s.granted .producer = s.producerTaken := rfl
@[simp] theorem granted_consumer (s : State) : s.granted .consumer = s.consumerTaken := rfl

/-! ## Updates as one record -/

theorem violateIf_eq (s : State) (c : Bool) (v : Violation) :
    s.violateIf c v = { s with violations := if c then s.violations.add v else s.violations } := by
  cases c <;> rfl

/-- A violation recorded under a condition, as one record. -/
theorem add_writeWhileBusy_if (vs : Violations) (p : Prop) [Decidable p] :
    (if p then vs.add .writeWhileBusy else vs) = { vs with writeWhileBusy := vs.writeWhileBusy || decide p } := by
  by_cases h : p <;> simp [h, Violations.add]

theorem commitSwap_eq (s : State) :
    s.commitSwap = { s with
      violations := if s.swapPending && s.txRegion.isSome then s.violations.add .startWhileBusy else s.violations
      activeIs1 := s.activeIs1 ^^ s.swapPending
      swapPending := false } := by
  unfold State.commitSwap
  rw [violateIf_eq]
  cases h : s.swapPending <;> cases s <;> simp_all

theorem trySwap_eq (s : State) :
    s.trySwap = { s with
      violations := if s.swapPending && s.txRegion.isSome then s.violations.add .startWhileBusy else s.violations
      activeIs1 := s.activeIs1 ^^ s.swapPending
      swapPending := false
      swapRequested := s.swapRequested && !s.swapPending
      started := s.started || s.swapPending
      frameRequested := s.frameRequested || s.swapPending } := by
  unfold State.trySwap
  rw [commitSwap_eq]
  cases h : s.swapPending <;> cases s <;> simp_all

theorem graceCheck_eq (s : State) :
    s.graceCheck = { s with lastFrameShown := s.lastFrameShown || s.lastFrameCalculated } := by
  unfold State.graceCheck
  cases h : s.lastFrameShown <;> cases h2 : s.lastFrameCalculated <;> cases s <;> simp_all

theorem startTransfer_eq (s : State) :
    s.startTransfer = { s with
      violations := if s.txRegion.isSome then s.violations.add .startWhileBusy else s.violations
      history := s.history ++ [.transfer s.active s.byteCount]
      txRegion := some s.active
      txLen := s.byteCount
      txNext := 0 } := by
  unfold State.startTransfer
  rw [violateIf_eq]
  rfl

/-! ## Bytes -/

/-- A read looks at the listed byte of the region, then at the free value. -/
theorem readByte_def (s : State) (r : Region) (off : Nat) :
    s.readByte r off = ((s.region r).read off).getD (Config.bufReset s.epoch r off) := by
  unfold State.readByte
  cases (s.region r).read off <;> rfl

/-- Reads depend on the regions and the channel life alone. -/
theorem readByte_congr {s t : State} (h1 : t.buffer1 = s.buffer1) (h2 : t.buffer2 = s.buffer2) (he : t.epoch = s.epoch)
    (r : Region) (off : Nat) : t.readByte r off = s.readByte r off := by
  cases r <;> simp [readByte_def, State.region, h1, h2, he]

theorem active_ne_inactive (s : State) : s.active ≠ s.inactive := by
  unfold State.active State.inactive
  cases s.activeIs1 <;> simp

theorem region_eq_or (s : State) (r : Region) : r = s.active ∨ r = s.inactive := by
  unfold State.active State.inactive
  cases s.activeIs1 <;> cases r <;> simp

theorem eq_inactive_of_ne_active {s : State} {r : Region} (h : r ≠ s.active) : r = s.inactive :=
  (region_eq_or s r).resolve_left h

/-- A byte write changes the one region's listed bytes. -/
theorem putByte_eq (s : State) (off : Nat) (b : Byte) :
    s.putByte off b = { s with
      buffer1 := if s.activeIs1 then s.buffer1 else s.buffer1.write off b
      buffer2 := if s.activeIs1 then s.buffer2.write off b else s.buffer2
      violations := if s.txRegion = some s.inactive then s.violations.add .writeWhileBusy else s.violations } := by
  unfold State.putByte
  rw [violateIf_eq]
  unfold State.writeByte State.inactive
  cases s.activeIs1 <;> simp

theorem putByte_read_same (s : State) (off : Nat) (b : Byte) : (s.putByte off b).readByte s.inactive off = b := by
  rw [putByte_eq]
  unfold State.inactive
  cases h : s.activeIs1 <;> simp [readByte_def, State.region]

theorem putByte_read_other (s : State) (off off' : Nat) (b : Byte) (r : Region) (h : ¬(r = s.inactive ∧ off' = off)) :
    (s.putByte off b).readByte r off' = s.readByte r off' := by
  rw [putByte_eq]
  unfold State.inactive at h
  cases h1 : s.activeIs1 <;> cases r <;> simp_all [readByte_def, State.region, Memory.read_write_other]

/-! ## The transfer engine -/

/-- The events a stretch of steps adds to the history. -/
theorem newEvents {s t : State} {es : List Event} (h : t.history = s.history ++ es) :
    t.history.drop s.history.length = es := by rw [h, List.drop_left]

/-- What the engine can change: the region in flight (only to none), its position, the history. -/
structure EngineFrame (s t : State) : Prop where
  same : t = { s with txRegion := t.txRegion, txNext := t.txNext, history := t.history, inside := t.inside }
  region : t.txRegion = s.txRegion ∨ t.txRegion = none
  next : s.txNext ≤ s.txLen.toNat → t.txNext ≤ t.txLen.toNat
  history : ∃ es : List Event, t.history = s.history ++ es ∧ es.countP Event.isTransfer = 0
  sent : ∀ k v, Event.txByte k v ∈ t.history.drop s.history.length → ∃ r, s.txRegion = some r ∧ v = s.readByte r k

theorem EngineFrame.readByte {s t : State} (h : EngineFrame s t) (r : Region) (off : Nat) :
    t.readByte r off = s.readByte r off := by
  rw [h.same]
  exact readByte_congr rfl rfl rfl r off

theorem EngineFrame.refl (s : State) : EngineFrame s s :=
  ⟨rfl, .inl rfl, id, ⟨[], by simp, rfl⟩, by simp⟩

theorem EngineFrame.trans {s t u : State} (h1 : EngineFrame s t) (h2 : EngineFrame t u) : EngineFrame s u where
  same := by rw [h2.same, h1.same]
  region := by
    rcases h2.region with h | h
    · rw [h]; exact h1.region
    · exact .inr h
  next := fun h => h2.next (h1.next h)
  history := by
    obtain ⟨es1, e1, c1⟩ := h1.history
    obtain ⟨es2, e2, c2⟩ := h2.history
    exact ⟨es1 ++ es2, by rw [e2, e1, List.append_assoc], by rw [List.countP_append, c1, c2]⟩
  sent := fun k v hm => by
    obtain ⟨es1, e1, _⟩ := h1.history
    obtain ⟨es2, e2, _⟩ := h2.history
    rw [newEvents (es := es1 ++ es2) (by rw [e2, e1, List.append_assoc])] at hm
    rcases List.mem_append.mp hm with hm | hm
    · exact h1.sent k v (by rw [newEvents e1]; exact hm)
    · obtain ⟨r, hr, hv⟩ := h2.sent k v (by rw [newEvents e2]; exact hm)
      rcases h1.region with e | e <;> rw [e] at hr
      · exact ⟨r, hr, by rw [hv, h1.readByte]⟩
      · cases hr

theorem engineStep_frame (s : State) : EngineFrame s s.engineStep := by
  unfold State.engineStep
  split
  · exact EngineFrame.refl s
  · rename_i r hr
    split
    · split
      · refine ⟨rfl, .inl rfl, fun _ => by simp [State.txRead]; omega, ⟨_, rfl, rfl⟩, fun k v hm => ⟨r, hr, ?_⟩⟩
        rw [newEvents (s := s) (t := s.txRead r) rfl] at hm
        simp only [List.mem_singleton, Event.txByte.injEq] at hm
        rw [hm.1, hm.2]
      · exact EngineFrame.refl s
    · refine ⟨rfl, .inr rfl, id, ⟨_, rfl, rfl⟩, fun k v hm => ?_⟩
      rw [newEvents (s := s) (t := s.txFinish) rfl] at hm
      simp at hm

theorem engineRun_frame (n : Nat) (s : State) : EngineFrame s (State.engineRun n s) := by
  induction n generalizing s with
  | zero => exact EngineFrame.refl s
  | succ n ih => exact (engineStep_frame s).trans (ih s.engineStep)

theorem engineBetween_frame (s : State) : EngineFrame s s.engineBetween := by
  unfold State.engineBetween
  split
  · exact EngineFrame.refl s
  · rename_i n rest _
    have h : EngineFrame s { s with inside := rest } := ⟨rfl, .inl rfl, id, ⟨[], by simp, rfl⟩, by simp⟩
    exact h.trans (engineRun_frame n _)

@[simp] theorem engineBetween_nil (s : State) (h : s.inside = []) : s.engineBetween = s := by
  unfold State.engineBetween
  rw [h]

/-! ## Runs of byte writes -/

/-- What a run of byte writes into the inactive region can change. -/
structure PutFrame (s t : State) : Prop where
  same : t = { s with
    buffer1 := t.buffer1, buffer2 := t.buffer2, violations := t.violations, txRegion := t.txRegion
    txNext := t.txNext, history := t.history, inside := t.inside, freeCount := t.freeCount }
  active : t.region s.active = s.region s.active
  canonical : (s.region s.inactive).wf → (t.region s.inactive).wf
  violations : t.violations = s.violations ∨ t.violations = s.violations.add .writeWhileBusy
  quiet : s.txRegion ≠ some s.inactive → t.violations = s.violations
  region : t.txRegion = s.txRegion ∨ t.txRegion = none
  next : s.txNext ≤ s.txLen.toNat → t.txNext ≤ t.txLen.toNat
  history : ∃ es : List Event, t.history = s.history ++ es ∧ es.countP Event.isTransfer = 0
  sent : s.txRegion ≠ some s.inactive →
    ∀ k v, Event.txByte k v ∈ t.history.drop s.history.length → v = s.readByte s.active k
  calm : s.inside = [] → t.txRegion = s.txRegion ∧ t.txNext = s.txNext ∧ t.history = s.history ∧ t.inside = []

theorem Violations.add_add (vs : Violations) (v : Violation) : (vs.add v).add v = vs.add v := by cases v <;> rfl

theorem PutFrame.refl (s : State) : PutFrame s s :=
  ⟨rfl, rfl, id, .inl rfl, fun _ => rfl, .inl rfl, id, ⟨[], by simp, rfl⟩, by simp, fun h => ⟨rfl, rfl, rfl, h⟩⟩

theorem PutFrame.active_eq {s t : State} (h : PutFrame s t) : t.active = s.active := by rw [h.same]; rfl

theorem PutFrame.inactive_eq {s t : State} (h : PutFrame s t) : t.inactive = s.inactive := by rw [h.same]; rfl

theorem PutFrame.readByte_active {s t : State} (h : PutFrame s t) (off : Nat) :
    t.readByte s.active off = s.readByte s.active off := by
  rw [readByte_def, readByte_def, h.active, h.same]

/-- Where the region in flight is not the one written, it still is not. -/
theorem PutFrame.quiet_next {s t : State} (h : PutFrame s t) (hq : s.txRegion ≠ some s.inactive) :
    t.txRegion ≠ some t.inactive := by
  rw [h.inactive_eq]
  rcases h.region with e | e <;> rw [e]
  · exact hq
  · simp

theorem PutFrame.trans {s t u : State} (h1 : PutFrame s t) (h2 : PutFrame t u) : PutFrame s u where
  same := by rw [h2.same, h1.same]
  active := by
    have := h2.active
    rw [h1.active_eq] at this
    rw [this, h1.active]
  canonical := fun h => by
    have := h2.canonical
    rw [h1.inactive_eq] at this
    exact this (h1.canonical h)
  violations := by
    rcases h1.violations with e1 | e1 <;> rcases h2.violations with e2 | e2 <;> rw [e2, e1]
    · exact .inl rfl
    · exact .inr rfl
    · exact .inr rfl
    · exact .inr (Violations.add_add _ _)
  quiet := fun h => by
    rw [h2.quiet (h1.quiet_next h), h1.quiet h]
  region := by
    rcases h2.region with h | h
    · rw [h]; exact h1.region
    · exact .inr h
  next := fun h => h2.next (h1.next h)
  history := by
    obtain ⟨es1, e1, c1⟩ := h1.history
    obtain ⟨es2, e2, c2⟩ := h2.history
    exact ⟨es1 ++ es2, by rw [e2, e1, List.append_assoc], by rw [List.countP_append, c1, c2]⟩
  sent := fun hq k v hm => by
    obtain ⟨es1, e1, _⟩ := h1.history
    obtain ⟨es2, e2, _⟩ := h2.history
    rw [newEvents (es := es1 ++ es2) (by rw [e2, e1, List.append_assoc])] at hm
    rcases List.mem_append.mp hm with hm | hm
    · exact h1.sent hq k v (by rw [newEvents e1]; exact hm)
    · rw [h2.sent (h1.quiet_next hq) k v (by rw [newEvents e2]; exact hm), h1.active_eq, h1.readByte_active]
  calm := fun h => by
    obtain ⟨a1, a2, a3, a4⟩ := h1.calm h
    obtain ⟨b1, b2, b3, b4⟩ := h2.calm a4
    exact ⟨b1.trans a1, b2.trans a2, b3.trans a3, b4⟩

theorem putByte_frame (s : State) (off : Nat) (b : Byte) : PutFrame s (s.putByte off b) := by
  rw [putByte_eq]
  refine ⟨rfl, ?_, ?_, ?_, ?_, .inl rfl, id, ⟨[], by simp, rfl⟩, by simp, fun h => ⟨rfl, rfl, rfl, h⟩⟩
  · unfold State.active
    cases h : s.activeIs1 <;> simp [State.region]
  · unfold State.inactive
    cases h : s.activeIs1 <;> simpa [State.region] using fun hw => Memory.wf_write _ _ _ hw
  · by_cases h : s.txRegion = some s.inactive <;> simp [h]
  · intro h
    simp [h]

theorem EngineFrame.put {s t : State} (h : EngineFrame s t)
    (hc : s.inside = [] → t.txRegion = s.txRegion ∧ t.txNext = s.txNext ∧ t.history = s.history ∧ t.inside = []) :
    PutFrame s t where
  same := by rw [h.same]
  active := by rw [h.same]; rfl
  canonical := by rw [h.same]; exact id
  violations := by rw [h.same]; exact .inl rfl
  quiet := fun _ => by rw [h.same]
  region := h.region
  next := h.next
  history := h.history
  sent := fun hq k v hm => by
    obtain ⟨r, hr, hv⟩ := h.sent k v hm
    rcases region_eq_or s r with rfl | rfl
    · exact hv
    · exact absurd hr hq
  calm := hc

theorem engineBetween_put (s : State) : PutFrame s s.engineBetween :=
  (engineBetween_frame s).put fun h => by
    rw [engineBetween_nil s h]
    exact ⟨rfl, rfl, rfl, h⟩

theorem putBytes_frame (ws : List (Nat × Byte)) (s : State) : PutFrame s (s.putBytes ws) := by
  induction ws generalizing s with
  | nil => exact PutFrame.refl s
  | cons w ws ih => exact ((putByte_frame s w.1 w.2).trans (engineBetween_put _)).trans (ih _)

/-- A run of byte writes leaves the offsets it does not name alone. -/
theorem putBytes_read_other (ws : List (Nat × Byte)) (s : State) (r : Region) (off : Nat)
    (h : ∀ w ∈ ws, ¬(r = s.inactive ∧ off = w.1)) : (s.putBytes ws).readByte r off = s.readByte r off := by
  induction ws generalizing s with
  | nil => rfl
  | cons w ws ih =>
    have hf := (putByte_frame s w.1 w.2).trans (engineBetween_put _)
    have h1 : ∀ v ∈ ws, ¬(r = (s.putByte w.1 w.2).engineBetween.inactive ∧ off = v.1) := fun v hv => by
      rw [hf.inactive_eq]
      exact h v (List.mem_cons_of_mem _ hv)
    show (((s.putByte w.1 w.2).engineBetween).putBytes ws).readByte r off = _
    rw [ih _ h1, (engineBetween_frame _).readByte, putByte_read_other _ _ _ _ _ (h w (List.mem_cons_self ..))]

/-- A run of byte writes at distinct offsets stores each of its bytes. -/
theorem putBytes_read_same (ws : List (Nat × Byte)) (s : State) (hd : (ws.map Prod.fst).Nodup) (w : Nat × Byte)
    (hw : w ∈ ws) : (s.putBytes ws).readByte s.inactive w.1 = w.2 := by
  induction ws generalizing s with
  | nil => cases hw
  | cons v ws ih =>
    have hf := (putByte_frame s v.1 v.2).trans (engineBetween_put _)
    have hd' := List.nodup_cons.mp (by simpa using hd : (v.1 :: ws.map Prod.fst).Nodup)
    show (((s.putByte v.1 v.2).engineBetween).putBytes ws).readByte s.inactive w.1 = w.2
    rcases List.mem_cons.mp hw with rfl | hw
    · rw [putBytes_read_other, (engineBetween_frame _).readByte, putByte_read_same]
      intro u hu hx
      exact hd'.1 (List.mem_map.mpr ⟨u, hu, hx.2.symm⟩)
    · have := ih ((s.putByte v.1 v.2).engineBetween) hd'.2 hw
      rwa [hf.inactive_eq] at this

/-- A run of byte writes inside the region keeps every listed offset inside it. -/
theorem putBytes_within (ws : List (Nat × Byte)) (s : State) (n : Nat) (h : ∀ w ∈ ws, w.1 < n)
    (hs : (s.region s.inactive).within n) : ((s.putBytes ws).region s.inactive).within n := by
  induction ws generalizing s with
  | nil => exact hs
  | cons w ws ih =>
    have hf := (putByte_frame s w.1 w.2).trans (engineBetween_put _)
    have := ih ((s.putByte w.1 w.2).engineBetween) (fun v hv => h v (List.mem_cons_of_mem _ hv)) (by
      rw [hf.inactive_eq, (engineBetween_frame _).same]
      show ((s.putByte w.1 w.2).region s.inactive).within n
      rw [putByte_eq]
      have hw := Memory.within_write (s.region s.inactive) n w.1 w.2 hs (h w (List.mem_cons_self ..))
      unfold State.inactive at hw ⊢
      cases h1 : s.activeIs1 <;> simpa [State.region, h1] using hw)
    rwa [hf.inactive_eq] at this

/-- The busy violation of a run that makes at least one write: decided by the region in flight before it. -/
theorem putBytes_violations (w : Nat × Byte) (ws : List (Nat × Byte)) (s : State) :
    (s.putBytes (w :: ws)).violations =
      if s.txRegion = some s.inactive then s.violations.add .writeWhileBusy else s.violations := by
  have h1 : (s.putByte w.1 w.2).engineBetween.violations =
      if s.txRegion = some s.inactive then s.violations.add .writeWhileBusy else s.violations := by
    rw [(engineBetween_frame _).same, putByte_eq]
  show (((s.putByte w.1 w.2).engineBetween).putBytes ws).violations = _
  by_cases h : s.txRegion = some s.inactive
  · rw [if_pos h] at h1 ⊢
    rcases (putBytes_frame ws ((s.putByte w.1 w.2).engineBetween)).violations with e | e <;> rw [e, h1]
    exact Violations.add_add _ _
  · have hf := putBytes_frame (w :: ws) s
    rw [if_neg h]
    exact hf.quiet h

/-! ## Pixel slots -/

/-- The offsets of slot `p` are distinct. -/
theorem slotWrites_nodup (p : Nat) (f : Nat → Byte) : ((slotWrites p f).map Prod.fst).Nodup := by
  simp only [slotWrites, List.map_map]
  refine List.Nodup.map_on (fun a ha b hb hab => ?_) List.nodup_range
  simp only [List.mem_range, Function.comp_apply] at ha hb hab
  omega

theorem mem_slotWrites {p : Nat} {f : Nat → Byte} {w : Nat × Byte} (h : w ∈ slotWrites p f) :
    12 * p ≤ w.1 ∧ w.1 < 12 * p + 12 := by
  simp only [slotWrites, List.mem_map, List.mem_range] at h
  obtain ⟨i, hi, rfl⟩ := h
  constructor <;> simp only <;> omega

/-- Slot bytes in order of offset: byte `k` is the byte of bit pair `11 - k` (41_bit_encoder.md R132). -/
theorem slotWrites_at (p : Nat) (f : Nat → Byte) (k : Nat) (hk : k < 12) : (12 * p + k, f (11 - k)) ∈ slotWrites p f := by
  simp only [slotWrites, List.mem_map, List.mem_range]
  exact ⟨11 - k, by omega, by rw [show 11 - (11 - k) = k by omega]⟩

theorem encodePixel_getD (d0IsLow : Bool) (packed : Word24) (k : Nat) (hk : k < 12) :
    (encodePixel d0IsLow packed).getD k 0 = pairByte d0IsLow packed (11 - k) := by
  simp [encodePixel, hk]

/-- Slot `p` takes the encoded pixel. -/
theorem putPixel_read (s : State) (p : Nat) (packed : Word24) (k : Nat) (hk : k < 12) :
    (s.putPixel p packed).readByte s.inactive (12 * p + k) = (encodePixel s.par.pairD0IsLowBit packed).getD k 0 := by
  rw [encodePixel_getD _ _ _ hk]
  exact putBytes_read_same _ s (slotWrites_nodup ..) _ (slotWrites_at p _ k hk)

/-- Writing slot `p` leaves every other byte alone. -/
theorem putSlot_outside (s : State) (p : Nat) (f : Nat → Byte) :
    SameBytesOutside s.inactive (12 * p) 12 s (s.putBytes (slotWrites p f)) := by
  intro r off h
  refine putBytes_read_other _ s r off fun w hw hx => h ⟨hx.1, ?_⟩
  have := mem_slotWrites hw
  omega

/-- A run of byte writes takes no free value. -/
theorem putBytes_freeCount (ws : List (Nat × Byte)) (s : State) : (s.putBytes ws).freeCount = s.freeCount := by
  induction ws generalizing s with
  | nil => rfl
  | cons w ws ih =>
    show (((s.putByte w.1 w.2).engineBetween).putBytes ws).freeCount = _
    rw [ih, (engineBetween_frame _).same, putByte_eq]

/-- Twelve bytes put into a slot record the busy violation by the region in flight before them. -/
theorem putSlot_violations (s : State) (p : Nat) (f : Nat → Byte) :
    (s.putBytes (slotWrites p f)).violations =
      { s.violations with
        writeWhileBusy := s.violations.writeWhileBusy || decide (s.txRegion = some s.inactive) } := by
  have h : ∃ w ws, slotWrites p f = w :: ws := ⟨_, _, rfl⟩
  obtain ⟨w, ws, hw⟩ := h
  rw [hw, putBytes_violations, add_writeWhileBusy_if]

/-- What a slot's bytes put into the inactive region leave of the state, as one record. -/
theorem putSlot_eq (s : State) (p : Nat) (f : Nat → Byte) :
    ∃ b1 b2 r n h ins, s.putBytes (slotWrites p f) = { s with
      buffer1 := b1, buffer2 := b2, txRegion := r, txNext := n, history := h, inside := ins
      violations := { s.violations with
        writeWhileBusy := s.violations.writeWhileBusy || decide (s.txRegion = some s.inactive) } } := by
  have hf := putBytes_frame (slotWrites p f) s
  have hv := putSlot_violations s p f
  have hc := putBytes_freeCount (slotWrites p f) s
  generalize s.putBytes (slotWrites p f) = t at hf hv hc
  refine ⟨t.buffer1, t.buffer2, t.txRegion, t.txNext, t.history, t.inside, ?_⟩
  rw [← hv, ← hc]
  exact hf.same

theorem putPixel_frame (s : State) (p : Nat) (packed : Word24) : PutFrame s (s.putPixel p packed) :=
  putBytes_frame _ s

theorem putPixel_outside (s : State) (p : Nat) (packed : Word24) :
    SameBytesOutside s.inactive (12 * p) 12 s (s.putPixel p packed) :=
  putSlot_outside s p _

end Sys2Proof.Machine
end

