-- ==== Sys2Proof/Laws/Producer.lean ====
section
/-! SUPPORT. What a pixel's micro-step, a run of them and u3 can do, said once (44_producer.md R180 to R188). -/

namespace Sys2Proof.Machine

/-- What painting pixels can change: bytes of the inactive region, the end-of-animation flag (set only), the two
violations a pixel can record, the engine's own state, the history (never a transfer). -/
structure PixelFrame (s t : State) : Prop where
  same : t = { s with
    buffer1 := t.buffer1, buffer2 := t.buffer2, violations := t.violations, txRegion := t.txRegion
    txNext := t.txNext, history := t.history, inside := t.inside, freeCount := t.freeCount
    lastFrameCalculated := t.lastFrameCalculated }
  active : t.region s.active = s.region s.active
  canonical : (s.region s.inactive).wf → (t.region s.inactive).wf
  within : (s.region s.inactive).within s.bufLen → (t.region s.inactive).within s.bufLen
  violations : t.violations = { s.violations with
    earlyEnd := t.violations.earlyEnd, writeWhileBusy := t.violations.writeWhileBusy }
  quiet : s.txRegion ≠ some s.inactive → t.violations.writeWhileBusy = s.violations.writeWhileBusy
  region : t.txRegion = s.txRegion ∨ t.txRegion = none
  next : s.txNext ≤ s.txLen.toNat → t.txNext ≤ t.txLen.toNat
  history : ∃ es : List Event, t.history = s.history ++ es ∧ es.countP Event.isTransfer = 0
  sent : s.txRegion ≠ some s.inactive →
    ∀ k v, Event.txByte k v ∈ t.history.drop s.history.length → v = s.readByte s.active k
  calculated : s.lastFrameCalculated = true → t.lastFrameCalculated = true

theorem PixelFrame.active_eq {s t : State} (h : PixelFrame s t) : t.active = s.active := by rw [h.same]; rfl

theorem PixelFrame.inactive_eq {s t : State} (h : PixelFrame s t) : t.inactive = s.inactive := by rw [h.same]; rfl

theorem PixelFrame.bufLen_eq {s t : State} (h : PixelFrame s t) : t.bufLen = s.bufLen := by rw [h.same]; rfl

theorem PixelFrame.refl (s : State) : PixelFrame s s :=
  ⟨rfl, rfl, id, id, rfl, fun _ => rfl, .inl rfl, id, ⟨[], by simp, rfl⟩, by simp, id⟩

theorem PixelFrame.readByte_active {s t : State} (h : PixelFrame s t) (off : Nat) :
    t.readByte s.active off = s.readByte s.active off := by
  rw [readByte_def, readByte_def, h.active, h.same]

theorem PixelFrame.quiet_next {s t : State} (h : PixelFrame s t) (hq : s.txRegion ≠ some s.inactive) :
    t.txRegion ≠ some t.inactive := by
  rw [h.inactive_eq]
  rcases h.region with e | e <;> rw [e]
  · exact hq
  · simp

theorem PixelFrame.trans {s t u : State} (h1 : PixelFrame s t) (h2 : PixelFrame t u) : PixelFrame s u where
  same := by rw [h2.same, h1.same]
  active := by
    have := h2.active
    rw [h1.active_eq] at this
    rw [this, h1.active]
  canonical := fun h => by
    have := h2.canonical
    rw [h1.inactive_eq] at this
    exact this (h1.canonical h)
  within := fun h => by
    have := h2.within
    rw [h1.inactive_eq, h1.bufLen_eq] at this
    exact this (h1.within h)
  violations := by rw [h2.violations, h1.violations]
  quiet := fun h => by
    rw [h2.quiet (h1.quiet_next h), h1.quiet h]
  region := by
    rcases h2.region with h | h
    · rw [h]; exact h1.region
    · exact .inr h
  next := fun h => h2.next (h1.next h)
  history := by
    obtain ⟨es1, e1, c1⟩ := h1.history
    obtain ⟨es2, e2, c2⟩ := h2.history
    exact ⟨es1 ++ es2, by rw [e2, e1, List.append_assoc], by rw [List.countP_append, c1, c2]⟩
  sent := fun hq k v hm => by
    obtain ⟨es1, e1, _⟩ := h1.history
    obtain ⟨es2, e2, _⟩ := h2.history
    rw [newEvents (es := es1 ++ es2) (by rw [e2, e1, List.append_assoc])] at hm
    rcases List.mem_append.mp hm with hm | hm
    · exact h1.sent hq k v (by rw [newEvents e1]; exact hm)
    · rw [h2.sent (h1.quiet_next hq) k v (by rw [newEvents e2]; exact hm), h1.active_eq, h1.readByte_active]
  calculated := fun h => h2.calculated (h1.calculated h)

theorem PutFrame.pixel {s t : State} (h : PutFrame s t)
    (hw : (s.region s.inactive).within s.bufLen → (t.region s.inactive).within s.bufLen) : PixelFrame s t where
  same := by rw [h.same]
  active := h.active
  canonical := h.canonical
  within := hw
  violations := by
    rcases h.violations with e | e
    · rw [e]
    · rw [e]
      rfl
  quiet := fun hq => by rw [h.quiet hq]
  region := h.region
  next := h.next
  history := h.history
  sent := h.sent
  calculated := by rw [h.same]; exact id

theorem slotFits_iff {s : State} {p : Nat} : s.slotFits p = true ↔ 12 * p + 11 < s.bufLen := by
  simp [State.slotFits]

/-- Bytes put into a slot that fits. -/
theorem putSlot_pixel {s : State} {p : Nat} (hp : s.slotFits p = true) (f : Nat → Byte) :
    PixelFrame s (s.putBytes (slotWrites p f)) :=
  (putBytes_frame _ s).pixel fun hw => putBytes_within _ s _ (fun w hm => by
    have := mem_slotWrites hm
    have := slotFits_iff.mp hp
    omega) hw

/-- Painting is twelve byte writes into the slot. -/
theorem paint_eq (s : State) (p : Nat) (c : Colour) :
    s.paint p c = s.putBytes (slotWrites p (pairByte s.par.pairD0IsLowBit (scaleColour c s.brightness))) := by
  unfold State.paint State.putPixel
  rfl

/-- Slot `p` takes the encoded scaled colour. -/
theorem paint_read (s : State) (p : Nat) (c : Colour) (k : Nat) (hk : k < 12) :
    (s.paint p c).readByte s.inactive (12 * p + k) =
      (encodePixel s.par.pairD0IsLowBit (scaleColour c s.brightness)).getD k 0 := by
  unfold State.paint
  exact putPixel_read s p _ k hk

theorem paint_outside (s : State) (p : Nat) (c : Colour) :
    SameBytesOutside s.inactive (12 * p) 12 s (s.paint p c) := by
  unfold State.paint
  exact putPixel_outside s p _

theorem paint_frame (s : State) (p : Nat) (c : Colour) : PutFrame s (s.paint p c) := by
  rw [paint_eq]
  exact putBytes_frame _ s

/-- A pixel put into a slot that fits. -/
theorem putPixel_pixel {s : State} {p : Nat} (hp : s.slotFits p = true) (packed : Word24) :
    PixelFrame s (s.putPixel p packed) := by
  unfold State.putPixel
  exact putSlot_pixel hp _

/-- One byte put inside the region. -/
theorem putByte_pixel {s : State} {off : Nat} (h : off < s.bufLen) (b : Byte) : PixelFrame s (s.putByte off b) := by
  refine (putByte_frame s off b).pixel fun hw => ?_
  have hm := Memory.within_write (s.region s.inactive) s.bufLen off b hw h
  rw [putByte_eq]
  unfold State.inactive at hm ⊢
  cases h1 : s.activeIs1 <;> simpa [State.region, h1] using hm

theorem paint_pixel {s : State} {p : Nat} (hp : s.slotFits p = true) (c : Colour) : PixelFrame s (s.paint p c) := by
  unfold State.paint
  exact putPixel_pixel hp _

theorem violate_earlyEnd_pixel (s : State) : PixelFrame s (s.violate .earlyEnd) :=
  ⟨rfl, rfl, id, id, rfl, fun _ => rfl, .inl rfl, id, ⟨[], by simp, rfl⟩, by simp, id⟩

theorem scramble_pixel {s : State} {p : Nat} (hp : s.slotFits p = true) : PixelFrame s (s.scramble p) := by
  have h := putSlot_pixel hp (fun i => Config.freeByte s.epoch (s.freeCount + i))
  have h2 : PixelFrame (s.putBytes (slotWrites p fun i => Config.freeByte s.epoch (s.freeCount + i))) (s.scramble p) :=
    ⟨rfl, rfl, id, id, rfl, fun _ => rfl, .inl rfl, id, ⟨[], by simp [State.scramble], rfl⟩, by simp [State.scramble], id⟩
  exact h.trans h2

theorem absentAt_pixel {s : State} {p : Nat} (hp : s.slotFits p = true) : PixelFrame s (s.absentAt p) := by
  unfold State.absentAt
  split
  · exact ⟨rfl, rfl, id, id, rfl, fun _ => rfl, .inl rfl, id, ⟨[], by simp, rfl⟩, by simp, fun _ => rfl⟩
  · split
    · exact violate_earlyEnd_pixel s
    · exact (violate_earlyEnd_pixel s).trans (scramble_pixel hp)

/-- An event that is no step of the engine goes to the history. -/
theorem log_pixel (s : State) (e : Event) (h : e.isTransfer = false) (hb : ∀ k v, e ≠ .txByte k v) :
    PixelFrame s (s.log e) :=
  ⟨rfl, rfl, id, id, rfl, fun _ => rfl, .inl rfl, id, ⟨[e], rfl, by simp [h]⟩, fun _ k v hm => by
    rw [newEvents (s := s) (t := s.log e) rfl] at hm
    exact absurd (List.mem_singleton.mp hm).symm (hb k v), id⟩

/-- Micro-step u2.p answers a next state exactly when the slot fits, and then only paints. -/
theorem pixelStep_frame {s t : State} {p : Nat} (h : s.pixelStep p = .next t) :
    s.slotFits p = true ∧ PixelFrame s t := by
  unfold State.pixelStep at h
  by_cases hp : s.slotFits p = true
  · refine ⟨hp, ?_⟩
    rw [if_pos hp] at h
    cases hk : s.srcKind
    · rw [hk] at h
      simp only at h
      have hl := log_pixel s (.genQuery s.stripId s.stripLength s.frameNumber (BitVec.ofNat 8 p)
        (s.generate (BitVec.ofNat 8 p))) rfl (by simp)
      have hp' : (s.log (.genQuery s.stripId s.stripLength s.frameNumber (BitVec.ofNat 8 p)
        (s.generate (BitVec.ofNat 8 p)))).slotFits p = true := hp
      split at h <;> cases h
      · exact hl.trans (paint_pixel hp' _)
      · exact hl.trans (absentAt_pixel hp')
    · rw [hk] at h
      cases h
      exact paint_pixel hp _
  · rw [if_neg hp] at h
    cases h

theorem pixelStep_answers {s : State} {p : Nat} (hp : s.slotFits p = true) : ∃ t, s.pixelStep p = .next t := by
  unfold State.pixelStep
  rw [if_pos hp]
  cases s.srcKind
  · simp only
    split <;> exact ⟨_, rfl⟩
  · exact ⟨_, rfl⟩

/-- A run of pixels only paints. -/
theorem pixelLoop_frame {n p : Nat} {s t : State} (h : State.pixelLoop n p s = .next t) : PixelFrame s t := by
  induction n generalizing p s with
  | zero =>
    cases h
    exact PixelFrame.refl _
  | succ n ih =>
    obtain ⟨u, h1, h2⟩ := andThen_eq_next h
    exact (pixelStep_frame h1).2.trans (ih h2)

/-- The end of the animation was found between the two states: the generator was asked for the last pixel and its answer
was absent (R184, 10_state.md R30). -/
def EndFound (s t : State) : Prop :=
  s.srcKind = .generator ∧ s.stripLength ≠ 0 ∧
    ∃ es, t.history = s.history ++ es ∧
      .genQuery s.stripId s.stripLength s.frameNumber (s.stripLength - 1) none ∈ es

/-- An absent answer sets `last_frame_calculated` at the last pixel only (R184, R185). -/
theorem absentAt_end {s : State} {p : Nat} (h0 : s.lastFrameCalculated = false)
    (h1 : (s.absentAt p).lastFrameCalculated = true) :
    p + 1 = s.stripLength.toNat ∧ s.absentAt p = { s with lastFrameCalculated := true } := by
  unfold State.absentAt at h1 ⊢
  by_cases hp : p + 1 = s.stripLength.toNat
  · exact ⟨hp, if_pos hp⟩
  · rw [if_neg hp] at h1
    split at h1
    · exact absurd (h0.symm.trans h1) (by simp)
    · have hs : ∀ u : State, (u.scramble p).lastFrameCalculated = u.lastFrameCalculated := fun u => by
        show (u.putBytes _).lastFrameCalculated = _
        rw [(putBytes_frame _ u).same]
      rw [hs] at h1
      exact absurd (h0.symm.trans h1) (by simp)

/-- A pixel's micro-step sets `last_frame_calculated` only where it finds the end. -/
theorem pixelStep_end {s t : State} {p : Nat} (h : s.pixelStep p = .next t) (h0 : s.lastFrameCalculated = false)
    (h1 : t.lastFrameCalculated = true) : EndFound s t := by
  have paints : ∀ (u : State) (c : Colour), u.lastFrameCalculated = false → (u.paint p c).lastFrameCalculated ≠ true := by
    intro u c hu he
    rw [(paint_frame u p c).same, hu] at he
    cases he
  unfold State.pixelStep at h
  split at h
  · split at h
    · cases h
      exact absurd h1 (paints s _ h0)
    · rename_i hk
      simp only at h
      split at h
      · cases h
        exact absurd h1 (paints _ _ h0)
      · rename_i ha
        cases h
        rw [ha] at h1 ⊢
        obtain ⟨hp, he⟩ := absentAt_end (s := s.log _) h0 h1
        change p + 1 = s.stripLength.toNat at hp
        have hl := s.stripLength.isLt
        have hz : s.stripLength - 1 = BitVec.ofNat 8 p := by
          apply BitVec.eq_of_toNat_eq
          rw [BitVec.toNat_sub, BitVec.toNat_ofNat]
          simp
          omega
        refine ⟨hk, fun h => by simp [h] at hp, [_], by rw [he]; rfl, ?_⟩
        rw [hz]
        exact List.mem_singleton.mpr rfl
  · cases h

/-- So does a run of pixels. -/
theorem pixelLoop_end {n p : Nat} {s t : State} (h : State.pixelLoop n p s = .next t)
    (h0 : s.lastFrameCalculated = false) (h1 : t.lastFrameCalculated = true) : EndFound s t := by
  induction n generalizing p s with
  | zero =>
    cases h
    exact absurd (h0.symm.trans h1) (by simp)
  | succ n ih =>
    obtain ⟨u, hu, ht⟩ := andThen_eq_next h
    have hf := (pixelStep_frame hu).2
    cases hc : u.lastFrameCalculated
    · obtain ⟨hk, hn, es, he, hm⟩ := ih ht hc
      obtain ⟨es0, he0, _⟩ := hf.history
      rw [hf.same] at hk hn hm
      exact ⟨hk, hn, es0 ++ es, by rw [he, he0, List.append_assoc], List.mem_append_right _ hm⟩
    · obtain ⟨hk, hn, es, he, hm⟩ := pixelStep_end hu h0 hc
      obtain ⟨es1, he1, _⟩ := (pixelLoop_frame ht).history
      exact ⟨hk, hn, es ++ es1, by rw [he1, he, List.append_assoc], List.mem_append_left _ hm⟩

/-- Micro-step u3: the counter and `frame_requested` (R186). -/
theorem countStep_eq {s t : State} (h : s.countStep = .next t) :
    t = { s with frameNumber := s.frameNumber + 1, frameRequested := false } := by
  unfold State.countStep at h
  split at h <;> cases h
  rfl

/-- The frame as one step is its pixels, then u3 and u4. -/
theorem wholeFrame_eq {s t : State} (h : s.wholeFrame = .next t) :
    ∃ u, State.pixelLoop s.stripLength.toNat 0 s = .next u ∧ PixelFrame s u ∧
      t = { u with
        frameNumber := u.frameNumber + 1, frameRequested := false, swapRequested := true, swapPending := true
        response := some ⟨.ok, 1⟩ } := by
  obtain ⟨u, h1, h2⟩ := andThen_eq_next h
  obtain ⟨v, h3, h4⟩ := andThen_eq_next h2
  rw [countStep_eq h3] at h4
  cases h4
  exact ⟨u, h1, pixelLoop_frame h1, rfl⟩

/-- The four micro-steps, one line each (R181). -/
theorem microStep_cases {s t : State} (h : s.microStep = .next t) :
    (s.compute = .idle ∧ t = s) ∨
    (∃ p u, s.compute = .pixel p ∧ s.pixelStep p = .next u ∧ PixelFrame s u ∧
      t = { u with compute := u.phaseAt (p + 1) }) ∨
    (s.compute = .count ∧
      t = { s with frameNumber := s.frameNumber + 1, frameRequested := false, compute := .publish }) ∨
    (s.compute = .publish ∧
      t = { s with
        swapRequested := true, swapPending := true, compute := .idle, response := some ⟨.ok, 1⟩
        history := s.history ++ [.completed ⟨.ok, 1⟩] }) := by
  unfold State.microStep at h
  split at h
  · rename_i hc
    cases h
    exact .inl ⟨hc, rfl⟩
  · rename_i p hc
    obtain ⟨u, h1, h2⟩ := andThen_eq_next h
    cases h2
    exact .inr (.inl ⟨p, u, hc, h1, (pixelStep_frame h1).2, rfl⟩)
  · rename_i hc
    obtain ⟨u, h1, h2⟩ := andThen_eq_next h
    rw [countStep_eq h1] at h2
    cases h2
    exact .inr (.inr (.inl ⟨hc, rfl⟩))
  · rename_i hc
    cases h
    exact .inr (.inr (.inr ⟨hc, rfl⟩))

end Sys2Proof.Machine
end

