-- ==== Sys2Proof/Laws/Exec.lean ====
section
/-! SUPPORT. What a command that answers can have done, said once for all commands: it failed with nothing but the
response changed, or it ran, and then its effect is one line below. -/

namespace Sys2Proof.Machine

/-- Nothing but the response changed, status OK. -/
def Answered (s t : State) : Prop := ∃ d, t = s.answer .ok d

/-- The effect of each command that ran, under the handle it needs. -/
def Ran (i : Instr) (s t : State) : Prop :=
  match i with
  | .takeProducer => t = { s with producerTaken := true, response := some ⟨.ok, 1⟩ }
  | .takeConsumer => t = { s with consumerTaken := true, response := some ⟨.ok, 1⟩ }
  | .scale _ _ _ _ => Answered s t
  | .encodePixel pix packed =>
    s.producerTaken = true ∧ s.slotFits pix = true ∧
      t = ((s.violate .primitiveMisuse).putPixel pix packed).answer .ok 0
  | .rbReadableView => s.consumerTaken = true ∧ Answered s t
  | .rbWritableView => s.producerTaken = true ∧ Answered s t
  | .rbRequestSwap =>
    s.producerTaken = true ∧
      t = { s with
        violations := s.violations.add .primitiveMisuse, swapPending := true, response := some ⟨.ok, 0⟩ }
  | .rbCommitSwap =>
    s.consumerTaken = true ∧ t = ((s.violate .primitiveMisuse).commitSwap).answer .ok (flagData s.swapPending)
  | .rbLength => Answered s t
  | .rbRead off => s.consumerTaken = true ∧ off < s.bufLen ∧ Answered (s.violate .primitiveMisuse) t
  | .rbWrite off data =>
    s.producerTaken = true ∧ off < s.bufLen ∧ t = ((s.violate .primitiveMisuse).putByte off data).answer .ok 0
  | .chRequestSwap => s.producerTaken = true ∧ t = ((s.violate .primitiveMisuse).requestSwap).answer .ok 0
  | .chTrySwap =>
    s.consumerTaken = true ∧ t = ((s.violate .primitiveMisuse).trySwap).answer .ok (flagData s.swapPending)
  | .computeFrame =>
    s.producerTaken = true ∧
      (s.gateOpen = false ∧ Answered s t ∨
        s.gateOpen = true ∧ s.par.preempt = .micro ∧ t = { s with compute := s.phaseAt 0, response := none } ∨
        s.gateOpen = true ∧ s.par.preempt = .op ∧
          ∃ u, State.pixelLoop s.stripLength.toNat 0 s = .next u ∧ PixelFrame s u ∧
            t = { u with
              frameNumber := u.frameNumber + 1, frameRequested := false, swapRequested := true, swapPending := true
              response := some ⟨.ok, 1⟩ })
  | .isAnimationFinished => s.consumerTaken = true ∧ t = s.graceCheck.answer .ok (flagData s.lastFrameShown)
  | .startFrame =>
    s.consumerTaken = true ∧
      (s.lastFrameShown = true ∧ Answered s t ∨
        s.lastFrameShown = false ∧ t = s.graceCheck.showFrame.answer .ok 1)
  | .rdReg _ => Answered s t

theorem checked_next {cls : CmdClass} {s t : State} {body : State → Result} (h : checked cls s body = .next t) :
    (∃ st, st ≠ .ok ∧ t = s.answer st 0) ∨ (s.configFault = false ∧ s.granted cls = true ∧ body s = .next t) := by
  rcases checked_cases cls s body with ⟨_, e⟩ | ⟨_, _, e⟩ | ⟨hf, hg, e⟩ <;> rw [e] at h
  · cases h
    exact .inl ⟨.configFatal, by simp, rfl⟩
  · cases h
    exact .inl ⟨.notOwner, by simp, rfl⟩
  · exact .inr ⟨hf, hg, h⟩

/-- What a command that answers can have done. Every command but RD_REG runs only without `config_fault`. -/
theorem exec_cases {i : Instr} {s t : State} (h : exec i s = .next t) :
    (∃ st, st ≠ .ok ∧ t = s.answer st 0) ∨ (((∀ reg, i ≠ .rdReg reg) → s.configFault = false) ∧ Ran i s t) := by
  cases i with
  | takeProducer =>
    simp only [exec, execTakeProducer] at h
    rcases checked_next h with e | ⟨hf, _, hb⟩
    · exact .inl e
    · split at hb <;> cases hb
      · exact .inl ⟨.absent, by simp, rfl⟩
      · exact .inr ⟨fun _ => hf, rfl⟩
  | takeConsumer =>
    simp only [exec, execTakeConsumer] at h
    rcases checked_next h with e | ⟨hf, _, hb⟩
    · exact .inl e
    · split at hb <;> cases hb
      · exact .inl ⟨.absent, by simp, rfl⟩
      · exact .inr ⟨fun _ => hf, rfl⟩
  | scale blue red green bright =>
    simp only [exec, execScale] at h
    rcases checked_next h with e | ⟨hf, _, hb⟩
    · exact .inl e
    · cases hb
      exact .inr ⟨fun _ => hf, _, rfl⟩
  | encodePixel pix packed =>
    simp only [exec, execEncodePixel] at h
    rcases checked_next h with e | ⟨hf, hg, hb⟩
    · exact .inl e
    · split at hb <;> cases hb
      · exact .inr ⟨fun _ => hf, hg, ‹_›, rfl⟩
      · exact .inl ⟨.range, by simp, rfl⟩
  | rbReadableView =>
    simp only [exec, execRbReadableView] at h
    rcases checked_next h with e | ⟨hf, hg, hb⟩
    · exact .inl e
    · cases hb
      exact .inr ⟨fun _ => hf, hg, _, rfl⟩
  | rbWritableView =>
    simp only [exec, execRbWritableView] at h
    rcases checked_next h with e | ⟨hf, hg, hb⟩
    · exact .inl e
    · cases hb
      exact .inr ⟨fun _ => hf, hg, _, rfl⟩
  | rbRequestSwap =>
    simp only [exec, execRbRequestSwap] at h
    rcases checked_next h with e | ⟨hf, hg, hb⟩
    · exact .inl e
    · cases hb
      exact .inr ⟨fun _ => hf, hg, rfl⟩
  | rbCommitSwap =>
    simp only [exec, execRbCommitSwap] at h
    rcases checked_next h with e | ⟨hf, hg, hb⟩
    · exact .inl e
    · cases hb
      exact .inr ⟨fun _ => hf, hg, rfl⟩
  | rbLength =>
    simp only [exec, execRbLength] at h
    rcases checked_next h with e | ⟨hf, _, hb⟩
    · exact .inl e
    · cases hb
      exact .inr ⟨fun _ => hf, _, rfl⟩
  | rbRead off =>
    simp only [exec, execRbRead] at h
    rcases checked_next h with e | ⟨hf, hg, hb⟩
    · exact .inl e
    · split at hb <;> cases hb
      · exact .inr ⟨fun _ => hf, hg, ‹_›, _, rfl⟩
      · exact .inl ⟨.range, by simp, rfl⟩
  | rbWrite off data =>
    simp only [exec, execRbWrite] at h
    rcases checked_next h with e | ⟨hf, hg, hb⟩
    · exact .inl e
    · split at hb <;> cases hb
      · exact .inr ⟨fun _ => hf, hg, ‹_›, rfl⟩
      · exact .inl ⟨.range, by simp, rfl⟩
  | chRequestSwap =>
    simp only [exec, execChRequestSwap] at h
    rcases checked_next h with e | ⟨hf, hg, hb⟩
    · exact .inl e
    · cases hb
      exact .inr ⟨fun _ => hf, hg, rfl⟩
  | chTrySwap =>
    simp only [exec, execChTrySwap] at h
    rcases checked_next h with e | ⟨hf, hg, hb⟩
    · exact .inl e
    · cases hb
      exact .inr ⟨fun _ => hf, hg, rfl⟩
  | computeFrame =>
    simp only [exec, execComputeFrame] at h
    rcases checked_next h with e | ⟨hf, hg, hb⟩
    · exact .inl e
    · refine .inr ⟨fun _ => hf, hg, ?_⟩
      split at hb
      · rename_i hgate
        split at hb
        · rename_i hp
          cases hb
          exact .inr (.inl ⟨hgate, hp, rfl⟩)
        · rename_i hp
          exact .inr (.inr ⟨hgate, hp, wholeFrame_eq hb⟩)
      · rename_i hgate
        cases hb
        exact .inl ⟨by simpa using hgate, _, rfl⟩
  | isAnimationFinished =>
    simp only [exec, execIsAnimationFinished] at h
    rcases checked_next h with e | ⟨hf, hg, hb⟩
    · exact .inl e
    · cases hb
      exact .inr ⟨fun _ => hf, hg, rfl⟩
  | startFrame =>
    simp only [exec, execStartFrame] at h
    rcases checked_next h with e | ⟨hf, hg, hb⟩
    · exact .inl e
    · refine .inr ⟨fun _ => hf, hg, ?_⟩
      split at hb <;> cases hb
      · exact .inl ⟨‹_›, _, rfl⟩
      · rename_i hl
        exact .inr ⟨by simpa using hl, rfl⟩
  | rdReg reg =>
    change execRdReg reg s = .next t at h
    unfold execRdReg at h
    split at h <;> cases h
    · exact .inr ⟨fun hn => absurd rfl (hn reg), _, rfl⟩
    · exact .inl ⟨.range, by simp, rfl⟩

/-- Every command but RD_REG is its body behind the common checks of its class (60_exceptions.md R264). -/
theorem exec_checked {i : Instr} (hn : ∀ reg, i ≠ .rdReg reg) :
    ∃ body, ∀ s, exec i s = checked (classOf i) s body := by
  cases i with
  | rdReg reg => exact absurd rfl (hn reg)
  | _ => exact ⟨_, fun _ => rfl⟩

/-- Common check 1 for every command but RD_REG (R264). -/
theorem exec_fault {i : Instr} {s : State} (hf : s.configFault = true) (hn : ∀ reg, i ≠ .rdReg reg) :
    exec i s = raise s .configFatal := by
  obtain ⟨body, hb⟩ := exec_checked hn
  rw [hb, checked_fault hf]

/-- Common check 3 (R264). -/
theorem exec_unowned {i : Instr} {s : State} (hf : s.configFault = false) (hg : s.granted (classOf i) = false) :
    exec i s = raise s .notOwner := by
  have hn : ∀ reg, i ≠ .rdReg reg := fun reg hi => by simp [hi, classOf] at hg
  obtain ⟨body, hb⟩ := exec_checked hn
  rw [hb, checked_unowned hf hg]

end Sys2Proof.Machine
end

