-- ==== Sys2Proof/Laws/Step.lean ====
section
/-! SUPPORT. What one step can be, said once: an inversion lemma for a command word and for `step`. -/

namespace Sys2Proof.Machine

/-- A command word runs as the decoded command, or is rejected with nothing but the response changed. -/
theorem runWord_cases {w : Word40} {s t : State} (h : runWord w s = .next t) :
    (∃ i, decode w = .ok i ∧ exec i s = .next t) ∨
    (∃ e st, decode w = .error e ∧ (st = .configFatal ∨ st = .illegal) ∧ t = s.answer st 0) := by
  unfold runWord at h
  split at h
  · rename_i i hd
    exact .inl ⟨i, hd, h⟩
  · rename_i e hd
    unfold rejectWord at h
    split at h <;> cases h
    · exact .inr ⟨e, _, hd, .inl rfl, rfl⟩
    · exact .inr ⟨e, _, hd, .inr rfl, rfl⟩

/-- What one step is: a reset, an engine step, a producer micro-step, or a command. The state a command or micro-step
runs in differs from `s` in the coming inputs and in `inside` alone. -/
theorem step_cases {s t : State} (h : step s = .next t) :
    (∃ par cfg rest, s.inputs = .reset par cfg :: rest ∧
      t = { State.resetWith par cfg (s.epoch + 1) with inputs := rest }) ∨
    (∃ ins : List Input, s.nextIsReset = false ∧ t = ({ s with inputs := ins } : State).engineStep) ∨
    (∃ ins inside u, s.nextIsReset = false ∧ ({ s with inputs := ins, inside := inside } : State).microStep = .next u ∧
      t = u.settle) ∨
    (∃ agent w inside rest u, s.inputs = .command agent w inside :: rest ∧
      s.heldBack (.command agent w inside) = false ∧
      runWord w { s with inputs := rest, inside := inside } = .next u ∧
      t = (u.log (.command agent w u.response)).settle) := by
  unfold step oneStep at h
  split at h
  · rename_i hi
    have hr : s.nextIsReset = false := by simp [State.nextIsReset, hi]
    unfold unattended at h
    split at h
    · cases h
      exact .inr (.inl ⟨s.inputs, hr, rfl⟩)
    · obtain ⟨u, h1, h2⟩ := andThen_eq_next h
      cases h2
      exact .inr (.inr (.inl ⟨s.inputs, [], u, hr, h1, rfl⟩))
  · rename_i i rest hi
    split at h
    · rename_i hh
      have hr : s.nextIsReset = false := by
        cases i <;> simp_all [State.nextIsReset, State.heldBack]
      obtain ⟨u, h1, h2⟩ := andThen_eq_next h
      cases h2
      exact .inr (.inr (.inl ⟨s.inputs, [], u, hr, h1, rfl⟩))
    · rename_i hh
      cases i with
      | command agent w inside =>
        obtain ⟨u, h1, h2⟩ := andThen_eq_next h
        cases h2
        exact .inr (.inr (.inr ⟨agent, w, inside, rest, u, hi, by simpa using hh, h1, rfl⟩))
      | producer inside =>
        obtain ⟨u, h1, h2⟩ := andThen_eq_next h
        cases h2
        exact .inr (.inr (.inl ⟨rest, inside, u, by simp [State.nextIsReset, hi], h1, rfl⟩))
      | engine =>
        cases h
        exact .inr (.inl ⟨rest, by simp [State.nextIsReset, hi], rfl⟩)
      | reset par cfg =>
        cases h
        exact .inl ⟨par, cfg, rest, hi, rfl⟩

/-- The model's runs are the host's. -/
theorem run_eq (k : Nat) (s : State) : Host.Core.run Sys2Proof.core k s = runSteps k s := by
  have h : ∀ (M : Host.Core) (k : Nat) (s : M.State), (∀ t, M.step s = .next t → M.run (k + 1) s = M.run k t) ∧
      (∀ r, M.step s = .fault r → M.run (k + 1) s = .fault r) ∧
      (∀ r, M.step s = .refused r → M.run (k + 1) s = .refused r) := by
    intro M k s
    refine ⟨fun t e => ?_, fun r e => ?_, fun r e => ?_⟩ <;> simp only [Host.Core.run, e]
  induction k generalizing s with
  | zero => rfl
  | succ k ih =>
    obtain ⟨h1, h2, h3⟩ := h Sys2Proof.core k s
    unfold runSteps
    cases e : step s with
    | next t => exact (h1 t e).trans (ih t)
    | fault r => exact h2 r e
    | refused r => exact h3 r e

/-- A command that is not held back while a COMPUTE_FRAME is in progress is not of the producer class (44_producer.md
R181). -/
theorem not_producer_of_not_heldBack {s : State} {agent : Agent} {w : Word40} {inside : List Nat} {i : Instr}
    (h : s.heldBack (.command agent w inside) = false) (hc : s.compute ≠ .idle) (hd : decode w = .ok i) :
    classOf i ≠ .producer := by
  intro hi
  simp [State.heldBack, hc, isProducerWord, hd, hi] at h

end Sys2Proof.Machine
end

