-- ==== Sys2Proof/Laws/Discipline.lean ====
section
/-! SUPPORT. The definition of 10_state.md R37 against the wider one, and what host duty H-e of 70_reset_and_hazards.md
R290 gives. -/

namespace Sys2Proof.Machine

/-- A run under discipline is one by disciplined steps. -/
theorem RunUnderDiscipline.disciplined {s : State} (h : RunUnderDiscipline s) : DisciplinedRun s := by
  induction h with
  | created par cfg epoch inputs _ => exact .created par cfg epoch inputs
  | step s t _ hd hs ih => exact .step s t ih hd.commands hs

/-- A command issued in a disciplined step is one of R37's; the only other one the invariants are stated for is RB_READ. -/
theorem disciplined_or_reads {s : State} {agent : Agent} {w : Word40} {inside : List Nat} {rest : List Input}
    {i : Instr} (h : s.disciplined = true ∨ s.nextReads = true) (hi : s.inputs = .command agent w inside :: rest)
    (hh : s.heldBack (.command agent w inside) = false) (hd : decode w = .ok i) :
    s.disciplinedCommand i = true ∨ ∃ off, i = .rbRead off := by
  rcases h with h | h
  · exact .inl (by simpa [State.disciplined, hi, hh, State.disciplinedInput, hd] using h)
  · simp only [State.nextReads, hi, hd] at h
    split at h
    · rename_i off he
      exact .inr ⟨off, Except.ok.inj he⟩
    · cases h

/-- A command issued under discipline is one of R37's. -/
theorem State.UnderDiscipline.command {s : State} {agent : Agent} {w : Word40} {inside : List Nat} {rest : List Input}
    {i : Instr} (h : s.UnderDiscipline) (hi : s.inputs = .command agent w inside :: rest)
    (hh : s.heldBack (.command agent w inside) = false) (hd : decode w = .ok i) : s.disciplinedCommand i = true := by
  have hc := h.commands
  simpa [State.disciplined, hi, hh, State.disciplinedInput, hd] using hc

/-- A command of a class that needs a handle is issued under discipline by the class's agent and with the handle (H-a). -/
theorem State.UnderDiscipline.owned {s : State} {agent : Agent} {w : Word40} {inside : List Nat} {rest : List Input}
    {i : Instr} (h : s.UnderDiscipline) (hi : s.inputs = .command agent w inside :: rest)
    (hh : s.heldBack (.command agent w inside) = false) (hd : decode w = .ok i) (hn : classOf i ≠ .host) :
    agent = agentOf (classOf i) ∧ s.granted (classOf i) = true := by
  have hc := h.duties
  simp only [State.dutiful, hi, hh, Bool.false_or, State.dutifulInput, hd] at hc
  cases hcl : classOf i with
  | host => exact absurd hcl hn
  | producer => simpa [hcl] using hc
  | consumer => simpa [hcl] using hc

/-- Under H-e the answer at a pixel before the last is a colour. -/
theorem State.generatorEndsLast.answer {s : State} {p : Nat} (h : s.generatorEndsLast) (hk : s.srcKind = .generator)
    (hp : p + 1 < s.stripLength.toNat) : ∃ c, s.generate (BitVec.ofNat 8 p) = some c :=
  Option.ne_none_iff_exists'.mp (h hk s.frameNumber p hp)

end Sys2Proof.Machine
end

