-- ==== Sys2Proof/Laws/Engine.lean ====
section
/-! SUPPORT. What engine steps that fall inside a producer's step can have done, said once (47_collaborator_ports.md R234,
20_memory.md R75 e). -/

namespace Sys2Proof.Machine

/-- Nothing happened but what the step itself logged. -/
theorem EngineOnly.logged {made : List Event} {s t : State} (hh : t.history = s.history ++ made)
    (hn : t.txNext = s.txNext) (hr : t.txRegion = s.txRegion) : EngineOnly made s t :=
  ⟨[], false, by simp [hh], by simp [hn], by simp [hr], fun _ => ⟨rfl, rfl⟩⟩

theorem EngineOnly.refl (s : State) : EngineOnly [] s s := .logged (by simp) rfl rfl

/-- Engine steps after engine steps. -/
theorem EngineOnly.trans {made : List Event} {s t u : State} (h1 : EngineOnly made s t) (h2 : EngineOnly [] t u) :
    EngineOnly made s u := by
  obtain ⟨vs1, d1, hh1, hn1, hr1, he1⟩ := h1
  obtain ⟨vs2, d2, hh2, hn2, hr2, he2⟩ := h2
  cases d1 with
  | true =>
    obtain ⟨rfl, rfl⟩ := he2 (by simpa using hr1)
    refine ⟨vs1, true, by simp [hh2, hh1], by simp [hn2, hn1], by simpa [hr1] using hr2, fun h => he1 h⟩
  | false =>
    simp only [Bool.false_eq_true, if_false] at hr1
    refine ⟨vs1 ++ vs2, d2, ?_, by rw [hn2, hn1, List.length_append, Nat.add_assoc], by rw [hr2, hr1], fun h => ?_⟩
    · have hf : (fun i v => Event.txByte (s.txNext + (i + vs1.length)) v) = fun j v => .txByte (t.txNext + j) v := by
        funext j v
        rw [hn1, show s.txNext + (j + vs1.length) = s.txNext + vs1.length + j by omega]
      simp only [hh2, hh1, List.mapIdx_append, hf, List.append_assoc, List.append_nil,
        Bool.false_eq_true, if_false]
    · obtain ⟨rfl, _⟩ := he1 h
      obtain ⟨rfl, hd⟩ := he2 (by rw [hr1, h])
      exact ⟨rfl, hd⟩

/-- What else the step changes does not matter. -/
theorem EngineOnly.congr {made : List Event} {s t s' t' : State} (h : EngineOnly made s t)
    (hs : s'.history = s.history ∧ s'.txNext = s.txNext ∧ s'.txRegion = s.txRegion)
    (ht : t'.history = t.history ∧ t'.txNext = t.txNext ∧ t'.txRegion = t.txRegion) : EngineOnly made s' t' := by
  unfold EngineOnly
  rw [hs.1, hs.2.1, hs.2.2, ht.1, ht.2.1, ht.2.2]
  exact h

/-- Events the step logs first. -/
theorem EngineOnly.after {made : List Event} {s s0 t : State} (h : EngineOnly [] s0 t)
    (h0 : s0.history = s.history ++ made ∧ s0.txNext = s.txNext ∧ s0.txRegion = s.txRegion) : EngineOnly made s t :=
  (EngineOnly.logged h0.1 h0.2.1 h0.2.2).trans h

/-- The engine reads while bytes are left (R234). -/
theorem engineStep_reads {s : State} {r : Region} (h : s.txRegion = some r) (h1 : s.txNext < s.txLen.toNat)
    (h2 : s.txNext < s.bufLen) : s.engineStep = s.txRead r := by
  unfold State.engineStep
  rw [h]
  simp [h1, h2]

theorem engineStep_only (s : State) : EngineOnly [] s s.engineStep := by
  unfold State.engineStep
  split
  · exact .refl s
  · rename_i r hr
    split
    · split
      · exact ⟨[s.readByte r s.txNext], false, by simp [State.txRead], rfl, by simp [State.txRead], fun h => by
          rw [hr] at h
          cases h⟩
      · exact .refl s
    · exact ⟨[], true, by simp [State.txFinish], rfl, by simp [State.txFinish], fun h => by
        rw [hr] at h
        cases h⟩

theorem engineRun_only (n : Nat) (s : State) : EngineOnly [] s (State.engineRun n s) := by
  induction n generalizing s with
  | zero => exact .refl s
  | succ n ih => exact (engineStep_only s).trans (ih s.engineStep)

theorem engineBetween_only (s : State) : EngineOnly [] s s.engineBetween := by
  unfold State.engineBetween
  split
  · exact .refl s
  · exact .after (engineRun_only _ _) ⟨by simp, rfl, rfl⟩

theorem putByte_only (s : State) (off : Nat) (b : Byte) : EngineOnly [] s (s.putByte off b) := by
  rw [putByte_eq]
  exact .logged (by simp) rfl rfl

/-- Byte writes with engine steps between them. -/
theorem putBytes_only (ws : List (Nat × Byte)) (s : State) : EngineOnly [] s (s.putBytes ws) := by
  induction ws generalizing s with
  | nil => exact .refl s
  | cons w ws ih => exact ((putByte_only s w.1 w.2).trans (engineBetween_only _)).trans (ih _)

theorem putBytes_cons (w : Nat × Byte) (ws : List (Nat × Byte)) (s : State) :
    s.putBytes (w :: ws) = ((s.putByte w.1 w.2).engineBetween).putBytes ws := rfl

/-- Byte writes one list after the other. -/
theorem putBytes_append (ws1 ws2 : List (Nat × Byte)) (s : State) :
    s.putBytes (ws1 ++ ws2) = (s.putBytes ws1).putBytes ws2 := by
  induction ws1 generalizing s with
  | nil => rfl
  | cons w ws1 ih => exact ih _

/-- No engine step falls after the writes for which 0 is planned. -/
theorem putBytes_waits (ws : List (Nat × Byte)) (s : State) (rest : List Nat)
    (h : s.inside = List.replicate ws.length 0 ++ rest) :
    (s.putBytes ws).inside = rest ∧ (s.putBytes ws).txRegion = s.txRegion ∧ (s.putBytes ws).txNext = s.txNext ∧
      (s.putBytes ws).history = s.history := by
  induction ws generalizing s with
  | nil => exact ⟨h, rfl, rfl, rfl⟩
  | cons w ws ih =>
    have hi : (s.putByte w.1 w.2).inside = 0 :: (List.replicate ws.length 0 ++ rest) := by
      rw [putByte_eq]
      exact h
    have hb : (s.putByte w.1 w.2).engineBetween =
        { s.putByte w.1 w.2 with inside := List.replicate ws.length 0 ++ rest } := by
      unfold State.engineBetween
      rw [hi]
      rfl
    obtain ⟨h1, h2, h3, h4⟩ := ih ((s.putByte w.1 w.2).engineBetween) (by rw [hb])
    refine ⟨h1, ?_, ?_, ?_⟩
    · rw [putBytes_cons, h2, hb, putByte_eq]
    · rw [putBytes_cons, h3, hb, putByte_eq]
    · rw [putBytes_cons, h4, hb, putByte_eq]

end Sys2Proof.Machine
end

