-- ==== Sys2Proof/Laws/PerInstr.lean ====
section
/-! SUPPORT. Facts of every command as syntax, one lemma per constructor: the word's opcode field is the opcode of
30_encoding.md R94 and its operand field the operands' layout of R92. -/

namespace Sys2Proof.Laws

/-- The two fields of an encoded command. -/
def EncodeFields.Statement (i : Instr) : Prop :=
  opcodeField (encode i) = i.opcode ∧ operandField (encode i) = i.operand

theorem EncodeFields.fields (i : Instr) : EncodeFields.Statement i := by
  constructor
  · unfold opcodeField encode
    exact BitVec.extractLsb'_append_eq_left
  · unfold operandField encode
    exact BitVec.extractLsb'_append_eq_right

theorem EncodeFields.takeProducer : EncodeFields.Statement .takeProducer := fields _
theorem EncodeFields.takeConsumer : EncodeFields.Statement .takeConsumer := fields _
theorem EncodeFields.scale (blue red green bright : Byte) : EncodeFields.Statement (.scale blue red green bright) :=
  fields _
theorem EncodeFields.encodePixel (pix : Nat) (packed : Word24) : EncodeFields.Statement (.encodePixel pix packed) :=
  fields _
theorem EncodeFields.rbReadableView : EncodeFields.Statement .rbReadableView := fields _
theorem EncodeFields.rbWritableView : EncodeFields.Statement .rbWritableView := fields _
theorem EncodeFields.rbRequestSwap : EncodeFields.Statement .rbRequestSwap := fields _
theorem EncodeFields.rbCommitSwap : EncodeFields.Statement .rbCommitSwap := fields _
theorem EncodeFields.rbLength : EncodeFields.Statement .rbLength := fields _
theorem EncodeFields.rbRead (off : Nat) : EncodeFields.Statement (.rbRead off) := fields _
theorem EncodeFields.rbWrite (off : Nat) (data : Byte) : EncodeFields.Statement (.rbWrite off data) := fields _
theorem EncodeFields.chRequestSwap : EncodeFields.Statement .chRequestSwap := fields _
theorem EncodeFields.chTrySwap : EncodeFields.Statement .chTrySwap := fields _
theorem EncodeFields.computeFrame : EncodeFields.Statement .computeFrame := fields _
theorem EncodeFields.isAnimationFinished : EncodeFields.Statement .isAnimationFinished := fields _
theorem EncodeFields.startFrame : EncodeFields.Statement .startFrame := fields _
theorem EncodeFields.rdReg (reg : Nat) : EncodeFields.Statement (.rdReg reg) := fields _

end Sys2Proof.Laws
end

