-- ==== Sys2Proof/Laws/Stamp.lean ====
section
/-! SUPPORT. What a pixel's micro-step does not look at: where the producer stands, the granularity and the response
(44_producer.md R181, 20_memory.md R75). -/

namespace Sys2Proof.Machine

/-- The state with these three replaced. -/
def State.stamp (c : Compute) (g : Granularity) (r : Option Response) (s : State) : State :=
  { s with compute := c, par := { s.par with preempt := g }, response := r }

variable (c : Compute) (g : Granularity) (r : Option Response)

theorem stamp_putByte (s : State) (off : Nat) (b : Byte) :
    (s.stamp c g r).putByte off b = (s.putByte off b).stamp c g r := by
  rw [putByte_eq, putByte_eq]
  rfl

theorem stamp_engineStep (s : State) : (s.stamp c g r).engineStep = s.engineStep.stamp c g r := by
  unfold State.engineStep
  rw [show (s.stamp c g r).txRegion = s.txRegion from rfl, show (s.stamp c g r).txNext = s.txNext from rfl,
    show (s.stamp c g r).txLen = s.txLen from rfl, show (s.stamp c g r).bufLen = s.bufLen from rfl]
  cases s.txRegion with
  | none => rfl
  | some region =>
    simp only
    split
    · split <;> rfl
    · rfl

theorem stamp_engineRun (n : Nat) (s : State) :
    State.engineRun n (s.stamp c g r) = (State.engineRun n s).stamp c g r := by
  induction n generalizing s with
  | zero => rfl
  | succ n ih => simp only [State.engineRun, stamp_engineStep, ih]

theorem stamp_engineBetween (s : State) : (s.stamp c g r).engineBetween = s.engineBetween.stamp c g r := by
  unfold State.engineBetween
  rw [show (s.stamp c g r).inside = s.inside from rfl]
  cases s.inside with
  | nil => rfl
  | cons n rest => exact stamp_engineRun c g r n { s with inside := rest }

theorem stamp_putBytes (ws : List (Nat × Byte)) (s : State) :
    (s.stamp c g r).putBytes ws = (s.putBytes ws).stamp c g r := by
  induction ws generalizing s with
  | nil => rfl
  | cons w ws ih =>
    show (((s.stamp c g r).putByte w.1 w.2).engineBetween).putBytes ws =
      ((((s.putByte w.1 w.2).engineBetween).putBytes ws).stamp c g r)
    rw [stamp_putByte, stamp_engineBetween, ih]

theorem stamp_paint (s : State) (p : Nat) (k : Colour) : (s.stamp c g r).paint p k = (s.paint p k).stamp c g r := by
  rw [paint_eq, paint_eq]
  exact stamp_putBytes c g r _ _

theorem stamp_absentAt (s : State) (p : Nat) : (s.stamp c g r).absentAt p = (s.absentAt p).stamp c g r := by
  unfold State.absentAt
  rw [show (s.stamp c g r).stripLength = s.stripLength from rfl,
    show (s.stamp c g r).par.earlyEnd = s.par.earlyEnd from rfl]
  split
  · rfl
  · cases s.par.earlyEnd with
    | skip => rfl
    | anyValue =>
      show ((s.violate .earlyEnd).stamp c g r).scramble p = ((s.violate .earlyEnd).scramble p).stamp c g r
      unfold State.scramble
      simp only [stamp_putBytes]
      rfl

/-- A pixel's micro-step of a stamped state is the stamped micro-step. -/
theorem stamp_pixelStep (s : State) (p : Nat) :
    (s.stamp c g r).pixelStep p = andThen (s.pixelStep p) fun t => .next (t.stamp c g r) := by
  unfold State.pixelStep
  rw [show (s.stamp c g r).slotFits p = s.slotFits p from rfl, show (s.stamp c g r).srcKind = s.srcKind from rfl]
  split
  · cases s.srcKind with
    | generator =>
      simp only [show (s.stamp c g r).generate (BitVec.ofNat 8 p) = s.generate (BitVec.ofNat 8 p) from rfl]
      cases s.generate (BitVec.ofNat 8 p) with
      | none =>
        have h := stamp_absentAt c g r
          (s.log (.genQuery s.stripId s.stripLength s.frameNumber (BitVec.ofNat 8 p) none)) p
        exact congrArg _ h
      | some k =>
        have h := stamp_paint c g r
          (s.log (.genQuery s.stripId s.stripLength s.frameNumber (BitVec.ofNat 8 p) (some k))) p k
        exact congrArg _ h
    | static =>
      have h := stamp_paint c g r s p (colourOfWord s.staticColor)
      exact congrArg _ h
  · rfl

/-- A run of pixels that comes to an end in a stamped state is the stamped run. -/
theorem stamp_pixelLoop {n p : Nat} {s t : State} (h : State.pixelLoop n p (s.stamp c g r) = .next t) :
    ∃ u, State.pixelLoop n p s = .next u ∧ t = u.stamp c g r := by
  induction n generalizing p s with
  | zero =>
    cases h
    exact ⟨s, rfl, rfl⟩
  | succ n ih =>
    obtain ⟨u, h1, h2⟩ := andThen_eq_next h
    rw [stamp_pixelStep] at h1
    obtain ⟨v, h3, h4⟩ := andThen_eq_next h1
    cases h4
    obtain ⟨w, h5, h6⟩ := ih h2
    exact ⟨w, by simp only [State.pixelLoop, h3, andThen_next, h5], h6⟩

/-- Without engine steps planned inside, a pixel's micro-step leaves none. -/
theorem pixelStep_inside {s t : State} {p : Nat} (h : s.pixelStep p = .next t) (hi : s.inside = []) : t.inside = [] := by
  unfold State.pixelStep at h
  split at h
  · split at h
    · cases h
      exact ((paint_frame _ _ _).calm hi).2.2.2
    · simp only at h
      split at h <;> cases h
      · exact ((paint_frame _ _ _).calm (by exact hi)).2.2.2
      · unfold State.absentAt
        split
        · exact hi
        · split
          · exact hi
          · exact ((putBytes_frame _ _).calm (by exact hi)).2.2.2
  · cases h

/-- Runs of steps, one after the other. -/
theorem runSteps_add (m n : Nat) (s : State) : runSteps (m + n) s = andThen (runSteps m s) (runSteps n) := by
  induction m generalizing s with
  | zero => simp [runSteps]
  | succ m ih =>
    rw [show m + 1 + n = (m + n) + 1 by omega]
    simp only [runSteps]
    cases step s <;> simp [ih]

end Sys2Proof.Machine
end

