-- ==== Sys2Proof/Machine/Assembly.lean ====
section
/-! DEFINITION. The assembler's notation (30_encoding.md R102): mnemonics, operands in the order of the format's
fields, responses. The pseudo-instructions SETUP and CYCLE (R103) stand in Schedule.lean. -/

namespace Sys2Proof.Machine

/-- Operands separated by commas (R102). -/
def operandText (ns : List Nat) : String := ", ".intercalate (ns.map toString)

/-- The names of the status registers (R102, 10_state.md R39); a number where there is none. -/
def registerText (reg : Nat) : String :=
  match reg with
  | 0 => "STATUS"
  | 1 => "CONFIG"
  | 2 => "STATIC_COLOR"
  | 3 => "FRAME_NUMBER"
  | 4 => "BUF_LEN"
  | n => toString n

/-- A command as the spec's programs write it (R102). -/
def assembly : Instr → String
  | .takeProducer => "TAKE_PRODUCER"
  | .takeConsumer => "TAKE_CONSUMER"
  | .scale blue red green bright => "SCALE " ++ operandText [blue.toNat, red.toNat, green.toNat, bright.toNat]
  | .encodePixel pix packed => "ENCODE_PIXEL " ++ operandText [pix, packed.toNat]
  | .rbReadableView => "RB_READABLE_VIEW"
  | .rbWritableView => "RB_WRITABLE_VIEW"
  | .rbRequestSwap => "RB_REQUEST_SWAP"
  | .rbCommitSwap => "RB_COMMIT_SWAP"
  | .rbLength => "RB_LENGTH"
  | .rbRead off => "RB_READ " ++ operandText [off]
  | .rbWrite off data => "RB_WRITE " ++ operandText [off, data.toNat]
  | .chRequestSwap => "CH_REQUEST_SWAP"
  | .chTrySwap => "CH_TRY_SWAP"
  | .computeFrame => "COMPUTE_FRAME"
  | .isAnimationFinished => "IS_ANIMATION_FINISHED"
  | .startFrame => "START_FRAME"
  | .rdReg reg => "RD_REG " ++ registerText reg

/-- The names of the status codes (60_exceptions.md R250). -/
def statusText : Status → String
  | .ok => "OK"
  | .absent => "ABSENT"
  | .notOwner => "NOT_OWNER"
  | .illegal => "ILLEGAL"
  | .range => "RANGE"
  | .configFatal => "CONFIG_FATAL"

/-- A response as the spec's programs write it (R102). -/
def responseText (r : Response) : String := "-> " ++ statusText r.status ++ " " ++ toString r.data.toNat

end Sys2Proof.Machine
end

