-- ==== Sys2Proof/Tests/Slice0.lean ====
section
/-! SUPPORT. The model's own tests. Expected values come from spec/95_test_vectors.md, whose part is named before each
group, or from the rule named. After them a witness for each statement with hypotheses: a concrete state and operands
that meet them all, for each clause and at the edges of its ranges. -/

namespace Sys2Proof.Tests

open Sys2Proof Sys2Proof.Machine

/-! ## Helpers -/

/-- What `f` sees in the next state, none where there is none. -/
def see {α : Type} (r : Result) (f : State → α) : Option α :=
  match r with
  | .next t => some (f t)
  | _ => none

/-- The fault an outcome stops with. -/
def stopped (r : Result) : Option Fault :=
  match r with
  | .fault f => some f
  | _ => none

/-- Whether a step is a next state in which `p` holds. -/
def stepsTo (s : State) (p : State → Bool) : Bool := (see (step s) p).getD false

/-- After SETUP: both handles taken. -/
def owned : State := { State.reset with producerTaken := true, consumerTaken := true }

/-- `owned` with the parameters changed. -/
def withPar (par : Params) : State := { owned with par := par }

/-- A channel whose frame does not fit: V8. -/
def tooLong : State :=
  State.resetWith { Params.default with bufLen := 3000 } { Configuration.worked with stripLength := 255 } 0

/-- A generator display of two pixels on frame 0: a colour at pixel 0, absent at pixel 1 and on frame 1. -/
def animated : State :=
  { owned with
    srcKind := .generator, stripLength := 2
    par := { Params.default with
      genTable := [⟨7, 2, 0, 0, some ⟨1, 0, 255⟩⟩, ⟨7, 2, 0, 1, none⟩, ⟨7, 2, 1, 0, none⟩] } }

/-- A producer between two pixels while the other region is in flight. -/
def busy : State :=
  { owned with
    compute := .pixel 1, started := true, buffer2 := ⟨[(0, 0xEF), (1, 0xEF)]⟩
    txRegion := some .one, txLen := 36, txNext := 5 }

/-- A command as the next input. -/
def deliverTo (s : State) (agent : Agent) (w : Word40) : State := { s with inputs := [.command agent w []] }

/-! ## Well-formedness: an ill-formed term for each check -/

theorem test_pix_too_wide : (Instr.encodePixel 256 0).wellFormed = false := by decide
theorem test_read_offset_too_wide : (Instr.rbRead 0x1000000).wellFormed = false := by decide
theorem test_write_offset_too_wide : (Instr.rbWrite 0x1000000 0).wellFormed = false := by decide
theorem test_register_too_wide : (Instr.rdReg 256).wellFormed = false := by decide
theorem test_frame_beyond_capacity :
    ({ Configuration.worked with stripLength := 255 }).fits { Params.default with bufLen := 3000 } = false ∧
    ({ Configuration.worked with stripLength := 250 }).fits { Params.default with bufLen := 3000 } = true := by decide

/-! ## Decoding: words of 95_test_vectors.md (V1 to V8, P1, P2) -/

theorem test_decode_takes : decode 0x0100000000 = .ok .takeProducer ∧ decode 0x0200000000 = .ok .takeConsumer := by
  decide
theorem test_decode_scale : decode 0x10FF8001FE = .ok (.scale 255 128 1 254) := by decide
theorem test_decode_encode_pixel :
    decode 0x1102FFFFFF = .ok (.encodePixel 2 0xFFFFFF) ∧ decode 0x11FE000000 = .ok (.encodePixel 254 0) := by decide
theorem test_decode_views :
    decode 0x2000000000 = .ok .rbReadableView ∧ decode 0x2100000000 = .ok .rbWritableView := by decide
theorem test_decode_buffer_swap :
    decode 0x2200000000 = .ok .rbRequestSwap ∧ decode 0x2300000000 = .ok .rbCommitSwap := by decide
theorem test_decode_length : decode 0x2400000000 = .ok .rbLength := by decide
theorem test_decode_read : decode 0x2500000BF4 = .ok (.rbRead 3060) := by decide
theorem test_decode_write :
    decode 0x260000015A = .ok (.rbWrite 1 0x5A) ∧ decode 0x26000BF3FF = .ok (.rbWrite 3059 0xFF) := by decide
theorem test_decode_channel_swap :
    decode 0x3000000000 = .ok .chRequestSwap ∧ decode 0x3100000000 = .ok .chTrySwap := by decide
theorem test_decode_compute : decode 0x4000000000 = .ok .computeFrame := by decide
theorem test_decode_consumer :
    decode 0x5000000000 = .ok .isAnimationFinished ∧ decode 0x5100000000 = .ok .startFrame := by decide
theorem test_decode_register : decode 0x6000000004 = .ok (.rdReg 4) ∧ decode 0x6000000005 = .ok (.rdReg 5) := by decide

theorem test_reserved_words_rejected :
    decode 0x0000000000 = .error .reservedOpcode ∧ decode 0xFFFFFFFFFF = .error .reservedOpcode := by decide
theorem test_mbz_words_rejected :
    decode 0x5100000001 = .error .mustBeZero ∧ decode 0x2501000000 = .error .mustBeZero ∧
    decode 0x6000000100 = .error .mustBeZero := by decide

/-! ## One command each (V1 to V11, P1, P6) -/

/-- V7, then 60_exceptions.md R252. -/
theorem test_take_producer :
    see (exec .takeProducer State.reset) (fun t => (t.response, t.statusReg)) = some (some ⟨.ok, 1⟩, 0x61) ∧
    see (exec .takeProducer owned) (fun t => t.response) = some (some ⟨.absent, 0⟩) := by decide

theorem test_take_consumer :
    see (exec .takeConsumer { State.reset with producerTaken := true }) (fun t => (t.response, t.statusReg)) =
      some (some ⟨.ok, 1⟩, 0xE1) := by decide

theorem test_scale :
    see (exec (.scale 255 128 1 254) State.reset) (fun t => t.response) = some (some ⟨.ok, 0x00FE7F00⟩) ∧
    see (exec (.scale 100 200 51 51) State.reset) (fun t => t.response) = some (some ⟨.ok, 0x0014280A⟩) := by decide

/-- V2: slot 2 of the inactive region; slot 255 is out of range. -/
theorem test_encode_pixel :
    see (exec (.encodePixel 2 0x123456) owned) (fun t => t.buffer2.cells.map Prod.snd) =
      some [0xEF, 0x0F, 0xEF, 0xE8, 0xEF, 0x08, 0x0F, 0xEF, 0x0F, 0x0F, 0x0F, 0xE8] ∧
    see (exec (.encodePixel 255 0) owned) (fun t => (t.response, t.buffer2)) =
      some (some ⟨.range, 0⟩, Memory.empty) := by decide

/-- V3. -/
theorem test_views :
    see (exec .rbReadableView owned) (fun t => t.response) = some (some ⟨.ok, 1⟩) ∧
    see (exec .rbWritableView owned) (fun t => t.response) = some (some ⟨.ok, 2⟩) := by decide

theorem test_request_swap :
    see (exec .rbRequestSwap owned) (fun t => (t.response, t.statusReg)) = some (some ⟨.ok, 0⟩, 0xF1) := by decide

theorem test_commit_swap :
    see (exec .rbCommitSwap { owned with swapPending := true }) (fun t => (t.response, t.statusReg)) =
      some (some ⟨.ok, 1⟩, 0xC1) ∧
    see (exec .rbCommitSwap owned) (fun t => (t.response, t.statusReg)) = some (some ⟨.ok, 0⟩, 0xE1) := by decide

theorem test_length : see (exec .rbLength State.reset) (fun t => t.response) = some (some ⟨.ok, 0xBF4⟩) := by decide

/-- P2: the byte written through the writable view is read after the swap. 92_eei_decisions.md D26: the read records its
misuse; 60_exceptions.md R265: out of range it records nothing. -/
theorem test_read :
    see (exec (.rbRead 3059) { owned with activeIs1 := false, buffer2 := ⟨[(3059, 0xFF)]⟩ })
      (fun t => (t.response, t.violations)) =
      some (some ⟨.ok, 0xFF⟩, { Violations.empty with primitiveMisuse := true }) ∧
    see (exec (.rbRead 3060) owned) (fun t => (t.response, t.violations)) =
      some (some ⟨.range, 0⟩, Violations.empty) := by decide

/-- V7. -/
theorem test_write :
    see (exec (.rbWrite 3059 0x11) owned) (fun t => (t.response, t.buffer2.cells, t.buffer1.cells)) =
      some (some ⟨.ok, 0⟩, [(3059, 0x11)], []) ∧
    see (exec (.rbWrite 3060 0x11) owned) (fun t => (t.response, t.buffer2.cells)) =
      some (some ⟨.range, 0⟩, []) := by decide

/-- V4. -/
theorem test_channel_request :
    see (exec .chRequestSwap owned) (fun t => (t.response, t.statusReg)) = some (some ⟨.ok, 0⟩, 0xF9) := by decide

theorem test_channel_try :
    see (exec .chTrySwap { owned with swapRequested := true, swapPending := true })
      (fun t => (t.response, t.statusReg, t.started)) = some (some ⟨.ok, 1⟩, 0xC1, true) ∧
    see (exec .chTrySwap owned) (fun t => (t.response, t.statusReg)) = some (some ⟨.ok, 0⟩, 0xE1) := by decide

/-- P1 lines 3 and 10: u1 stands at pixel 0; a closed gate is a no-op. -/
theorem test_compute_frame :
    see (exec .computeFrame owned) (fun t => (t.compute, t.statusReg)) = some (.pixel 0, 0xE1) ∧
    see (exec .computeFrame { owned with frameRequested := false }) (fun t => (t.response, t.compute)) =
      some (some ⟨.ok, 0⟩, .idle) := by decide

/-- P1 line 3, the micro-steps u2.0 (slot 0 of buffer_2), u3 and u4. -/
theorem test_pixel_step :
    see ({ owned with compute := .pixel 0 } : State).microStep (fun t => (t.buffer2.cells.map Prod.snd, t.compute)) =
      some ([0xEF, 0xEF, 0xE8, 0xE8, 0xEF, 0x0F, 0x0F, 0xEF, 0xEF, 0x0F, 0x08, 0xE8], .pixel 1) := by decide

theorem test_closing_steps :
    see ({ owned with compute := .count } : State).microStep (fun t => (t.statusReg, t.frameNumber)) =
      some (0xE0, 1) ∧
    see ({ owned with compute := .publish, frameRequested := false } : State).microStep
      (fun t => (t.statusReg, t.response)) = some (0xF8, some ⟨.ok, 1⟩) := by decide

/-- V10: both values of FRAME_WRAP at 2^32 - 1. -/
theorem test_counter_at_its_end :
    see ({ owned with compute := .count, frameNumber := 0xFFFFFFFF } : State).microStep (fun t => t.frameNumber) =
      some 0 ∧
    stopped ({ withPar { Params.default with frameWrap := .fault } with
      compute := .count, frameNumber := 0xFFFFFFFF } : State).microStep = some .frameCounterOverflow := by decide

/-- V5. -/
theorem test_finished_check :
    see (exec .isAnimationFinished { owned with lastFrameCalculated := true })
      (fun t => (t.response, t.lastFrameShown)) = some (some ⟨.ok, 0⟩, true) ∧
    see (exec .isAnimationFinished { owned with lastFrameCalculated := true, lastFrameShown := true })
      (fun t => t.response) = some (some ⟨.ok, 1⟩) := by decide

/-- P1 line 4; P6. -/
theorem test_start_frame :
    see (exec .startFrame { owned with frameRequested := false, swapRequested := true, swapPending := true })
      (fun t => (t.response, t.statusReg, t.txRegion, t.txLen, t.history)) =
        some (some ⟨.ok, 1⟩, 0xC1, some .two, 36, [.transfer .two 36]) ∧
    see (exec .startFrame owned) (fun t => (t.txRegion, t.violations)) =
      some (some .one, { Violations.empty with startBeforeFirstFrame := true }) := by decide

/-- V6. -/
theorem test_registers :
    see (exec (.rdReg 0) State.reset) (fun t => t.response) = some (some ⟨.ok, 0x21⟩) ∧
    see (exec (.rdReg 1) State.reset) (fun t => t.response) = some (some ⟨.ok, 0x01FF0307⟩) ∧
    see (exec (.rdReg 2) State.reset) (fun t => t.response) = some (some ⟨.ok, 0x000A141E⟩) ∧
    see (exec (.rdReg 5) State.reset) (fun t => t.response) = some (some ⟨.range, 0⟩) := by decide

/-- V8. -/
theorem test_capacity_fault :
    see (exec (.rdReg 0) tooLong) (fun t => t.response) = some (some ⟨.ok, 0x121⟩) ∧
    see (exec .takeProducer tooLong) (fun t => t.response) = some (some ⟨.configFatal, 0⟩) ∧
    see (runWord 0 tooLong) (fun t => t.response) = some (some ⟨.configFatal, 0⟩) := by decide

/-- V7: check 2 before check 3, check 3 before check 4. -/
theorem test_check_order :
    see (runWord 0x5100000001 State.reset) (fun t => t.response) = some (some ⟨.illegal, 0⟩) ∧
    see (runWord 0x2500000BF4 State.reset) (fun t => t.response) = some (some ⟨.notOwner, 0⟩) := by decide

/-- S6: the encoded pixel decodes back under both values of PAIR_D0_IS_LOW_BIT. -/
theorem test_static_pixel :
    encodePixel false 0x0A141E = [0xEF, 0xEF, 0x0F, 0x0F, 0xEF, 0xE8, 0xE8, 0xEF, 0xEF, 0xE8, 0x08, 0x0F] ∧
    decodePixel true (encodePixel true 0x0A141E) = some 0x0A141E ∧
    decodePixel false (encodePixel false 0x0A141E) = some 0x0A141E := by decide

/-- 20_memory.md R75 e: an engine step falls between two byte writes of a slot. -/
theorem test_engine_inside_a_slot :
    see ({ busy with inside := [1], buffer1 := ⟨[(5, 0xE8)]⟩ } : State).microStep (fun t => (t.txNext, t.history)) =
      some (6, [.txByte 5 0xE8]) := by decide

/-- 30_encoding.md R102. -/
theorem test_assembly :
    assembly (.rbWrite 3060 17) = "RB_WRITE 3060, 17" ∧ assembly (.rdReg 0) = "RD_REG STATUS" ∧
    responseText ⟨.range, 0⟩ = "-> RANGE 0" := by decide

/-- `withFetchWord` places a word that the next step runs, `decodeTableWord` reads it. -/
theorem test_fetch :
    see (step (State.reset.withFetchWord 40 0x0100000000)) (fun t => t.producerTaken) = some true ∧
    decodeTableWord 40 0x0100000000 = some .takeProducer := by decide

/-! ## Witnesses: the hypotheses of each statement are met -/

theorem witness_DecodeInvertsEncode :
    (Instr.encodePixel 255 0xFFFFFF).wellFormed = true ∧ (Instr.rbRead 0xFFFFFF).wellFormed = true ∧
    (Instr.rbWrite 0xFFFFFF 0xFF).wellFormed = true ∧ (Instr.rdReg 255).wellFormed = true := by decide

theorem witness_DecodedWordIsItsEncoding : decode 0x2500FFFFFF = .ok (.rbRead 0xFFFFFF) := by decide

theorem witness_StepRunsTheDecodedCommand :
    (deliverTo owned .consumer 0x5100000000).inputs = [.command .consumer 0x5100000000 []] ∧
    (deliverTo owned .consumer 0x5100000000).heldBack (.command .consumer 0x5100000000 []) = false ∧
    (deliverTo busy .consumer 0x5100000000).heldBack (.command .consumer 0x5100000000 []) = false ∧
    decode 0x5100000000 = .ok .startFrame := by decide

theorem witness_ProducerCommandWaitsForTheFrame :
    (deliverTo busy .producer 0x4000000000).inputs = [.command .producer 0x4000000000 []] ∧
    (deliverTo busy .producer 0x4000000000).compute ≠ .idle ∧ decode 0x4000000000 = .ok .computeFrame ∧
    classOf .computeFrame = .producer ∧
    stepsTo (deliverTo busy .producer 0x4000000000) (fun t => decide (t.compute = .pixel 2)) = true := by decide

/-- One word for each of the two reasons. -/
theorem witness_IllegalWordChangesNothing :
    (deliverTo owned .host 0).inputs = [.command .host 0 []] ∧
    (deliverTo owned .host 0).heldBack (.command .host 0 []) = false ∧
    (deliverTo owned .host 0).configFault = false ∧ (opcodeField 0).toNat ∉ definedOpcodes ∧
    (opcodeField 0x5100000001).toNat ∈ formatZOpcodes ∧ operandField 0x5100000001 ≠ 0 := by decide

theorem tooLong_sound : (deliverTo tooLong .host 0x0100000000).Sound where
  canonical1 := by decide
  canonical2 := by decide
  within1 := by decide
  within2 := by decide
  capacity := by decide
  cursor := trivial
  transferLen := by decide
  transferNext := by decide

theorem witness_CapacityFaultRefusesEveryCommand :
    tooLong.configFault = true ∧ opcodeField 0x0100000000 ≠ 0x60#8 ∧ opcodeField 0x6000000003 = 0x60#8 ∧
    (deliverTo tooLong .host 0x0100000000).Sound ∧ (deliverTo tooLong .host 0x0100000000).configFault = true ∧
    (deliverTo tooLong .host 0x0100000000).nextIsReset = false ∧
    stepsTo (deliverTo tooLong .host 0x0100000000) (fun t => t.configFault) = true :=
  ⟨by decide, by decide, by decide, tooLong_sound, by decide, by decide, by decide⟩

/-- One state and word for each check, the fourth at the first value out of range of each command; RD_REG under the
capacity fault; then commands that pass every check, at the last values in range. -/
theorem witness_ChecksComeInOrder :
    (tooLong.configFault = true ∧ opcodeField 0x5100000001 ≠ 0x60#8) ∧
    (¬(owned.configFault = true ∧ opcodeField 0x5100000001 ≠ 0x60#8) ∧ decode 0x5100000001 = .error .mustBeZero) ∧
    (decode 0x2500000BF4 = .ok (.rbRead 3060) ∧ State.reset.granted (classOf (.rbRead 3060)) = false) ∧
    (owned.granted .producer = true ∧ owned.granted .consumer = true ∧
      decode 0x11FF000000 = .ok (.encodePixel 255 0) ∧ owned.bufLen ≤ 12 * 255 + 11 ∧
      decode 0x2500000BF4 = .ok (.rbRead 3060) ∧ owned.bufLen ≤ 3060 ∧
      decode 0x26000BF411 = .ok (.rbWrite 3060 0x11) ∧ decode 0x6000000005 = .ok (.rdReg 5) ∧ 4 < 5) ∧
    (¬(tooLong.configFault = true ∧ opcodeField 0x6000000004 ≠ 0x60#8) ∧ decode 0x6000000004 = .ok (.rdReg 4)) ∧
    (decode 0x11FE000000 = .ok (.encodePixel 254 0) ∧ ¬owned.bufLen ≤ 12 * 254 + 11 ∧
      decode 0x2500000BF3 = .ok (.rbRead 3059) ∧ ¬owned.bufLen ≤ 3059 ∧
      see (runWord 0x2500000BF3 { owned with buffer1 := ⟨[(3059, 7)]⟩ }) (fun t => t.response) =
        some (some ⟨.ok, 7⟩) ∧
      see (runWord 0x4000000000 owned) (fun t => t.response) = some none) := by decide

theorem witness_FailedCommandChangesNothing :
    see (runWord 0x4000000000 State.reset) (fun t => t.response) = some (some ⟨.notOwner, 0⟩) ∧
    (Status.notOwner ≠ .ok) := by decide

theorem witness_EveryCommandAnswers :
    (Instr.computeFrame = .computeFrame → owned.par.preempt = .micro) ∧
    (Instr.startFrame = .computeFrame → (withPar { Params.default with preempt := .op }).par.preempt = .micro) := by
  decide

theorem busy_sound : busy.Sound where
  canonical1 := by decide
  canonical2 := by decide
  within1 := by decide
  within2 := by decide
  capacity := by decide
  cursor := show 1 < 3 ∧ busy.configFault = false by decide
  transferLen := by decide
  transferNext := by decide

/-- A producer inside a frame and a transfer in flight. -/
theorem witness_SoundMachineAlwaysSteps : busy.Sound ∧ busy.par.frameWrap = .wrap := ⟨busy_sound, by decide⟩

theorem witness_FetchedWordRunsNext :
    decode 0x4000000000 = .ok .computeFrame ∧ classOf .computeFrame = .producer ∧ busy.compute ≠ .idle := by decide

theorem witness_TakesGrantOnce :
    State.reset.configFault = false ∧ State.reset.producerTaken = false ∧ State.reset.consumerTaken = false ∧
    owned.configFault = false ∧ owned.producerTaken = true ∧ owned.consumerTaken = true := by decide

/-- For SCALE, RB_LENGTH and, with the handles, the views and the finished check. -/
theorem witness_ScaleRespondsThePackedValue : State.reset.configFault = false := by decide
theorem witness_LengthAnswersTheCapacity : State.reset.configFault = false := by decide

theorem witness_ViewsNameTheTwoRegions :
    owned.configFault = false ∧ owned.producerTaken = true ∧ owned.consumerTaken = true := by decide

/-- The last slot of the default region; a state with and one without engine steps inside. -/
theorem witness_EncodePixelStoresItsSlot :
    owned.configFault = false ∧ owned.producerTaken = true ∧ 12 * 254 + 11 < owned.bufLen ∧ owned.inside = [] ∧
    see (exec (.encodePixel 2 0) { busy with compute := .idle, inside := [0, 1], buffer1 := ⟨[(5, 7)]⟩ })
      (fun t => t.txNext) = some 6 := by decide

/-- The last byte of the region and the first beyond it. -/
theorem witness_ReadAnswersTheActiveByte :
    owned.configFault = false ∧ owned.consumerTaken = true ∧ 3059 < owned.bufLen ∧ owned.bufLen ≤ 3060 := by decide

theorem witness_WriteStoresOneInactiveByte :
    owned.configFault = false ∧ owned.producerTaken = true ∧ 3059 < owned.bufLen ∧ owned.bufLen ≤ 3060 := by decide

theorem witness_BufferSwapIsRequestedThenCommitted :
    owned.configFault = false ∧ owned.producerTaken = true ∧ owned.consumerTaken = true ∧
    owned.swapPending = false ∧ ({ busy with swapPending := true } : State).swapPending = true ∧
    ({ busy with swapPending := true } : State).consumerTaken = true ∧ busy.configFault = false := by decide

/-- A pattern as long as the region. -/
theorem witness_WrittenBytesAreReadAfterTheSwap :
    (withPar { Params.default with bufLen := 2 }).configFault = false ∧
    (withPar { Params.default with bufLen := 2 }).producerTaken = true ∧
    (withPar { Params.default with bufLen := 2 }).consumerTaken = true ∧
    [0xA5#8, 0x5A#8].length ≤ (withPar { Params.default with bufLen := 2 }).bufLen := by decide

theorem witness_ChannelSwapRearmsTheProducer :
    owned.configFault = false ∧ owned.producerTaken = true ∧ owned.consumerTaken = true ∧
    owned.swapPending = false ∧ ({ owned with swapPending := true } : State).swapPending = true := by decide

/-- The gate closed by either flag. -/
theorem witness_ClosedGateMakesComputeFrameANoOp :
    owned.configFault = false ∧ owned.producerTaken = true ∧
    ¬(({ owned with frameRequested := false } : State).frameRequested = true) ∧
    ¬(({ owned with lastFrameCalculated := true } : State).lastFrameCalculated = false) := by decide

/-- A strip of three pixels and an empty one. -/
theorem witness_OpenGateStartsTheFrame :
    owned.configFault = false ∧ owned.producerTaken = true ∧ owned.frameRequested = true ∧
    owned.lastFrameCalculated = false ∧ owned.par.preempt = .micro ∧ owned.stripLength ≠ 0 ∧
    ({ owned with stripLength := 0 } : State).stripLength = 0 := by decide

/-- A static display at the last slot; a generator that answers. -/
theorem witness_PresentPixelIsStoredInItsSlot :
    12 * 254 + 11 < ({ owned with compute := .pixel 254 } : State).bufLen ∧ owned.srcKind = .static ∧
    animated.srcKind = .generator ∧ animated.generate (BitVec.ofNat 8 0) = some ⟨1, 0, 255⟩ ∧
    animated.inside = [] := by decide

theorem witness_AbsentFinalPixelEndsTheAnimation :
    12 * 1 + 11 < animated.bufLen ∧ animated.srcKind = .generator ∧ animated.generate (BitVec.ofNat 8 1) = none ∧
    1 + 1 = animated.stripLength.toNat := by decide

/-- Frame 1, pixel 0, under both policies. -/
theorem witness_EarlyAbsentPixelFollowsThePolicy :
    12 * 0 + 11 < animated.bufLen ∧ animated.srcKind = .generator ∧
    ({ animated with frameNumber := 1 } : State).generate (BitVec.ofNat 8 0) = none ∧
    0 + 1 < animated.stripLength.toNat ∧ animated.par.earlyEnd = .skip ∧
    ({ animated.par with earlyEnd := .anyValue } : Params).earlyEnd = .anyValue := by decide

theorem witness_ClosingStepsCountAndRequestTheSwap :
    ({ owned with compute := .count, frameNumber := 0xFFFFFFFF } : State).par.frameWrap = .wrap ∧
    (withPar { Params.default with frameWrap := .fault }).par.frameWrap = .fault ∧
    (withPar { Params.default with frameWrap := .fault }).frameNumber ≠ 0xFFFFFFFF#32 ∧
    ({ owned with frameNumber := 0xFFFFFFFF } : State).frameNumber = 0xFFFFFFFF#32 := by decide

/-- A strip that fills its region to the last byte, taken as one step. -/
def oneStepFrame : State := withPar { Params.default with bufLen := 36, preempt := .op }

theorem witness_StaticFrameFillsEverySlot :
    oneStepFrame.Sound ∧ oneStepFrame.configFault = false ∧ oneStepFrame.producerTaken = true ∧
    oneStepFrame.frameRequested = true ∧ oneStepFrame.lastFrameCalculated = false ∧ oneStepFrame.par.preempt = .op ∧
    oneStepFrame.srcKind = .static ∧ oneStepFrame.par.frameWrap = .wrap ∧ oneStepFrame.inside = [] := by
  refine ⟨⟨by decide, by decide, by decide, by decide, by decide, trivial, by decide, by decide⟩, ?_⟩
  decide

theorem witness_MicroStepsAddUpToTheWholeFrame :
    owned.compute = .idle ∧ owned.inputs = [] ∧ owned.inside = [] ∧ owned.par.preempt = .micro ∧
    see (exec .computeFrame owned) (fun u => decide (u.compute ≠ .idle)) = some true ∧
    see (exec .computeFrame (withPar { Params.default with preempt := .op })) (fun t => t.frameNumber) = some 1 := by
  decide

theorem witness_FinishedCheckFollowsItsTruthTable : owned.configFault = false ∧ owned.consumerTaken = true := by decide

theorem witness_FinishedStartFrameDoesNothing :
    ({ owned with lastFrameShown := true } : State).configFault = false ∧
    ({ owned with lastFrameShown := true } : State).consumerTaken = true ∧
    ({ owned with lastFrameShown := true } : State).lastFrameShown = true := by decide

theorem witness_StartFrameSwapsAndTransfers :
    owned.configFault = false ∧ owned.consumerTaken = true ∧ owned.lastFrameShown = false := by decide

/-- A transfer of three bytes and one of none. -/
theorem witness_EngineSendsTheRegionInOrder :
    ({ owned with txRegion := some .one, txLen := 3 } : State).inputs = [] ∧ owned.compute = .idle ∧
    ({ owned with txRegion := some .one, txLen := 3 } : State).txRegion = some .one ∧ owned.txNext = 0 ∧
    (3#32).toNat ≤ owned.bufLen ∧ (0#32).toNat ≤ owned.bufLen := by decide

/-- One command of each class that answers. -/
theorem witness_ClassesChangeOnlyWhatIsTheirs :
    see (exec .takeProducer State.reset) (fun t => t.producerTaken) = some true ∧ classOf .takeProducer = .host ∧
    see (exec (.rbWrite 0 1) owned) (fun t => t.buffer2.cells) = some [(0, 1)] ∧ classOf (.rbWrite 0 1) = .producer ∧
    see (exec .startFrame owned) (fun t => t.txRegion) = some (some .one) ∧ classOf .startFrame = .consumer := by decide

/-- A swap that rearms the producer, u3, u2 at the end of the animation, the grace check. -/
theorem witness_LifecycleFlagsMoveAsStated :
    stepsTo { deliverTo owned .consumer 0x5100000000 with frameRequested := false, swapPending := true }
      (fun t => t.frameRequested) = true ∧
    stepsTo { owned with compute := .count } (fun t => !t.frameRequested) = true ∧
    stepsTo { animated with compute := .pixel 1 } (fun t => t.lastFrameCalculated) = true ∧
    stepsTo { deliverTo owned .consumer 0x5000000000 with lastFrameCalculated := true } (fun t => t.lastFrameShown) =
      true ∧
    (deliverTo owned .consumer 0x5100000000).nextIsReset = false ∧ owned.nextIsReset = false := by decide

theorem witness_SwapFlagsMoveAsStated :
    stepsTo { deliverTo owned .consumer 0x5100000000 with swapRequested := true, swapPending := true }
      (fun t => !t.activeIs1 && !t.swapPending && !t.swapRequested) = true ∧
    (deliverTo owned .consumer 0x5100000000).nextIsReset = false := by decide

theorem witness_ConfigurationAndGrantsPersist :
    stepsTo (deliverTo owned .host 0x0100000000) (fun t => t.producerTaken && t.consumerTaken) = true ∧
    (deliverTo owned .host 0x0100000000).nextIsReset = false := by decide

theorem witness_ActiveRegionIsNeverWritten :
    stepsTo busy (fun t => decide (t.buffer2.cells.length = 14)) = true ∧ busy.nextIsReset = false := by decide

theorem witness_StoppedChannelTransfersNothing :
    stepsTo { deliverTo owned .consumer 0x5100000000 with lastFrameShown := true, lastFrameCalculated := true }
      (fun t => decide (t.txRegion = none)) = true ∧
    (deliverTo owned .consumer 0x5100000000).nextIsReset = false := by decide

theorem witness_LifecycleNeverGoesBack :
    stepsTo { deliverTo owned .consumer 0x5000000000 with lastFrameCalculated := true }
      (fun t => decide (t.lifecycle = .stopped)) = true ∧
    (deliverTo owned .consumer 0x5000000000).nextIsReset = false := by decide

/-- The end of program P3. -/
def endedRun : State :=
  { owned with lastFrameCalculated := true, lastFrameShown := true, started := true, frameNumber := 2 }

theorem witness_EndedRunIsFinal :
    endedRun.ended = true ∧ endedRun.Protocol ∧ endedRun.disciplinedCommand .computeFrame = true ∧
    see (exec .computeFrame endedRun) (fun t => t.response) = some (some ⟨.ok, 0⟩) := by
  refine ⟨by decide, ⟨by decide, rfl, by decide, by decide, ?_⟩, by decide, by decide⟩
  intro r h
  cases h

theorem witness_EveryStepKeepsTheMachineSound : busy.Sound ∧ stepsTo busy (fun t => decide (t.compute = .pixel 2)) = true :=
  ⟨busy_sound, by decide⟩

theorem busy_protocol : busy.Protocol where
  i1 := by decide
  i2 := ⟨rfl, rfl⟩
  i3 := by decide
  i4 := by decide
  i5 := fun r h => by
    cases h
    decide

/-- The consumer reads byte 1 of the region in flight while the producer is between two pixels. -/
def busyReading : State := { deliverTo busy .consumer 0x2500000001 with buffer1 := ⟨[(1, 0xE8)]⟩ }

theorem busyReading_protocol : busyReading.Protocol where
  i1 := by decide
  i2 := ⟨rfl, rfl⟩
  i3 := by decide
  i4 := by decide
  i5 := fun r h => by
    cases h
    decide

/-- A producer micro-step, and an RB_READ. -/
theorem witness_DisciplinedStepKeepsTheProtocol :
    (busy.Protocol ∧ busy.disciplined = true ∧ stepsTo busy (fun t => decide (t.compute = .pixel 2)) = true) ∧
    (busyReading.Protocol ∧ busyReading.disciplined = false ∧ busyReading.nextReads = true ∧
      stepsTo busyReading (fun t => decide (t.response = some ⟨.ok, 0xE8⟩)) = true) :=
  ⟨⟨busy_protocol, by decide, by decide⟩, busyReading_protocol, by decide, by decide, by decide⟩

/-- A run that has come to pixel 0 of its first frame. -/
theorem witness_DisciplinedRunNeverWritesTheRegionInFlight : ∃ s, DisciplinedRun s ∧ s.compute = .pixel 0 :=
  ⟨_, .step _ _ (.step _ _ (.created Params.default Configuration.worked 0
      [.command .host 0x0100000000 [], .command .producer 0x4000000000 []]) rfl rfl) rfl rfl, rfl⟩

/-- A generator display of one pixel, the producer about to issue a COMPUTE_FRAME. -/
def lonePixel : State :=
  { deliverTo owned .producer 0x4000000000 with srcKind := .generator, stripLength := 1 }

theorem busy_underDiscipline : busy.UnderDiscipline :=
  ⟨by decide, by decide, fun h => absurd h (by decide), by decide⟩

theorem lonePixel_underDiscipline : lonePixel.UnderDiscipline :=
  ⟨by decide, by decide, fun _ _ p h => absurd h (by show ¬p + 1 < 1; omega), by decide⟩

/-- A static display inside a frame with a transfer in flight; a generator at the start of one. -/
theorem witness_StepUnderDisciplineRecordsNoViolation :
    (busy.Sound ∧ busy.Protocol ∧ busy.violations = Violations.empty ∧ busy.UnderDiscipline ∧
      stepsTo busy (fun t => decide (t.compute = .pixel 2)) = true) ∧
    (lonePixel.Sound ∧ lonePixel.Protocol ∧ lonePixel.violations = Violations.empty ∧ lonePixel.UnderDiscipline ∧
      stepsTo lonePixel (fun t => decide (t.compute = .pixel 0)) = true) := by
  refine ⟨⟨busy_sound, busy_protocol, by decide, busy_underDiscipline, by decide⟩, ?_, ?_, by decide,
    lonePixel_underDiscipline, by decide⟩
  · exact ⟨by decide, by decide, by decide, by decide, by decide, trivial, by decide, by decide⟩
  · exact ⟨by decide, rfl, by decide, by decide, fun r h => by cases h⟩

/-- A run under R37's definition that has come to pixel 0 of its first frame. -/
theorem test_run_under_discipline : ∃ s, RunUnderDiscipline s ∧ s.compute = .pixel 0 :=
  ⟨_, .step _ _ (.step _ _ (.created Params.default Configuration.worked 0
      [.command .host 0x0100000000 [], .command .producer 0x4000000000 []] (by decide))
      ⟨by decide, by decide, fun h => absurd h (by decide), by decide⟩ rfl)
      ⟨by decide, by decide, fun h => absurd h (by decide), by decide⟩ rfl, rfl⟩

/-- 70_reset_and_hazards.md R290: a command without its handle or by the other context, a reset that does not fit. -/
theorem test_host_duties :
    (deliverTo State.reset .producer 0x4000000000).dutiful = false ∧
    (deliverTo owned .consumer 0x4000000000).dutiful = false ∧
    (deliverTo owned .producer 0x4000000000).dutiful = true ∧
    ({ owned with inputs := [.reset { Params.default with bufLen := 35 } Configuration.worked] } : State).dutiful =
      false := by decide

theorem witness_DisciplinedStepKeepsTheRegionInFlightApart :
    busy.Protocol ∧ busy.cleanButEarlyEnd ∧ busy.disciplined = true ∧
    stepsTo busy (fun t => decide (t.compute = .pixel 2)) = true :=
  ⟨busy_protocol, rfl, by decide, by decide⟩

/-- The engine stands at the given offset of the region written, its one step planned after six writes. -/
def readWhileWritten (off : Nat) : State :=
  { owned with
    txRegion := some .two, txLen := 36, txNext := off, buffer2 := ⟨[(off, 7)]⟩, inside := List.replicate 5 0 ++ [1] }

/-- Slot 2: the sixth write is at offset 30, so offset 30 is sent new and offset 29 old (41_bit_encoder.md R133). -/
theorem witness_EncodePixelWritesItsHighestByteFirst :
    (readWhileWritten 30).configFault = false ∧ (readWhileWritten 30).producerTaken = true ∧
    12 * 2 + 11 < (readWhileWritten 30).bufLen ∧ 5 < 12 ∧ (readWhileWritten 30).inside = List.replicate 5 0 ++ [1] ∧
    (readWhileWritten 30).txRegion = some (readWhileWritten 30).inactive ∧
    (readWhileWritten 30).txNext < (readWhileWritten 30).txLen.toNat ∧
    (readWhileWritten 30).txNext < (readWhileWritten 30).bufLen ∧
    see (exec (.encodePixel 2 0) (readWhileWritten 30)) (fun t => t.history) = some [.txByte 30 0xEF] ∧
    see (exec (.encodePixel 2 0) (readWhileWritten 29)) (fun t => t.history) = some [.txByte 29 7] := by decide

/-- The step sends byte 5 of the region in flight; an RB_READ of a region in flight. -/
theorem witness_RegionInFlightStandsStill :
    busy.Protocol ∧ ({ busy with inputs := [.engine] } : State).disciplined = true ∧
    stepsTo { busy with inputs := [.engine], buffer1 := ⟨[(5, 0xE8)]⟩ }
      (fun t => decide (t.history = [.txByte 5 0xE8])) = true ∧
    ({ busy with inputs := [.engine] } : State).nextIsReset = false ∧ busy.txRegion = some .one ∧
    busyReading.Protocol ∧ busyReading.nextReads = true ∧ busyReading.txRegion = some .one ∧
    stepsTo busyReading (fun t => decide (t.buffer1.cells = [(1, 0xE8)])) = true ∧ busyReading.nextIsReset = false :=
  ⟨busy_protocol, by decide, by decide, by decide, by decide, busyReading_protocol, by decide, by decide, by decide,
    by decide⟩

/-- Both kinds of source, and a content given for the regions. -/
theorem witness_ResetPutsEveryPieceAtItsValue :
    ({ Configuration.worked with source := .generator } : Configuration).source = .generator ∧
    Configuration.worked.source = .static 0x0A141E ∧ Params.default.bufReset = .unspecified ∧
    (State.resetWith { Params.default with bufReset := .content [1, 2] [3] } Configuration.worked 0).buffer1.cells =
      [(0, 1), (1, 2)] ∧ 1 < State.reset.bufLen := by decide

theorem witness_ResetInputCreatesANewChannel :
    stepsTo { busy with inputs := [.reset Params.default Configuration.worked] }
      (fun t => decide (t = { State.reset with epoch := 1 })) = true := by decide

end Sys2Proof.Tests
end

/-! PROOF. What only a reset changes: the parameters, the configuration registers, `config_fault` and the grants
(00_scope.md R7, 10_state.md R35, R40, 43_ownership_gate.md R164). -/

namespace Sys2Proof.Machine

/-- The fields a channel is created with: parameters, life number, configuration registers, `config_fault`. -/
def State.settings (s : State) : Params × Nat × Byte × Byte × Byte × SourceKind × Word24 × Bool :=
  (s.par, s.epoch, s.stripId, s.stripLength, s.brightness, s.srcKind, s.staticColor, s.configFault)

theorem settings_eq_iff {s t : State} :
    t.settings = s.settings ↔
      t.par = s.par ∧ t.epoch = s.epoch ∧ t.stripId = s.stripId ∧ t.stripLength = s.stripLength ∧
      t.brightness = s.brightness ∧ t.srcKind = s.srcKind ∧ t.staticColor = s.staticColor ∧
      t.configFault = s.configFault := by
  simp only [State.settings, Prod.mk.injEq]

/-- `t` has the settings of `s`, and no grant of `s` is taken back. A record update that names none of these fields
meets it by `⟨rfl, id, id⟩`. -/
structure SettingsPersist (s t : State) : Prop where
  settings : t.settings = s.settings
  producer : s.producerTaken = true → t.producerTaken = true
  consumer : s.consumerTaken = true → t.consumerTaken = true

theorem SettingsPersist.trans {s t u : State} (h1 : SettingsPersist s t) (h2 : SettingsPersist t u) :
    SettingsPersist s u :=
  ⟨h2.settings.trans h1.settings, h2.producer ∘ h1.producer, h2.consumer ∘ h1.consumer⟩

/-! ## The shared operations -/

theorem answer_settingsPersist (s : State) (st : Status) (d : Word32) : SettingsPersist s (s.answer st d) :=
  ⟨rfl, id, id⟩

theorem Answered.settingsPersist {s t : State} (h : Answered s t) : SettingsPersist s t := by
  obtain ⟨d, rfl⟩ := h
  exact answer_settingsPersist s .ok d

theorem violate_settingsPersist (s : State) (v : Violation) : SettingsPersist s (s.violate v) := ⟨rfl, id, id⟩

theorem EngineFrame.settingsPersist {s t : State} (h : EngineFrame s t) : SettingsPersist s t := by
  rw [h.same]
  exact ⟨rfl, id, id⟩

theorem PutFrame.settingsPersist {s t : State} (h : PutFrame s t) : SettingsPersist s t := by
  rw [h.same]
  exact ⟨rfl, id, id⟩

theorem PixelFrame.settingsPersist {s t : State} (h : PixelFrame s t) : SettingsPersist s t := by
  rw [h.same]
  exact ⟨rfl, id, id⟩

theorem commitSwap_settingsPersist (s : State) : SettingsPersist s s.commitSwap := by
  rw [commitSwap_eq]
  exact ⟨rfl, id, id⟩

theorem trySwap_settingsPersist (s : State) : SettingsPersist s s.trySwap := by
  rw [trySwap_eq]
  exact ⟨rfl, id, id⟩

theorem graceCheck_settingsPersist (s : State) : SettingsPersist s s.graceCheck := by
  rw [graceCheck_eq]
  exact ⟨rfl, id, id⟩

theorem showFrame_settingsPersist (s : State) : SettingsPersist s s.showFrame := by
  refine (trySwap_settingsPersist s).trans ?_
  unfold State.showFrame
  rw [startTransfer_eq, violateIf_eq]
  exact ⟨rfl, id, id⟩

/-! ## Commands, micro-steps and steps -/

/-- Of the commands that run, the two takes alone write one of these fields, and they only set it. -/
theorem Ran.settingsPersist {i : Instr} {s t : State} (h : Ran i s t) : SettingsPersist s t := by
  have misuse := violate_settingsPersist s .primitiveMisuse
  cases i with
  | takeProducer =>
    cases h
    exact ⟨rfl, fun _ => rfl, id⟩
  | takeConsumer =>
    cases h
    exact ⟨rfl, id, fun _ => rfl⟩
  | scale _ _ _ _ => exact Answered.settingsPersist h
  | rbLength => exact Answered.settingsPersist h
  | rdReg _ => exact Answered.settingsPersist h
  | rbReadableView =>
    obtain ⟨_, answered⟩ := h
    exact answered.settingsPersist
  | rbWritableView =>
    obtain ⟨_, answered⟩ := h
    exact answered.settingsPersist
  | rbRead _ =>
    obtain ⟨_, _, answered⟩ := h
    exact misuse.trans answered.settingsPersist
  | encodePixel pix packed =>
    obtain ⟨_, _, rfl⟩ := h
    exact (misuse.trans (putPixel_frame _ pix packed).settingsPersist).trans (answer_settingsPersist ..)
  | rbWrite off data =>
    obtain ⟨_, _, rfl⟩ := h
    exact (misuse.trans (putByte_frame _ off data).settingsPersist).trans (answer_settingsPersist ..)
  | rbRequestSwap =>
    obtain ⟨_, rfl⟩ := h
    exact ⟨rfl, id, id⟩
  | chRequestSwap =>
    obtain ⟨_, rfl⟩ := h
    exact ⟨rfl, id, id⟩
  | rbCommitSwap =>
    obtain ⟨_, rfl⟩ := h
    exact (misuse.trans (commitSwap_settingsPersist _)).trans (answer_settingsPersist ..)
  | chTrySwap =>
    obtain ⟨_, rfl⟩ := h
    exact (misuse.trans (trySwap_settingsPersist _)).trans (answer_settingsPersist ..)
  | computeFrame =>
    obtain ⟨_, ⟨_, answered⟩ | ⟨_, _, rfl⟩ | ⟨_, _, u, _, painted, rfl⟩⟩ := h
    · exact answered.settingsPersist
    · exact ⟨rfl, id, id⟩
    · exact painted.settingsPersist.trans ⟨rfl, id, id⟩
  | isAnimationFinished =>
    obtain ⟨_, rfl⟩ := h
    exact (graceCheck_settingsPersist s).trans (answer_settingsPersist ..)
  | startFrame =>
    obtain ⟨_, ⟨_, answered⟩ | ⟨_, rfl⟩⟩ := h
    · exact answered.settingsPersist
    · exact ((graceCheck_settingsPersist s).trans (showFrame_settingsPersist _)).trans (answer_settingsPersist ..)

theorem exec_settingsPersist {i : Instr} {s t : State} (h : exec i s = .next t) : SettingsPersist s t := by
  rcases exec_cases h with ⟨st, _, rfl⟩ | ⟨_, ran⟩
  · exact answer_settingsPersist s st 0
  · exact ran.settingsPersist

theorem runWord_settingsPersist {w : Word40} {s t : State} (h : runWord w s = .next t) : SettingsPersist s t := by
  rcases runWord_cases h with ⟨i, _, executed⟩ | ⟨_, st, _, _, rfl⟩
  · exact exec_settingsPersist executed
  · exact answer_settingsPersist s st 0

theorem microStep_settingsPersist {s t : State} (h : s.microStep = .next t) : SettingsPersist s t := by
  rcases microStep_cases h with ⟨_, rfl⟩ | ⟨p, u, _, _, painted, rfl⟩ | ⟨_, rfl⟩ | ⟨_, rfl⟩
  · exact ⟨rfl, id, id⟩
  · exact painted.settingsPersist.trans ⟨rfl, id, id⟩
  · exact ⟨rfl, id, id⟩
  · exact ⟨rfl, id, id⟩

/-- Before and after the step's own work only the coming inputs, `inside` and the history change. -/
theorem step_settingsPersist {s t : State} (h : step s = .next t) (hr : s.nextIsReset = false) :
    SettingsPersist s t := by
  rcases step_cases h with ⟨par, cfg, rest, hi, _⟩ | ⟨ins, _, rfl⟩ | ⟨ins, inside, u, _, hu, rfl⟩ |
      ⟨agent, w, inside, rest, u, _, _, hu, rfl⟩
  · simp [State.nextIsReset, hi] at hr
  · have taken : SettingsPersist s { s with inputs := ins } := ⟨rfl, id, id⟩
    exact taken.trans (engineStep_frame _).settingsPersist
  · have taken : SettingsPersist s { s with inputs := ins, inside := inside } := ⟨rfl, id, id⟩
    exact (taken.trans (microStep_settingsPersist hu)).trans ⟨rfl, id, id⟩
  · have taken : SettingsPersist s { s with inputs := rest, inside := inside } := ⟨rfl, id, id⟩
    exact (taken.trans (runWord_settingsPersist hu)).trans ⟨rfl, id, id⟩

/-- Settles O45: `SettingsPersist` holds of every step but a reset, by `step_cases` and `exec_cases`. -/
theorem configurationAndGrantsPersist : Obligations.ConfigurationAndGrantsPersist := by
  unfold Obligations.ConfigurationAndGrantsPersist
  intro s t h hr
  obtain ⟨settings, producer, consumer⟩ := step_settingsPersist h hr
  obtain ⟨par, epoch, stripId, stripLength, brightness, srcKind, staticColor, configFault⟩ := settings_eq_iff.mp settings
  exact ⟨par, epoch, stripId, stripLength, brightness, srcKind, staticColor, configFault, producer, consumer⟩

end Sys2Proof.Machine

/-! PROOF. How the lifecycle flags and the swap flags can move, said once for every step but a reset
(10_state.md R29 to R34). -/

namespace Sys2Proof.Machine

/-- The lifecycle and swap flags with the frame counter. -/
structure Flags where
  frameRequested : Bool
  lastFrameCalculated : Bool
  lastFrameShown : Bool
  swapRequested : Bool
  activeIs1 : Bool
  swapPending : Bool
  frameNumber : Word32

/-- The flags of a state. -/
def State.flags (s : State) : Flags where
  frameRequested := s.frameRequested
  lastFrameCalculated := s.lastFrameCalculated
  lastFrameShown := s.lastFrameShown
  swapRequested := s.swapRequested
  activeIs1 := s.activeIs1
  swapPending := s.swapPending
  frameNumber := s.frameNumber

/-- The ways one step moves the flags `f`. `ended` says that the generator was seen to end the animation, `still` that
no byte of either region moved. -/
inductive FlagsMove (ended still : Prop) (f : Flags) : Flags → Prop where
  | stay : FlagsMove ended still f f
  /-- A swap is requested: R168 sets both flags, R149 `swap_pending` alone. -/
  | request (r : Bool) (kept : f.swapRequested = true → r = true) :
    FlagsMove ended still f { f with swapRequested := r, swapPending := true }
  /-- R150: a pending swap is committed by the primitive. -/
  | commit (pending : f.swapPending = true) (bytes : still) :
    FlagsMove ended still f { f with activeIs1 := !f.activeIs1, swapPending := false }
  /-- R170: a pending swap is performed, in a START_FRAME together with the grace check of R200. -/
  | swap (shown : Bool) (grace : shown = f.lastFrameShown ∨ shown = (f.lastFrameShown || f.lastFrameCalculated))
    (pending : f.swapPending = true) (bytes : still) :
    FlagsMove ended still f { f with
      activeIs1 := !f.activeIs1, swapPending := false, swapRequested := false, frameRequested := true
      lastFrameShown := shown }
  /-- R200: the grace check. -/
  | grace : FlagsMove ended still f { f with lastFrameShown := f.lastFrameShown || f.lastFrameCalculated }
  /-- R184: the absent answer at the last pixel. -/
  | absent (found : ended) : FlagsMove ended still f { f with lastFrameCalculated := true }
  /-- R186, micro-step u3. -/
  | count : FlagsMove ended still f { f with frameNumber := f.frameNumber + 1, frameRequested := false }
  /-- A COMPUTE_FRAME taken as one step: its pixels, u3, u4. -/
  | frame (c : Bool) (pixels : c = f.lastFrameCalculated ∨ c = true ∧ ended) :
    FlagsMove ended still f { f with
      lastFrameCalculated := c, frameNumber := f.frameNumber + 1, frameRequested := false, swapRequested := true
      swapPending := true }

theorem FlagsMove.mono {ended ended' still still' : Prop} {f f' : Flags} (h : FlagsMove ended still f f')
    (he : ended → ended') (hs : still → still') : FlagsMove ended' still' f f' := by
  cases h with
  | stay => exact .stay
  | request r kept => exact .request r kept
  | commit pending bytes => exact .commit pending (hs bytes)
  | swap shown grace pending bytes => exact .swap shown grace pending (hs bytes)
  | grace => exact .grace
  | absent found => exact .absent (he found)
  | count => exact .count
  | frame c pixels => exact .frame c (pixels.imp_right (.imp_right he))

/-- R29: `frame_requested` is set by a performed swap and cleared where the frame is counted. -/
theorem FlagsMove.frameRequested {ended still : Prop} {f f' : Flags} (h : FlagsMove ended still f f') :
    (f.frameRequested = false → f'.frameRequested = true →
      f.swapPending = true ∧ f'.swapPending = false ∧ f'.activeIs1 = !f.activeIs1) ∧
    (f.frameRequested = true → f'.frameRequested = false → f'.frameNumber = f.frameNumber + 1) := by
  cases h with
  | swap shown grace pending bytes => exact ⟨fun _ _ => ⟨pending, rfl, rfl⟩, by simp⟩
  | count => exact ⟨by simp, fun _ _ => rfl⟩
  | frame c pixels => exact ⟨by simp, fun _ _ => rfl⟩
  | _ => simp +contextual

/-- R30: `last_frame_calculated` stays once set, and is set where the generator ends the animation. -/
theorem FlagsMove.lastFrameCalculated {ended still : Prop} {f f' : Flags} (h : FlagsMove ended still f f') :
    (f.lastFrameCalculated = true → f'.lastFrameCalculated = true) ∧
    (f.lastFrameCalculated = false → f'.lastFrameCalculated = true → ended) := by
  cases h with
  | absent found => exact ⟨fun _ => rfl, fun _ _ => found⟩
  | frame c pixels =>
    obtain rfl | ⟨rfl, found⟩ := pixels
    · simp +contextual
    · exact ⟨fun _ => rfl, fun _ _ => found⟩
  | _ => simp +contextual

/-- R31: `last_frame_shown` stays once set, and is set only after `last_frame_calculated`. -/
theorem FlagsMove.lastFrameShown {ended still : Prop} {f f' : Flags} (h : FlagsMove ended still f f') :
    (f.lastFrameShown = true → f'.lastFrameShown = true) ∧
    (f.lastFrameShown = false → f'.lastFrameShown = true → f.lastFrameCalculated = true) := by
  cases h with
  | swap shown grace pending bytes => rcases grace with rfl | rfl <;> simp +contextual
  | _ => simp +contextual

/-- R32 to R34: the selector changes exactly where `swap_pending` is cleared, `swap_requested` is cleared only there,
and no byte moves with it. -/
theorem FlagsMove.swapFlags {ended still : Prop} {f f' : Flags} (h : FlagsMove ended still f f') :
    (f'.activeIs1 = !f.activeIs1 ↔ f.swapPending = true ∧ f'.swapPending = false) ∧
    (f.swapRequested = true → f'.swapRequested = false → f.swapPending = true ∧ f'.swapPending = false) ∧
    (f'.activeIs1 = !f.activeIs1 → still) := by
  cases h with
  | commit pending bytes => exact ⟨by simp [pending], by simp [pending], fun _ => bytes⟩
  | swap shown grace pending bytes => exact ⟨by simp [pending], by simp [pending], fun _ => bytes⟩
  | request r kept => simp +contextual [kept]
  | _ => simp +contextual

/-! ## The flags after each shared operation -/

theorem EngineFrame.flags_eq {s t : State} (h : EngineFrame s t) : t.flags = s.flags := by
  rw [h.same]
  rfl

theorem PutFrame.flags_eq {s t : State} (h : PutFrame s t) : t.flags = s.flags := by
  rw [h.same]
  rfl

theorem PixelFrame.flags_eq {s t : State} (h : PixelFrame s t) :
    t.flags = { s.flags with lastFrameCalculated := t.lastFrameCalculated } := by
  rw [h.same]
  rfl

theorem commitSwap_flags (s : State) :
    s.commitSwap.flags =
      if s.swapPending then { s.flags with activeIs1 := !s.activeIs1, swapPending := false } else s.flags := by
  rw [commitSwap_eq]
  cases h : s.swapPending <;> simp [State.flags, h]

theorem trySwap_flags (s : State) :
    s.trySwap.flags =
      if s.swapPending then
        { s.flags with
          activeIs1 := !s.activeIs1, swapPending := false, swapRequested := false, frameRequested := true }
      else s.flags := by
  rw [trySwap_eq]
  cases h : s.swapPending <;> simp [State.flags, h]

theorem graceCheck_flags (s : State) :
    s.graceCheck.flags = { s.flags with lastFrameShown := s.lastFrameShown || s.lastFrameCalculated } := by
  rw [graceCheck_eq]
  rfl

/-- The transfer moves no flag, so the swap decides. -/
theorem showFrame_flags (s : State) : s.showFrame.flags = s.trySwap.flags := by
  unfold State.showFrame
  rw [startTransfer_eq, violateIf_eq]
  rfl

/-! ## No swap and no transfer moves a byte (20_memory.md R73) -/

theorem commitSwap_sameBytes (s : State) : SameBytes s s.commitSwap := by
  rw [commitSwap_eq]
  exact fun _ _ => readByte_congr rfl rfl rfl ..

theorem trySwap_sameBytes (s : State) : SameBytes s s.trySwap := by
  rw [trySwap_eq]
  exact fun _ _ => readByte_congr rfl rfl rfl ..

theorem graceCheck_showFrame_sameBytes (s : State) : SameBytes s s.graceCheck.showFrame := by
  unfold State.showFrame
  rw [startTransfer_eq, violateIf_eq, trySwap_eq, graceCheck_eq]
  exact fun _ _ => readByte_congr rfl rfl rfl ..

/-! ## Where the end of the animation is found -/

/-- Pixels move one flag at most, and only where they find the end. -/
theorem PixelFrame.calculated_cases {s t : State} (h : PixelFrame s t)
    (found : s.lastFrameCalculated = false → t.lastFrameCalculated = true → EndFound s t) :
    t.lastFrameCalculated = s.lastFrameCalculated ∨ t.lastFrameCalculated = true ∧ EndFound s t := by
  cases hs : s.lastFrameCalculated
  · cases ht : t.lastFrameCalculated
    · exact .inl rfl
    · exact .inr ⟨rfl, found hs ht⟩
  · exact .inl (h.calculated hs)

/-- Events after the end of the animation was found. -/
theorem EndFound.later {s t u : State} {es : List Event} (h : EndFound s t) (hu : u.history = t.history ++ es) :
    EndFound s u := by
  obtain ⟨generator, nonempty, es0, ht, asked⟩ := h
  exact ⟨generator, nonempty, es0 ++ es, by rw [hu, ht, List.append_assoc], List.mem_append_left _ asked⟩

/-! ## Commands, micro-steps and steps -/

/-- How the flags move between two states. -/
abbrev Moves (s t : State) : Prop := FlagsMove (EndFound s t) (SameBytes s t) s.flags t.flags

theorem Moves.of_eq {s t : State} (h : t.flags = s.flags) : Moves s t := by
  unfold Moves
  rw [h]
  exact .stay

theorem Answered.moves {s t : State} (h : Answered s t) : Moves s t := by
  obtain ⟨_, rfl⟩ := h
  exact .of_eq rfl

theorem commitSwap_moves (s : State) : Moves s s.commitSwap := by
  rw [Moves, commitSwap_flags]
  split
  · exact .commit ‹_› (commitSwap_sameBytes s)
  · exact .stay

theorem trySwap_moves (s : State) : Moves s s.trySwap := by
  rw [Moves, trySwap_flags]
  split
  · exact .swap s.lastFrameShown (.inl rfl) ‹_› (trySwap_sameBytes s)
  · exact .stay

theorem graceCheck_moves (s : State) : Moves s s.graceCheck := by
  rw [Moves, graceCheck_flags]
  exact .grace

/-- A START_FRAME that shows a frame: the grace check, and the swap where one is pending. -/
theorem graceCheck_showFrame_moves (s : State) : Moves s s.graceCheck.showFrame := by
  rw [Moves, showFrame_flags, trySwap_flags, graceCheck_flags, graceCheck_eq]
  split
  · exact .swap _ (.inr rfl) ‹_› (graceCheck_eq s ▸ graceCheck_showFrame_sameBytes s)
  · exact .grace

theorem PixelFrame.moves {s t : State} (h : PixelFrame s t)
    (found : s.lastFrameCalculated = false → t.lastFrameCalculated = true → EndFound s t) : Moves s t := by
  rw [Moves, h.flags_eq]
  rcases h.calculated_cases found with e | ⟨e, ended⟩ <;> rw [e]
  · exact .stay
  · exact .absent ended

theorem Ran.moves {i : Instr} {s t : State} (h : Ran i s t) : Moves s t := by
  cases i with
  | takeProducer =>
    cases h
    exact .of_eq rfl
  | takeConsumer =>
    cases h
    exact .of_eq rfl
  | scale _ _ _ _ => exact Answered.moves h
  | rbLength => exact Answered.moves h
  | rdReg _ => exact Answered.moves h
  | rbReadableView =>
    obtain ⟨_, answered⟩ := h
    exact answered.moves
  | rbWritableView =>
    obtain ⟨_, answered⟩ := h
    exact answered.moves
  | rbRead _ =>
    obtain ⟨_, _, _, rfl⟩ := h
    exact .of_eq rfl
  | encodePixel pix packed =>
    obtain ⟨_, _, rfl⟩ := h
    exact .of_eq (putPixel_frame (s.violate .primitiveMisuse) pix packed).flags_eq
  | rbWrite off data =>
    obtain ⟨_, _, rfl⟩ := h
    exact .of_eq (putByte_frame (s.violate .primitiveMisuse) off data).flags_eq
  | rbRequestSwap =>
    obtain ⟨_, rfl⟩ := h
    exact .request s.swapRequested id
  | chRequestSwap =>
    obtain ⟨_, rfl⟩ := h
    exact .request true fun _ => rfl
  | rbCommitSwap =>
    obtain ⟨_, rfl⟩ := h
    exact commitSwap_moves (s.violate .primitiveMisuse)
  | chTrySwap =>
    obtain ⟨_, rfl⟩ := h
    exact trySwap_moves (s.violate .primitiveMisuse)
  | computeFrame =>
    obtain ⟨_, ⟨_, answered⟩ | ⟨_, _, rfl⟩ | ⟨_, _, u, looped, painted, rfl⟩⟩ := h
    · exact answered.moves
    · exact .of_eq rfl
    · change FlagsMove _ _ s.flags { u.flags with
        frameNumber := u.flags.frameNumber + 1, frameRequested := false, swapRequested := true, swapPending := true }
      rw [painted.flags_eq]
      exact .frame _ (painted.calculated_cases (pixelLoop_end looped))
  | isAnimationFinished =>
    obtain ⟨_, rfl⟩ := h
    exact graceCheck_moves s
  | startFrame =>
    obtain ⟨_, ⟨_, answered⟩ | ⟨_, rfl⟩⟩ := h
    · exact answered.moves
    · exact graceCheck_showFrame_moves s

theorem runWord_moves {w : Word40} {s t : State} (h : runWord w s = .next t) : Moves s t := by
  rcases runWord_cases h with ⟨i, _, executed⟩ | ⟨_, st, _, _, rfl⟩
  · rcases exec_cases executed with ⟨st, _, rfl⟩ | ⟨_, ran⟩
    · exact .of_eq rfl
    · exact ran.moves
  · exact .of_eq rfl

theorem microStep_moves {s t : State} (h : s.microStep = .next t) : Moves s t := by
  rcases microStep_cases h with ⟨_, rfl⟩ | ⟨p, u, _, stepped, painted, rfl⟩ | ⟨_, rfl⟩ | ⟨_, rfl⟩
  · exact .of_eq rfl
  · exact painted.moves (pixelStep_end stepped)
  · exact .count
  · exact .request true fun _ => rfl

/-- The step's own work is that of the command, micro-step or engine step it runs: taking the input and logging the
command touch no flag and no byte. -/
theorem step_moves {s t : State} (h : step s = .next t) (hr : s.nextIsReset = false) : Moves s t := by
  rcases step_cases h with ⟨par, cfg, rest, hi, _⟩ | ⟨ins, _, rfl⟩ | ⟨ins, inside, u, _, hu, rfl⟩ |
      ⟨agent, w, inside, rest, u, _, _, hu, rfl⟩
  · simp [State.nextIsReset, hi] at hr
  · exact .of_eq (engineStep_frame _).flags_eq
  · exact (microStep_moves hu).mono (EndFound.later (es := []) · (by simp)) id
  · exact (runWord_moves hu).mono (EndFound.later · rfl) id

/-- Settles O43, by the ways `FlagsMove` lists. -/
theorem lifecycleFlagsMoveAsStated : Obligations.LifecycleFlagsMoveAsStated := by
  unfold Obligations.LifecycleFlagsMoveAsStated
  intro s t h hr
  have moves := step_moves h hr
  obtain ⟨requestedSet, requestedCleared⟩ := moves.frameRequested
  obtain ⟨calculatedStays, calculatedSet⟩ := moves.lastFrameCalculated
  obtain ⟨shownStays, shownSet⟩ := moves.lastFrameShown
  refine ⟨requestedSet, requestedCleared, calculatedStays, fun unset set => ?_, shownStays, shownSet⟩
  obtain ⟨generator, nonempty, es, appended, asked⟩ := calculatedSet unset set
  exact ⟨generator, nonempty, by rwa [newEvents appended]⟩

/-- Settles O44, by the ways `FlagsMove` lists. -/
theorem swapFlagsMoveAsStated : Obligations.SwapFlagsMoveAsStated := by
  unfold Obligations.SwapFlagsMoveAsStated
  exact fun s t h hr => (step_moves h hr).swapFlags

end Sys2Proof.Machine

/-! PROOF. Every step keeps the machine sound (20_memory.md R66, R70, 10_state.md R40, 45_consumer.md R204). -/

namespace Sys2Proof.Machine

/-- What soundness reads and painting and the engine leave alone. -/
def State.fixture (s : State) : Word24 × Byte × Bool × Compute × Word32 :=
  (s.par.bufLen, s.stripLength, s.configFault, s.compute, s.txLen)

/-- All that soundness reads. -/
def State.footing (s : State) : (Word24 × Byte × Bool × Compute × Word32) × Memory × Memory × Option Region × Nat :=
  (s.fixture, s.buffer1, s.buffer2, s.txRegion, s.txNext)

theorem State.Sound.regions {s : State} (h : s.Sound) (r : Region) :
    (s.region r).wf ∧ (s.region r).within s.bufLen := by
  cases r with
  | one => exact ⟨h.canonical1, h.within1⟩
  | two => exact ⟨h.canonical2, h.within2⟩

/-- A sound state stays sound where both regions keep their form and the transfer goes on, or ends, inside its
length. -/
theorem State.Sound.of_fixture {s t : State} (h : s.Sound) (fixed : t.fixture = s.fixture)
    (regions : ∀ r, (t.region r).wf ∧ (t.region r).within s.bufLen)
    (transfer : t.txRegion = s.txRegion ∨ t.txRegion = none) (next : t.txNext ≤ t.txLen.toNat) : t.Sound := by
  simp only [State.fixture, Prod.mk.injEq] at fixed
  obtain ⟨bufLen, stripLength, configFault, compute, txLen⟩ := fixed
  have capacity : t.bufLen = s.bufLen := congrArg BitVec.toNat bufLen
  exact {
    canonical1 := (regions .one).1
    canonical2 := (regions .two).1
    within1 := capacity ▸ (regions .one).2
    within2 := capacity ▸ (regions .two).2
    capacity := by rw [configFault, capacity, stripLength]; exact h.capacity
    cursor := by
      unfold State.cursorSound
      rw [compute, stripLength, configFault]
      exact h.cursor
    transferLen := fun inFlight => by
      rw [State.byteCount, txLen, stripLength, configFault]
      exact h.transferLen (transfer.resolve_right inFlight ▸ inFlight)
    transferNext := next }

/-- A sound state stays sound where nothing that soundness reads changed. -/
theorem State.Sound.of_footing {s t : State} (h : s.Sound) (same : t.footing = s.footing) : t.Sound := by
  simp only [State.footing, Prod.mk.injEq] at same
  obtain ⟨fixed, buffer1, buffer2, txRegion, txNext⟩ := same
  have regions : t.region = s.region := by
    funext r
    cases r with
    | one => exact buffer1
    | two => exact buffer2
  refine h.of_fixture fixed (fun r => regions ▸ h.regions r) (.inl txRegion) ?_
  have txLen : t.txLen = s.txLen := congrArg (·.2.2.2.2) fixed
  rw [txNext, txLen]
  exact h.transferNext

/-- The producer may stand wherever the cursor is sound. -/
theorem State.Sound.at_compute {s t : State} (h : s.Sound) (c : Compute)
    (same : t.footing = ({ s with compute := c } : State).footing)
    (cursor : ({ s with compute := c } : State).cursorSound) : t.Sound :=
  State.Sound.of_footing (s := { s with compute := c })
    ⟨h.canonical1, h.canonical2, h.within1, h.within2, h.capacity, cursor, h.transferLen, h.transferNext⟩ same

/-! ## The shared operations -/

theorem EngineFrame.sound {s t : State} (h : EngineFrame s t) (hs : s.Sound) : t.Sound := by
  refine hs.of_fixture (by rw [h.same]; rfl) (fun r => ?_) h.region (h.next hs.transferNext)
  have region : t.region r = s.region r := by
    rw [h.same]
    rfl
  rw [region]
  exact hs.regions r

theorem PixelFrame.sound {s t : State} (h : PixelFrame s t) (hs : s.Sound) : t.Sound := by
  refine hs.of_fixture (by rw [h.same]; rfl) (fun r => ?_) h.region (h.next hs.transferNext)
  rcases region_eq_or s r with rfl | rfl
  · rw [h.active]
    exact hs.regions _
  · exact ⟨h.canonical (hs.regions _).1, h.within (hs.regions _).2⟩

theorem Answered.sound {s t : State} (h : Answered s t) (hs : s.Sound) : t.Sound := by
  obtain ⟨_, rfl⟩ := h
  exact hs.of_footing rfl

theorem commitSwap_sound {s : State} (hs : s.Sound) : s.commitSwap.Sound := by
  rw [commitSwap_eq]
  exact hs.of_footing rfl

theorem trySwap_sound {s : State} (hs : s.Sound) : s.trySwap.Sound := by
  rw [trySwap_eq]
  exact hs.of_footing rfl

theorem graceCheck_sound {s : State} (hs : s.Sound) : s.graceCheck.Sound := by
  rw [graceCheck_eq]
  exact hs.of_footing rfl

/-- A transfer starts at offset 0 with the length of the strip (R204). -/
theorem startTransfer_sound {s : State} (hs : s.Sound) (valid : s.configFault = false) : s.startTransfer.Sound := by
  rw [startTransfer_eq]
  exact { hs with
    transferLen := fun _ => ⟨rfl, valid⟩
    transferNext := Nat.zero_le _ }

theorem showFrame_sound {s : State} (hs : s.Sound) (valid : s.configFault = false) : s.showFrame.Sound := by
  unfold State.showFrame
  rw [violateIf_eq]
  refine startTransfer_sound ((trySwap_sound hs).of_footing rfl) ?_
  show s.trySwap.configFault = false
  rw [trySwap_eq]
  exact valid

/-- The cursor is inside the strip after the gate and after each pixel (R181). -/
theorem phaseAt_cursorSound {s : State} (valid : s.configFault = false) (p : Nat) :
    ({ s with compute := s.phaseAt p } : State).cursorSound := by
  unfold State.cursorSound State.phaseAt
  by_cases inside : p < s.stripLength.toNat
  · simp [inside, valid]
  · simp [inside, valid]

/-- While a COMPUTE_FRAME is in progress there is no capacity fault. -/
theorem State.Sound.valid_of_busy {s : State} (hs : s.Sound) (busy : s.compute ≠ .idle) : s.configFault = false := by
  have cursor := hs.cursor
  unfold State.cursorSound at cursor
  cases c : s.compute with
  | idle => exact absurd c busy
  | pixel p =>
    rw [c] at cursor
    obtain ⟨_, valid⟩ := cursor
    exact valid
  | count =>
    rw [c] at cursor
    exact cursor
  | publish =>
    rw [c] at cursor
    exact cursor

/-! ## Reset, commands, micro-steps and steps -/

theorem resetBuffers_wf_within (par : Params) :
    ((resetBuffers par).1.wf ∧ (resetBuffers par).1.within par.bufLen.toNat) ∧
    ((resetBuffers par).2.wf ∧ (resetBuffers par).2.within par.bufLen.toNat) := by
  unfold resetBuffers
  cases par.bufReset with
  | unspecified => exact ⟨⟨Memory.wf_empty, Memory.within_empty _⟩, ⟨Memory.wf_empty, Memory.within_empty _⟩⟩
  | content bytes1 bytes2 => exact ⟨Memory.ofBytes_wf bytes1 _, Memory.ofBytes_wf bytes2 _⟩

/-- A channel just created is sound, whatever its coming inputs. -/
theorem resetWith_sound (par : Params) (cfg : Configuration) (epoch : Nat) (inputs : List Input) :
    ({ State.resetWith par cfg epoch with inputs := inputs } : State).Sound := by
  obtain ⟨⟨wf1, within1⟩, ⟨wf2, within2⟩⟩ := resetBuffers_wf_within par
  exact {
    canonical1 := wf1
    canonical2 := wf2
    within1 := within1
    within2 := within2
    capacity := by
      show (!decide (_ ≤ par.bufLen.toNat)) = decide (par.bufLen.toNat < cfg.stripLength.toNat * 12)
      rw [← decide_not]
      exact decide_eq_decide.mpr Nat.not_le
    cursor := trivial
    transferLen := fun inFlight => absurd rfl inFlight
    transferNext := Nat.le_refl 0 }

/-- Every command that ran, RD_REG apart, ran without a capacity fault. -/
theorem Ran.sound {i : Instr} {s t : State} (h : Ran i s t)
    (valid : (∀ reg, i ≠ .rdReg reg) → s.configFault = false) (hs : s.Sound) : t.Sound := by
  have misused : (s.violate .primitiveMisuse).Sound := hs.of_footing rfl
  cases i with
  | takeProducer =>
    cases h
    exact hs.of_footing rfl
  | takeConsumer =>
    cases h
    exact hs.of_footing rfl
  | scale _ _ _ _ => exact Answered.sound h hs
  | rbLength => exact Answered.sound h hs
  | rdReg _ => exact Answered.sound h hs
  | rbReadableView =>
    obtain ⟨_, answered⟩ := h
    exact answered.sound hs
  | rbWritableView =>
    obtain ⟨_, answered⟩ := h
    exact answered.sound hs
  | rbRead _ =>
    obtain ⟨_, _, answered⟩ := h
    exact answered.sound misused
  | encodePixel pix packed =>
    obtain ⟨_, fits, rfl⟩ := h
    exact ((putPixel_pixel (s := s.violate .primitiveMisuse) fits packed).sound misused).of_footing rfl
  | rbWrite off data =>
    obtain ⟨_, inside, rfl⟩ := h
    exact ((putByte_pixel (s := s.violate .primitiveMisuse) inside data).sound misused).of_footing rfl
  | rbRequestSwap =>
    obtain ⟨_, rfl⟩ := h
    exact hs.of_footing rfl
  | chRequestSwap =>
    obtain ⟨_, rfl⟩ := h
    exact hs.of_footing rfl
  | rbCommitSwap =>
    obtain ⟨_, rfl⟩ := h
    exact (commitSwap_sound misused).of_footing rfl
  | chTrySwap =>
    obtain ⟨_, rfl⟩ := h
    exact (trySwap_sound misused).of_footing rfl
  | computeFrame =>
    obtain ⟨_, ⟨_, answered⟩ | ⟨_, _, rfl⟩ | ⟨_, _, u, _, painted, rfl⟩⟩ := h
    · exact answered.sound hs
    · exact hs.at_compute _ rfl (phaseAt_cursorSound (valid nofun) 0)
    · exact (painted.sound hs).of_footing rfl
  | isAnimationFinished =>
    obtain ⟨_, rfl⟩ := h
    exact (graceCheck_sound hs).of_footing rfl
  | startFrame =>
    obtain ⟨_, ⟨_, answered⟩ | ⟨_, rfl⟩⟩ := h
    · exact answered.sound hs
    · have valid' : s.graceCheck.configFault = false := by
        rw [graceCheck_eq]
        exact valid nofun
      exact (showFrame_sound (graceCheck_sound hs) valid').of_footing rfl

theorem runWord_sound {w : Word40} {s t : State} (h : runWord w s = .next t) (hs : s.Sound) : t.Sound := by
  rcases runWord_cases h with ⟨i, _, executed⟩ | ⟨_, st, _, _, rfl⟩
  · rcases exec_cases executed with ⟨st, _, rfl⟩ | ⟨valid, ran⟩
    · exact hs.of_footing rfl
    · exact ran.sound valid hs
  · exact hs.of_footing rfl

theorem microStep_sound {s t : State} (h : s.microStep = .next t) (hs : s.Sound) : t.Sound := by
  rcases microStep_cases h with ⟨_, rfl⟩ | ⟨p, u, at_pixel, _, painted, rfl⟩ | ⟨at_count, rfl⟩ | ⟨_, rfl⟩
  · exact hs
  · have valid : u.configFault = false := by
      rw [painted.same]
      exact hs.valid_of_busy (by simp [at_pixel])
    exact (painted.sound hs).at_compute _ rfl (phaseAt_cursorSound valid (p + 1))
  · exact hs.at_compute .publish rfl (hs.valid_of_busy (by simp [at_count]))
  · exact hs.at_compute .idle rfl trivial

/-- Settles O50, by `step_cases`: each kind of step keeps soundness. -/
theorem everyStepKeepsTheMachineSound : Obligations.EveryStepKeepsTheMachineSound := by
  unfold Obligations.EveryStepKeepsTheMachineSound
  intro s t hs h
  rcases step_cases h with ⟨par, cfg, rest, _, rfl⟩ | ⟨ins, _, rfl⟩ | ⟨ins, inside, u, _, hu, rfl⟩ |
      ⟨agent, w, inside, rest, u, _, _, hu, rfl⟩
  · exact resetWith_sound par cfg _ rest
  · exact (engineStep_frame _).sound (hs.of_footing rfl)
  · exact (microStep_sound hu (hs.of_footing rfl)).of_footing rfl
  · exact (runWord_sound hu (hs.of_footing rfl)).of_footing rfl

end Sys2Proof.Machine

/-! PROOF. Disciplined steps keep I1 to I5 (10_state.md R37, R38). -/

namespace Sys2Proof.Machine

/-! ## What a command of the discipline does -/

/-- The effects a command of the discipline can have. -/
inductive DisciplinedEffect (s t : State) : Prop where
  /-- A refusal, a query, a take, or a no-op of the gate or of a finished animation. -/
  | plain (changed : t = { s with
      producerTaken := t.producerTaken, consumerTaken := t.consumerTaken, response := t.response })
  /-- COMPUTE_FRAME passes its gate and goes on by micro-steps. -/
  | gate (idle : s.compute = .idle) (opened : s.gateOpen = true)
    (changed : t = { s with compute := s.phaseAt 0, response := none })
  /-- COMPUTE_FRAME passes its gate and is one step. -/
  | frame (idle : s.compute = .idle) (u : State) (looped : State.pixelLoop s.stripLength.toNat 0 s = .next u)
    (changed : t = { u with
      frameNumber := u.frameNumber + 1, frameRequested := false, swapRequested := true, swapPending := true
      response := some ⟨.ok, 1⟩ })
  /-- IS_ANIMATION_FINISHED. -/
  | grace (changed : t = s.graceCheck.answer .ok (flagData s.lastFrameShown))
  /-- START_FRAME starts a transfer, under H-c and H-d. -/
  | transfer (quiet : s.txRegion = none) (first : (s.started || s.swapPending) = true)
    (changed : t = s.graceCheck.showFrame.answer .ok 1)

theorem Answered.effect {s t : State} (h : Answered s t) : DisciplinedEffect s t := by
  obtain ⟨_, rfl⟩ := h
  exact .plain rfl

/-- A command of the discipline that is not held back has one of these effects. -/
theorem exec_effect {i : Instr} {s t : State} (h : exec i s = .next t) (disciplined : s.disciplinedCommand i = true)
    (idle : classOf i = .producer → s.compute = .idle) : DisciplinedEffect s t := by
  rcases exec_cases h with ⟨st, _, rfl⟩ | ⟨_, ran⟩
  · exact .plain rfl
  cases i with
  | takeProducer =>
    cases ran
    exact .plain rfl
  | takeConsumer =>
    cases ran
    exact .plain rfl
  | scale _ _ _ _ => exact Answered.effect ran
  | rbLength => exact Answered.effect ran
  | rdReg _ => exact Answered.effect ran
  | rbReadableView =>
    obtain ⟨_, answered⟩ := ran
    exact answered.effect
  | rbWritableView =>
    obtain ⟨_, answered⟩ := ran
    exact answered.effect
  | computeFrame =>
    obtain ⟨_, ⟨_, answered⟩ | ⟨opened, _, changed⟩ | ⟨_, _, u, looped, _, changed⟩⟩ := ran
    · exact answered.effect
    · exact .gate (idle rfl) opened changed
    · exact .frame (idle rfl) u looped changed
  | isAnimationFinished =>
    obtain ⟨_, changed⟩ := ran
    exact .grace changed
  | startFrame =>
    obtain ⟨_, ⟨_, answered⟩ | ⟨_, changed⟩⟩ := ran
    · exact answered.effect
    · obtain ⟨quiet, first⟩ := Bool.and_eq_true_iff.mp disciplined
      exact .transfer (Option.isNone_iff_eq_none.mp quiet) first changed
  | _ => cases disciplined

/-- An RB_READ changes the response and the ghost set alone. -/
theorem exec_rbRead_eq {off : Nat} {s t : State} (h : exec (.rbRead off) s = .next t) :
    t = { s with violations := t.violations, response := t.response } := by
  rcases exec_cases h with ⟨st, _, rfl⟩ | ⟨_, _, _, _, rfl⟩
  · rfl
  · rfl

/-! ## The invariants under the shared operations -/

/-- What I1 to I5 read, but for `last_frame_calculated` and the region in flight. -/
def State.protocolFlags (s : State) : Bool × Bool × Bool × Compute × Bool × Bool :=
  (s.swapRequested, s.swapPending, s.frameRequested, s.compute, s.lastFrameShown, s.activeIs1)

/-- The end of the animation may be found and the transfer may end; nothing else that I1 to I5 read changes. -/
structure ProtocolFrame (s t : State) : Prop where
  flags : t.protocolFlags = s.protocolFlags
  calculated : s.lastFrameCalculated = true → t.lastFrameCalculated = true
  region : t.txRegion = s.txRegion ∨ t.txRegion = none

theorem ProtocolFrame.protocol {s t : State} (h : ProtocolFrame s t) (hs : s.Protocol) : t.Protocol := by
  have flags := h.flags
  simp only [State.protocolFlags, Prod.mk.injEq] at flags
  obtain ⟨swapRequested, swapPending, frameRequested, compute, lastFrameShown, activeIs1⟩ := flags
  exact {
    i1 := by rw [swapRequested, swapPending]; exact hs.i1
    i2 := by rw [compute, frameRequested, swapPending]; exact hs.i2
    i3 := fun shown => h.calculated (hs.i3 (lastFrameShown ▸ shown))
    i4 := fun busy => by rw [swapPending]; exact hs.i4 (compute ▸ busy)
    i5 := fun r inFlight => by
      rw [State.active, activeIs1]
      rcases h.region with e | e <;> rw [e] at inFlight
      · exact hs.i5 r inFlight
      · cases inFlight }

/-- A record update that names nothing the invariants read. -/
theorem State.Protocol.of_flags {s t : State} (h : s.Protocol) (flags : t.protocolFlags = s.protocolFlags)
    (calculated : t.lastFrameCalculated = s.lastFrameCalculated) (region : t.txRegion = s.txRegion) : t.Protocol :=
  ProtocolFrame.protocol ⟨flags, calculated.trans, .inl region⟩ h

theorem EngineFrame.protocol {s t : State} (h : EngineFrame s t) (hs : s.Protocol) : t.Protocol := by
  refine ProtocolFrame.protocol ⟨?_, ?_, h.region⟩ hs
  · rw [h.same]
    rfl
  · rw [h.same]
    exact id

theorem PixelFrame.protocol {s t : State} (h : PixelFrame s t) (hs : s.Protocol) : t.Protocol := by
  refine ProtocolFrame.protocol ⟨?_, h.calculated, h.region⟩ hs
  rw [h.same]
  rfl

/-- The grace check sets `last_frame_shown` only after `last_frame_calculated`, so I3 stays. -/
theorem graceCheck_protocol {s : State} (hs : s.Protocol) : s.graceCheck.Protocol := by
  rw [graceCheck_eq]
  refine { hs with i3 := fun shown => ?_ }
  rcases Bool.or_eq_true_iff.mp shown with shown | calculated
  · exact hs.i3 shown
  · exact calculated

/-- A swap is performed between two frames only (I4), and hands the one flag of I2 over to the other. -/
theorem trySwap_protocol {s : State} (hs : s.Protocol) (quiet : s.txRegion = none) : s.trySwap.Protocol := by
  cases pending : s.swapPending with
  | false =>
    rw [State.trySwap, pending]
    exact hs
  | true =>
    have idle : s.compute = .idle := by
      by_contra busy
      exact absurd (hs.i4 busy) (by simp [pending])
    rw [trySwap_eq]
    exact {
      i1 := by simp [pending]
      i2 := by simp [idle, pending]
      i3 := hs.i3
      i4 := fun _ => rfl
      i5 := fun r inFlight => absurd (quiet.symm.trans inFlight) nofun }

/-- A transfer is of the active region (I5). -/
theorem startTransfer_protocol {s : State} (hs : s.Protocol) : s.startTransfer.Protocol := by
  rw [startTransfer_eq]
  exact { hs with i5 := fun r inFlight => (Option.some.inj inFlight).symm }

theorem showFrame_protocol {s : State} (hs : s.Protocol) (quiet : s.txRegion = none) : s.showFrame.Protocol := by
  unfold State.showFrame
  rw [violateIf_eq]
  exact startTransfer_protocol ((trySwap_protocol hs quiet).of_flags rfl rfl rfl)

/-- After the gate and after each pixel comes a pixel or u3 (R181). -/
theorem phaseAt_eq_or (s : State) (p : Nat) : s.phaseAt p = .pixel p ∨ s.phaseAt p = .count := by
  unfold State.phaseAt
  split
  · exact .inl rfl
  · exact .inr rfl

/-- Inside a frame before u3 `frame_requested` stays set (I2). -/
theorem phaseAt_protocol {s : State} (hs : s.Protocol) (requested : s.frameRequested = true)
    (unpublished : s.swapPending = false) (p : Nat) : ({ s with compute := s.phaseAt p } : State).Protocol where
  i1 := hs.i1
  i2 := by
    rcases phaseAt_eq_or s p with phase | phase <;> rw [phase] <;> exact ⟨requested, unpublished⟩
  i3 := hs.i3
  i4 := fun _ => unpublished
  i5 := hs.i5

/-! ## I2 read at each place of the producer -/

theorem State.Protocol.requested_of_idle {s : State} (h : s.Protocol) (idle : s.compute = .idle) :
    s.frameRequested = !s.swapPending := by
  have i2 := h.i2
  rwa [idle] at i2

theorem State.Protocol.requested_of_pixel {s : State} {p : Nat} (h : s.Protocol) (pixel : s.compute = .pixel p) :
    s.frameRequested = true ∧ s.swapPending = false := by
  have i2 := h.i2
  rwa [pixel] at i2

theorem State.Protocol.requested_of_publish {s : State} (h : s.Protocol) (publish : s.compute = .publish) :
    s.frameRequested = false ∧ s.swapPending = false := by
  have i2 := h.i2
  rwa [publish] at i2

/-! ## Reset, commands, micro-steps and steps -/

theorem resetWith_protocol (par : Params) (cfg : Configuration) (epoch : Nat) (inputs : List Input) :
    ({ State.resetWith par cfg epoch with inputs := inputs } : State).Protocol where
  i1 := rfl
  i2 := rfl
  i3 := nofun
  i4 := fun _ => rfl
  i5 := nofun

theorem DisciplinedEffect.protocol {s t : State} (h : DisciplinedEffect s t) (hs : s.Protocol) : t.Protocol := by
  cases h with
  | plain changed =>
    rw [changed]
    exact hs.of_flags rfl rfl rfl
  | gate idle opened changed =>
    obtain ⟨requested, _⟩ := Bool.and_eq_true_iff.mp opened
    have unpublished : s.swapPending = false := by simpa [requested] using hs.requested_of_idle idle
    rw [changed]
    exact (phaseAt_protocol hs requested unpublished 0).of_flags rfl rfl rfl
  | frame idle u looped changed =>
    have painted := pixelLoop_frame looped
    have hu := painted.protocol hs
    have idle' : u.compute = .idle := by
      rw [painted.same]
      exact idle
    rw [changed]
    exact {
      i1 := rfl
      i2 := by simp [idle']
      i3 := hu.i3
      i4 := fun busy => absurd idle' busy
      i5 := hu.i5 }
  | grace changed =>
    rw [changed]
    exact (graceCheck_protocol hs).of_flags rfl rfl rfl
  | transfer quiet first changed =>
    have quiet' : s.graceCheck.txRegion = none := by
      rw [graceCheck_eq]
      exact quiet
    rw [changed]
    exact (showFrame_protocol (graceCheck_protocol hs) quiet').of_flags rfl rfl rfl

theorem microStep_protocol {s t : State} (h : s.microStep = .next t) (hs : s.Protocol) : t.Protocol := by
  rcases microStep_cases h with ⟨_, rfl⟩ | ⟨p, u, pixel, _, painted, rfl⟩ | ⟨count, rfl⟩ | ⟨publish, rfl⟩
  · exact hs
  · have hu := painted.protocol hs
    have pixel' : u.compute = .pixel p := by
      rw [painted.same]
      exact pixel
    obtain ⟨requested, unpublished⟩ := hu.requested_of_pixel pixel'
    exact phaseAt_protocol hu requested unpublished (p + 1)
  · have unpublished := hs.i4 (by simp [count])
    exact { hs with i2 := ⟨rfl, unpublished⟩, i4 := fun _ => unpublished }
  · obtain ⟨counted, _⟩ := hs.requested_of_publish publish
    exact { hs with i1 := rfl, i2 := counted, i4 := fun busy => absurd rfl busy }

/-- A command runs while the producer is inside a frame only where it is not of the producer class (R181). -/
theorem idle_of_producer {s : State} {agent : Agent} {w : Word40} {inside : List Nat} {i : Instr}
    (h : s.heldBack (.command agent w inside) = false) (hd : decode w = .ok i) (producer : classOf i = .producer) :
    s.compute = .idle := by
  by_contra busy
  exact not_producer_of_not_heldBack h busy hd producer

/-- Settles O52, by `step_cases`: each kind of disciplined step keeps I1 to I5. -/
theorem disciplinedStepKeepsTheProtocol : Obligations.DisciplinedStepKeepsTheProtocol := by
  unfold Obligations.DisciplinedStepKeepsTheProtocol
  intro s t hs discipline h
  rcases step_cases h with ⟨par, cfg, rest, _, rfl⟩ | ⟨ins, _, rfl⟩ | ⟨ins, inside, u, _, hu, rfl⟩ |
      ⟨agent, w, inside, rest, u, hi, hh, hu, rfl⟩
  · exact resetWith_protocol par cfg _ rest
  · exact (engineStep_frame _).protocol (hs.of_flags rfl rfl rfl)
  · exact (microStep_protocol hu (hs.of_flags rfl rfl rfl)).of_flags rfl rfl rfl
  · have taken : ({ s with inputs := rest, inside := inside } : State).Protocol := hs.of_flags rfl rfl rfl
    refine State.Protocol.of_flags (s := u) ?_ rfl rfl rfl
    rcases runWord_cases hu with ⟨i, hd, executed⟩ | ⟨_, st, _, _, rfl⟩
    · rcases disciplined_or_reads discipline hi hh hd with disciplined | ⟨off, rfl⟩
      · exact (exec_effect executed disciplined (idle_of_producer (s := s) hh hd)).protocol taken
      · rw [exec_rbRead_eq executed]
        exact taken.of_flags rfl rfl rfl
    · exact taken.of_flags rfl rfl rfl

end Sys2Proof.Machine

/-! PROOF. A step under discipline records no violation (60_exceptions.md R254 to R256, 70_reset_and_hazards.md
R290). -/

namespace Sys2Proof.Machine

/-- The region written is not the one in flight (I5). -/
theorem State.Protocol.inactive_not_in_flight {s : State} (h : s.Protocol) : s.txRegion ≠ some s.inactive :=
  fun inFlight => active_ne_inactive s (h.i5 _ inFlight).symm

/-! ## The shared operations -/

theorem EngineFrame.violations_eq {s t : State} (h : EngineFrame s t) : t.violations = s.violations := by
  rw [h.same]

theorem graceCheck_violations (s : State) : s.graceCheck.violations = s.violations := by
  rw [graceCheck_eq]

/-- With no transfer in flight and a first frame swapped in or pending, START_FRAME records nothing (R255, R256). -/
theorem showFrame_violations {s : State} (quiet : s.txRegion = none) (first : (s.started || s.swapPending) = true) :
    s.showFrame.violations = s.violations := by
  unfold State.showFrame
  rw [startTransfer_eq, violateIf_eq, trySwap_eq]
  simp [quiet, first]

/-! ## Pixels, where the generator answers absent at the last pixel only (H-e) -/

/-- The frame number is no part of H-e, and painting changes nothing else the generator is asked with. -/
theorem PixelFrame.generatorEndsLast {s t : State} (h : PixelFrame s t) (ends : s.generatorEndsLast) :
    t.generatorEndsLast := by
  rw [h.same]
  exact ends

/-- An absent answer at the last pixel is no early end (R184). -/
theorem absentAt_last {s : State} {p : Nat} (last : p + 1 = s.stripLength.toNat) :
    (s.absentAt p).violations = s.violations := by
  rw [State.absentAt, if_pos last]

/-- A pixel put beside the region in flight, under H-e, records neither PV_WRITE_WHILE_BUSY nor PV_EARLY_END. -/
theorem pixelStep_violations {s t : State} {p : Nat} (h : s.pixelStep p = .next t)
    (apart : s.txRegion ≠ some s.inactive) (ends : s.generatorEndsLast) (inside : p < s.stripLength.toNat) :
    t.violations = s.violations := by
  unfold State.pixelStep at h
  split at h
  · split at h
    · cases h
      exact (paint_frame s p _).quiet apart
    · rename_i generator
      simp only at h
      split at h
      · cases h
        exact (paint_frame (s.log _) p _).quiet apart
      · rename_i absent
        cases h
        refine absentAt_last (s := s.log _) ?_
        by_contra early
        obtain ⟨c, answered⟩ := ends.answer generator (Nat.lt_of_le_of_ne inside early)
        exact absurd (absent.symm.trans answered) nofun
  · cases h

theorem pixelLoop_violations {n p : Nat} {s t : State} (h : State.pixelLoop n p s = .next t)
    (apart : s.txRegion ≠ some s.inactive) (ends : s.generatorEndsLast) (inside : p + n ≤ s.stripLength.toNat) :
    t.violations = s.violations := by
  induction n generalizing p s with
  | zero =>
    cases h
    rfl
  | succ n ih =>
    obtain ⟨u, stepped, looped⟩ := andThen_eq_next h
    obtain ⟨_, painted⟩ := pixelStep_frame stepped
    have length : u.stripLength = s.stripLength := by rw [painted.same]
    calc t.violations
      _ = u.violations := ih looped (painted.quiet_next apart) (painted.generatorEndsLast ends) (by rw [length]; omega)
      _ = s.violations := pixelStep_violations stepped apart ends (by omega)

/-! ## Commands, micro-steps and steps -/

theorem DisciplinedEffect.violations_eq {s t : State} (h : DisciplinedEffect s t) (hs : s.Protocol)
    (ends : s.generatorEndsLast) : t.violations = s.violations := by
  cases h with
  | plain changed => rw [changed]
  | gate idle opened changed => rw [changed]
  | frame idle u looped changed =>
    rw [changed]
    exact pixelLoop_violations (t := u) looped hs.inactive_not_in_flight ends (Nat.zero_add _).le
  | grace changed =>
    rw [changed]
    exact graceCheck_violations s
  | transfer quiet first changed =>
    rw [changed]
    refine (showFrame_violations ?_ ?_).trans (graceCheck_violations s)
    · rw [graceCheck_eq]
      exact quiet
    · rw [graceCheck_eq]
      exact first

theorem microStep_violations {s t : State} (h : s.microStep = .next t) (sound : s.Sound) (hs : s.Protocol)
    (ends : s.generatorEndsLast) : t.violations = s.violations := by
  rcases microStep_cases h with ⟨_, rfl⟩ | ⟨p, u, pixel, stepped, _, rfl⟩ | ⟨_, rfl⟩ | ⟨_, rfl⟩
  · rfl
  · have cursor := sound.cursor
    rw [State.cursorSound, pixel] at cursor
    obtain ⟨inside, _⟩ := cursor
    exact pixelStep_violations (t := u) stepped hs.inactive_not_in_flight ends inside
  · rfl
  · rfl

theorem step_violations {s t : State} (sound : s.Sound) (hs : s.Protocol) (clean : s.violations = Violations.empty)
    (discipline : s.UnderDiscipline) (h : step s = .next t) : t.violations = Violations.empty := by
  rcases step_cases h with ⟨par, cfg, rest, _, rfl⟩ | ⟨ins, _, rfl⟩ | ⟨ins, inside, u, _, hu, rfl⟩ |
      ⟨agent, w, inside, rest, u, hi, hh, hu, rfl⟩
  · rfl
  · exact (engineStep_frame _).violations_eq.trans clean
  · exact (microStep_violations hu (sound.of_footing rfl) (hs.of_flags rfl rfl rfl) discipline.generator).trans clean
  · refine Eq.trans ?_ clean
    rcases runWord_cases hu with ⟨i, hd, executed⟩ | ⟨_, st, _, _, rfl⟩
    · have effect := exec_effect executed (discipline.command hi hh hd) (idle_of_producer (s := s) hh hd)
      exact effect.violations_eq (hs.of_flags rfl rfl rfl) discipline.generator
    · rfl

/-- Settles O58: soundness by O50, I1 to I5 by O52, the empty violation set by the cases of a step. -/
theorem stepUnderDisciplineRecordsNoViolation : Obligations.StepUnderDisciplineRecordsNoViolation := by
  unfold Obligations.StepUnderDisciplineRecordsNoViolation
  intro s t sound hs clean discipline h
  exact ⟨everyStepKeepsTheMachineSound s t sound h,
    disciplinedStepKeepsTheProtocol s t hs (.inl discipline.commands) h, step_violations sound hs clean discipline h⟩

end Sys2Proof.Machine

/-! PROOF. No step but a reset writes a byte of the active region (20_memory.md R62, 44_producer.md R188). -/

namespace Sys2Proof.Machine

/-- The region active in `s` has the same bytes in `t`, active there or not. -/
def ActiveStands (s t : State) : Prop := ∀ off, t.readByte s.active off = s.readByte s.active off

theorem SameBytes.activeStands {s t : State} (h : SameBytes s t) : ActiveStands s t := h s.active

theorem Answered.activeStands {s t : State} (h : Answered s t) : ActiveStands s t := by
  obtain ⟨_, rfl⟩ := h
  exact fun _ => rfl

theorem graceCheck_sameBytes (s : State) : SameBytes s s.graceCheck := by
  rw [graceCheck_eq]
  exact fun _ _ => readByte_congr rfl rfl rfl ..

/-- Of the commands that run, those that write bytes write the inactive region; a swap moves no byte. -/
theorem Ran.activeStands {i : Instr} {s t : State} (h : Ran i s t) : ActiveStands s t := by
  cases i with
  | takeProducer =>
    cases h
    exact fun _ => rfl
  | takeConsumer =>
    cases h
    exact fun _ => rfl
  | scale _ _ _ _ => exact Answered.activeStands h
  | rbLength => exact Answered.activeStands h
  | rdReg _ => exact Answered.activeStands h
  | rbReadableView =>
    obtain ⟨_, answered⟩ := h
    exact answered.activeStands
  | rbWritableView =>
    obtain ⟨_, answered⟩ := h
    exact answered.activeStands
  | rbRead _ =>
    obtain ⟨_, _, _, rfl⟩ := h
    exact fun _ => rfl
  | encodePixel pix packed =>
    obtain ⟨_, _, rfl⟩ := h
    exact (putPixel_frame (s.violate .primitiveMisuse) pix packed).readByte_active
  | rbWrite off data =>
    obtain ⟨_, _, rfl⟩ := h
    exact (putByte_frame (s.violate .primitiveMisuse) off data).readByte_active
  | rbRequestSwap =>
    obtain ⟨_, rfl⟩ := h
    exact fun _ => rfl
  | chRequestSwap =>
    obtain ⟨_, rfl⟩ := h
    exact fun _ => rfl
  | rbCommitSwap =>
    obtain ⟨_, rfl⟩ := h
    exact (commitSwap_sameBytes (s.violate .primitiveMisuse)).activeStands
  | chTrySwap =>
    obtain ⟨_, rfl⟩ := h
    exact (trySwap_sameBytes (s.violate .primitiveMisuse)).activeStands
  | computeFrame =>
    obtain ⟨_, ⟨_, answered⟩ | ⟨_, _, rfl⟩ | ⟨_, _, u, _, painted, rfl⟩⟩ := h
    · exact answered.activeStands
    · exact fun _ => rfl
    · exact painted.readByte_active
  | isAnimationFinished =>
    obtain ⟨_, rfl⟩ := h
    exact (graceCheck_sameBytes s).activeStands
  | startFrame =>
    obtain ⟨_, ⟨_, answered⟩ | ⟨_, rfl⟩⟩ := h
    · exact answered.activeStands
    · exact (graceCheck_showFrame_sameBytes s).activeStands

theorem runWord_activeStands {w : Word40} {s t : State} (h : runWord w s = .next t) : ActiveStands s t := by
  rcases runWord_cases h with ⟨i, _, executed⟩ | ⟨_, st, _, _, rfl⟩
  · rcases exec_cases executed with ⟨st, _, rfl⟩ | ⟨_, ran⟩
    · exact fun _ => rfl
    · exact ran.activeStands
  · exact fun _ => rfl

theorem microStep_activeStands {s t : State} (h : s.microStep = .next t) : ActiveStands s t := by
  rcases microStep_cases h with ⟨_, rfl⟩ | ⟨p, u, _, _, painted, rfl⟩ | ⟨_, rfl⟩ | ⟨_, rfl⟩
  · exact fun _ => rfl
  · exact painted.readByte_active
  · exact fun _ => rfl
  · exact fun _ => rfl

/-- Settles O46, by `step_cases`: an engine step only reads, a micro-step and a command write the inactive region. -/
theorem activeRegionIsNeverWritten : Obligations.ActiveRegionIsNeverWritten := by
  unfold Obligations.ActiveRegionIsNeverWritten
  intro s t h hr
  change ActiveStands s t
  rcases step_cases h with ⟨par, cfg, rest, hi, _⟩ | ⟨ins, _, rfl⟩ | ⟨ins, inside, u, _, hu, rfl⟩ |
      ⟨agent, w, inside, rest, u, _, _, hu, rfl⟩
  · simp [State.nextIsReset, hi] at hr
  · exact (engineStep_frame { s with inputs := ins }).readByte s.active
  · have stands := microStep_activeStands hu
    exact stands
  · have stands := runWord_activeStands hu
    exact stands

end Sys2Proof.Machine

/-! PROOF. A disciplined step, and so every run of them, records nothing but PV_EARLY_END and writes no region in
flight (20_memory.md R82, 60_exceptions.md R258). -/

namespace Sys2Proof.Machine

/-- From `s` to `t` no violation is recorded but PV_EARLY_END. -/
def OnlyEarlyEnd (s t : State) : Prop := t.violations = { s.violations with earlyEnd := t.violations.earlyEnd }

theorem OnlyEarlyEnd.of_eq {s t : State} (h : t.violations = s.violations) : OnlyEarlyEnd s t := by
  rw [OnlyEarlyEnd, h]

theorem OnlyEarlyEnd.clean {s t : State} (h : OnlyEarlyEnd s t) (clean : s.cleanButEarlyEnd) :
    t.cleanButEarlyEnd := by
  rw [State.cleanButEarlyEnd, h, clean]

/-- Pixels put beside the region in flight record PV_EARLY_END at most, whatever the generator answers. -/
theorem PixelFrame.onlyEarlyEnd {s t : State} (h : PixelFrame s t) (apart : s.txRegion ≠ some s.inactive) :
    OnlyEarlyEnd s t := by
  rw [OnlyEarlyEnd, h.violations, h.quiet apart]

/-- A command issued in a disciplined step is one of the discipline. -/
theorem disciplinedCommand_of_disciplined {s : State} {agent : Agent} {w : Word40} {inside : List Nat}
    {rest : List Input} {i : Instr} (h : s.disciplined = true) (hi : s.inputs = .command agent w inside :: rest)
    (hh : s.heldBack (.command agent w inside) = false) (hd : decode w = .ok i) : s.disciplinedCommand i = true := by
  rcases disciplined_or_reads (.inl h) hi hh hd with disciplined | ⟨off, rfl⟩
  · exact disciplined
  · simp [State.disciplined, hi, hh, State.disciplinedInput, hd, State.disciplinedCommand] at h

theorem DisciplinedEffect.onlyEarlyEnd {s t : State} (h : DisciplinedEffect s t) (hs : s.Protocol) :
    OnlyEarlyEnd s t := by
  cases h with
  | plain changed => exact .of_eq (by rw [changed])
  | gate idle opened changed => exact .of_eq (by rw [changed])
  | frame idle u looped changed =>
    rw [changed]
    exact (pixelLoop_frame looped).onlyEarlyEnd hs.inactive_not_in_flight
  | grace changed => exact .of_eq (by rw [changed]; exact graceCheck_violations s)
  | transfer quiet first changed =>
    refine .of_eq ?_
    rw [changed, graceCheck_eq]
    exact showFrame_violations quiet first

theorem microStep_onlyEarlyEnd {s t : State} (h : s.microStep = .next t) (hs : s.Protocol) : OnlyEarlyEnd s t := by
  rcases microStep_cases h with ⟨_, rfl⟩ | ⟨p, u, _, _, painted, rfl⟩ | ⟨_, rfl⟩ | ⟨_, rfl⟩
  · rfl
  · exact painted.onlyEarlyEnd hs.inactive_not_in_flight
  · rfl
  · rfl

/-- A reset empties the violation set; every other disciplined step adds PV_EARLY_END at most. -/
theorem step_cleanButEarlyEnd {s t : State} (hs : s.Protocol) (clean : s.cleanButEarlyEnd)
    (discipline : s.disciplined = true) (h : step s = .next t) : t.cleanButEarlyEnd := by
  rcases step_cases h with ⟨par, cfg, rest, _, rfl⟩ | ⟨ins, _, rfl⟩ | ⟨ins, inside, u, _, hu, rfl⟩ |
      ⟨agent, w, inside, rest, u, hi, hh, hu, rfl⟩
  · rfl
  · exact (OnlyEarlyEnd.of_eq (engineStep_frame { s with inputs := ins }).violations_eq).clean clean
  · exact (microStep_onlyEarlyEnd hu (hs.of_flags rfl rfl rfl)).clean clean
  · rcases runWord_cases hu with ⟨i, hd, executed⟩ | ⟨_, st, _, _, rfl⟩
    · have disciplined := disciplinedCommand_of_disciplined discipline hi hh hd
      have effect := exec_effect executed disciplined (idle_of_producer (s := s) hh hd)
      exact (effect.onlyEarlyEnd (hs.of_flags rfl rfl rfl)).clean clean
    · exact clean

/-- Settles O59: I1 to I5 by O52, of which I5 keeps the region in flight apart, and the violation set by the cases of a
step. -/
theorem disciplinedStepKeepsTheRegionInFlightApart : Obligations.DisciplinedStepKeepsTheRegionInFlightApart := by
  unfold Obligations.DisciplinedStepKeepsTheRegionInFlightApart
  intro s t hs clean discipline h
  have ht := disciplinedStepKeepsTheProtocol s t hs (.inl discipline) h
  exact ⟨ht, step_cleanButEarlyEnd hs clean discipline h, fun _ _ => ht.inactive_not_in_flight⟩

/-- A channel just created meets I1 to I5 with an empty violation set, and O59 carries both through the run. -/
theorem DisciplinedRun.protocol_clean {s : State} (h : DisciplinedRun s) : s.Protocol ∧ s.cleanButEarlyEnd := by
  induction h with
  | created par cfg epoch inputs => exact ⟨resetWith_protocol par cfg epoch inputs, rfl⟩
  | step s t _ discipline h ih =>
    obtain ⟨hs, clean⟩ := ih
    obtain ⟨ht, clean', _⟩ := disciplinedStepKeepsTheRegionInFlightApart s t hs clean discipline h
    exact ⟨ht, clean'⟩

/-- Settles O54, by induction on the run with O59 as its step. -/
theorem disciplinedRunNeverWritesTheRegionInFlight : Obligations.DisciplinedRunNeverWritesTheRegionInFlight := by
  unfold Obligations.DisciplinedRunNeverWritesTheRegionInFlight
  intro s run
  obtain ⟨hs, clean⟩ := run.protocol_clean
  exact ⟨fun _ _ => hs.inactive_not_in_flight, clean⟩

end Sys2Proof.Machine

/-! PROOF. Command words: the decoder and the encoder against each other, for every word and every command
(30_encoding.md R90 to R96). -/

namespace Sys2Proof.Machine

/-! ## The fields of a word -/

/-- The opcode and the operand field make up the whole word (R90). -/
theorem opcodeField_append_operandField (w : Word40) : opcodeField w ++ operandField w = w :=
  BitVec.extractLsb'_append_extractLsb'

theorem encode_eq_of_fields {i : Instr} {w : Word40} (opcode : opcodeField w = i.opcode)
    (operand : operandField w = i.operand) : encode i = w := by
  rw [encode, ← opcode, ← operand, opcodeField_append_operandField]

/-- Formats PX and OF (R92): a byte above a 24-bit field. -/
theorem byteField_append_lowField24 (w : Word40) : byteField w 3 ++ lowField24 w = operandField w :=
  BitVec.extractLsb'_append_extractLsb'_eq_extractLsb' rfl

/-- Formats OW and RG (R92): a 24-bit field above a byte. -/
theorem highField24_append_byteField (w : Word40) : highField24 w ++ byteField w 0 = operandField w :=
  BitVec.extractLsb'_append_extractLsb'_eq_extractLsb' rfl

/-- The format of SCALE (R92): four bytes. -/
theorem bytes_append (w : Word40) :
    byteField w 3 ++ byteField w 2 ++ byteField w 1 ++ byteField w 0 = operandField w := by
  have h32 : byteField w 3 ++ byteField w 2 = w.extractLsb' 16 16 :=
    BitVec.extractLsb'_append_extractLsb'_eq_extractLsb' rfl
  have h321 : w.extractLsb' 16 16 ++ byteField w 1 = highField24 w :=
    BitVec.extractLsb'_append_extractLsb'_eq_extractLsb' rfl
  rw [h32, h321, highField24_append_byteField]

@[simp] theorem opcodeField_encode (i : Instr) : opcodeField (encode i) = i.opcode := (Laws.EncodeFields.fields i).1

@[simp] theorem operandField_encode (i : Instr) : operandField (encode i) = i.operand := (Laws.EncodeFields.fields i).2

/-! ## Encoding, then decoding -/

theorem append_inj {m n : Nat} {a a' : BitVec m} {b b' : BitVec n} (h : a ++ b = a' ++ b') : a = a' ∧ b = b' :=
  ⟨by simpa [BitVec.extractLsb'_append_eq_left] using congrArg (BitVec.extractLsb' n m) h,
    by simpa [BitVec.extractLsb'_append_eq_right] using congrArg (BitVec.extractLsb' 0 n) h⟩

theorem fields_of_byte_append {w : Word40} {a : Byte} {b : Word24} (h : operandField w = a ++ b) :
    byteField w 3 = a ∧ lowField24 w = b :=
  append_inj ((byteField_append_lowField24 w).trans h)

theorem fields_of_append_byte {w : Word40} {a : Word24} {b : Byte} (h : operandField w = a ++ b) :
    highField24 w = a ∧ byteField w 0 = b :=
  append_inj ((highField24_append_byteField w).trans h)

theorem fields_of_bytes {w : Word40} {a b c d : Byte} (h : operandField w = a ++ b ++ c ++ d) :
    byteField w 3 = a ∧ byteField w 2 = b ∧ byteField w 1 = c ∧ byteField w 0 = d := by
  obtain ⟨h321, h0⟩ := append_inj ((bytes_append w).trans h)
  obtain ⟨h32, h1⟩ := append_inj h321
  obtain ⟨h3, h2⟩ := append_inj h32
  exact ⟨h3, h2, h1, h0⟩

/-- Settles O1, by cases on the command: without operands its word is one number; with operands the fields of its word
are the operands. -/
theorem decodeInvertsEncode : Obligations.DecodeInvertsEncode := by
  unfold Obligations.DecodeInvertsEncode
  intro i wf
  cases i with
  | scale blue red green bright =>
    obtain ⟨h3, h2, h1, h0⟩ := fields_of_bytes (operandField_encode (.scale blue red green bright))
    simp [decode, Instr.opcode, h3, h2, h1, h0]
  | encodePixel pix packed =>
    obtain ⟨hpix, hpacked⟩ := fields_of_byte_append (operandField_encode (.encodePixel pix packed))
    simpa [decode, Instr.opcode, hpix, hpacked, Instr.wellFormed] using wf
  | rbRead off =>
    obtain ⟨hzero, hoff⟩ := fields_of_byte_append (operandField_encode (.rbRead off))
    simpa [decode, Instr.opcode, whenZero, hzero, hoff, Instr.wellFormed] using wf
  | rbWrite off data =>
    obtain ⟨hoff, hdata⟩ := fields_of_append_byte (operandField_encode (.rbWrite off data))
    simpa [decode, Instr.opcode, hoff, hdata, Instr.wellFormed] using wf
  | rdReg reg =>
    obtain ⟨hzero, hreg⟩ := fields_of_append_byte (operandField_encode (.rdReg reg))
    simpa [decode, Instr.opcode, whenZero, hzero, hreg, Instr.wellFormed] using wf
  | takeProducer | takeConsumer | rbReadableView | rbWritableView | rbRequestSwap | rbCommitSwap | rbLength
  | chRequestSwap | chTrySwap | computeFrame | isAnimationFinished | startFrame => decide

/-! ## The row of a word -/

/-- The row of R94 that the decoder applies to the word `w`, and `i`, what it reads there: the must-be-zero bits alone
decide whether `i` is the answer (R96), and then no bit of the operand field is lost. -/
structure DecoderRow (w : Word40) (i : Instr) : Prop where
  opcode : opcodeField w = i.opcode
  wellFormed : i.wellFormed = true
  operand : MbzClear w → operandField w = i.operand
  clear : MbzClear w → decode w = .ok i
  notClear : ¬MbzClear w → decode w = .error .mustBeZero

/-- The row of a format whose must-be-zero bits are `field`. -/
theorem DecoderRow.of_field {w : Word40} {i : Instr} {n : Nat} (field : BitVec n) (opcode : opcodeField w = i.opcode)
    (wellFormed : i.wellFormed = true) (decoded : decode w = whenZero (field == 0) i)
    (check : MbzClear w ↔ field = 0) (operand : field = 0 → operandField w = i.operand) : DecoderRow w i where
  opcode := opcode
  wellFormed := wellFormed
  operand clear := operand (check.1 clear)
  clear clear := by simp [decoded, whenZero, check.1 clear]
  notClear set := by simpa [decoded, whenZero] using mt check.2 set

/-- The row of a format without must-be-zero bits. -/
theorem DecoderRow.of_used {w : Word40} {i : Instr} (used : MbzClear w) (opcode : opcodeField w = i.opcode)
    (wellFormed : i.wellFormed = true) (decoded : decode w = .ok i) (operand : operandField w = i.operand) :
    DecoderRow w i :=
  ⟨opcode, wellFormed, fun _ => operand, fun _ => decoded, fun set => absurd used set⟩

theorem mbzClear_of_formatZ {w : Word40} (h : (opcodeField w).toNat ∈ formatZOpcodes) :
    MbzClear w ↔ operandField w = 0 := by
  have notRead : (opcodeField w).toNat ≠ 0x25 := fun h' => by simp [formatZOpcodes, h'] at h
  have notReg : (opcodeField w).toNat ≠ 0x60 := fun h' => by simp [formatZOpcodes, h'] at h
  simp [MbzClear, h, notRead, notReg]

theorem mbzClear_of_rbRead {w : Word40} (h : (opcodeField w).toNat = 0x25) : MbzClear w ↔ byteField w 3 = 0 := by
  simp [MbzClear, formatZOpcodes, h]

theorem mbzClear_of_rdReg {w : Word40} (h : (opcodeField w).toNat = 0x60) : MbzClear w ↔ highField24 w = 0 := by
  simp [MbzClear, formatZOpcodes, h]

/-- The formats without must-be-zero bits. -/
theorem mbzClear_of_all_used {w : Word40}
    (h : (opcodeField w).toNat = 0x10 ∨ (opcodeField w).toNat = 0x11 ∨ (opcodeField w).toNat = 0x26) : MbzClear w := by
  rcases h with h | h | h <;> simp [MbzClear, formatZOpcodes, h]

theorem exists_decoderRow_of_formatZ {w : Word40} (z : (opcodeField w).toNat ∈ formatZOpcodes) :
    ∃ i, DecoderRow w i := by
  have row (i : Instr) (h : (opcodeField w).toNat = i.opcode.toNat) (wellFormed : i.wellFormed = true)
      (operand : i.operand = 0) (decoded : decode w = decodeZ w i) : ∃ i, DecoderRow w i :=
    ⟨i, .of_field (operandField w) (BitVec.eq_of_toNat_eq h) wellFormed decoded (mbzClear_of_formatZ z)
      fun zero => zero.trans operand.symm⟩
  have cases := z
  simp only [formatZOpcodes, List.mem_cons, List.not_mem_nil, or_false] at cases
  rcases cases with h | h | h | h | h | h | h | h | h | h | h | h
  · exact row .takeProducer h rfl rfl (by simp only [decode, h])
  · exact row .takeConsumer h rfl rfl (by simp only [decode, h])
  · exact row .rbReadableView h rfl rfl (by simp only [decode, h])
  · exact row .rbWritableView h rfl rfl (by simp only [decode, h])
  · exact row .rbRequestSwap h rfl rfl (by simp only [decode, h])
  · exact row .rbCommitSwap h rfl rfl (by simp only [decode, h])
  · exact row .rbLength h rfl rfl (by simp only [decode, h])
  · exact row .chRequestSwap h rfl rfl (by simp only [decode, h])
  · exact row .chTrySwap h rfl rfl (by simp only [decode, h])
  · exact row .computeFrame h rfl rfl (by simp only [decode, h])
  · exact row .isAnimationFinished h rfl rfl (by simp only [decode, h])
  · exact row .startFrame h rfl rfl (by simp only [decode, h])

/-- Every defined opcode has its row. -/
theorem exists_decoderRow {w : Word40} (defined : (opcodeField w).toNat ∈ definedOpcodes) : ∃ i, DecoderRow w i := by
  have cases : (opcodeField w).toNat ∈ formatZOpcodes ∨ (opcodeField w).toNat = 0x10 ∨ (opcodeField w).toNat = 0x11 ∨
      (opcodeField w).toNat = 0x25 ∨ (opcodeField w).toNat = 0x26 ∨ (opcodeField w).toNat = 0x60 := by
    simp only [definedOpcodes, formatZOpcodes, List.mem_cons, List.not_mem_nil, or_false] at defined ⊢
    omega
  rcases cases with z | h | h | h | h | h
  · exact exists_decoderRow_of_formatZ z
  · exact ⟨.scale (byteField w 3) (byteField w 2) (byteField w 1) (byteField w 0),
      .of_used (mbzClear_of_all_used (.inl h)) (BitVec.eq_of_toNat_eq h) rfl (by simp only [decode, h])
        (bytes_append w).symm⟩
  · exact ⟨.encodePixel (byteField w 3).toNat (lowField24 w),
      .of_used (mbzClear_of_all_used (.inr (.inl h))) (BitVec.eq_of_toNat_eq h) (decide_eq_true (BitVec.isLt _))
        (by simp only [decode, h]) (by simp [Instr.operand, byteField_append_lowField24])⟩
  · exact ⟨.rbRead (lowField24 w).toNat,
      .of_field (byteField w 3) (BitVec.eq_of_toNat_eq h) (decide_eq_true (BitVec.isLt _))
        (by simp only [decode, h]) (mbzClear_of_rbRead h)
        fun zero => by rw [← byteField_append_lowField24, zero]; simp [Instr.operand]⟩
  · exact ⟨.rbWrite (highField24 w).toNat (byteField w 0),
      .of_used (mbzClear_of_all_used (.inr (.inr h))) (BitVec.eq_of_toNat_eq h) (decide_eq_true (BitVec.isLt _))
        (by simp only [decode, h]) (by simp [Instr.operand, highField24_append_byteField])⟩
  · exact ⟨.rdReg (byteField w 0).toNat,
      .of_field (highField24 w) (BitVec.eq_of_toNat_eq h) (decide_eq_true (BitVec.isLt _))
        (by simp only [decode, h]) (mbzClear_of_rdReg h)
        fun zero => by rw [← highField24_append_byteField, zero]; simp [Instr.operand]⟩

theorem decode_of_reserved {w : Word40} (reserved : (opcodeField w).toNat ∉ definedOpcodes) :
    decode w = .error .reservedOpcode := by
  unfold decode
  split <;> simp_all [definedOpcodes]

/-- What decoding a word can be: a reserved opcode, or its row with the must-be-zero bits clear or not. -/
theorem decode_cases (w : Word40) :
    ((opcodeField w).toNat ∉ definedOpcodes ∧ decode w = .error .reservedOpcode) ∨
    ((opcodeField w).toNat ∈ definedOpcodes ∧ ¬MbzClear w ∧ decode w = .error .mustBeZero) ∨
    ((opcodeField w).toNat ∈ definedOpcodes ∧ MbzClear w ∧
      ∃ i, decode w = .ok i ∧ i.wellFormed = true ∧ encode i = w) := by
  by_cases defined : (opcodeField w).toNat ∈ definedOpcodes
  · obtain ⟨i, row⟩ := exists_decoderRow defined
    by_cases clear : MbzClear w
    · exact .inr (.inr ⟨defined, clear, i, row.clear clear, row.wellFormed,
        encode_eq_of_fields row.opcode (row.operand clear)⟩)
    · exact .inr (.inl ⟨defined, clear, row.notClear clear⟩)
  · exact .inl ⟨defined, decode_of_reserved defined⟩

/-- Settles O2: only the row of a word with its must-be-zero bits clear answers a command. -/
theorem decodedWordIsItsEncoding : Obligations.DecodedWordIsItsEncoding := by
  unfold Obligations.DecodedWordIsItsEncoding
  intro w i decoded
  rcases decode_cases w with ⟨_, e⟩ | ⟨_, _, e⟩ | ⟨_, _, j, e, wellFormed, encoded⟩ <;> rw [e] at decoded
  · cases decoded
  · cases decoded
  · cases decoded
    exact ⟨wellFormed, encoded⟩

/-- Settles O3, by the three cases of decoding. -/
theorem decoderRejectsExactlyReservedAndMbz : Obligations.DecoderRejectsExactlyReservedAndMbz := by
  unfold Obligations.DecoderRejectsExactlyReservedAndMbz
  intro w
  rcases decode_cases w with ⟨reserved, e⟩ | ⟨defined, set, e⟩ | ⟨defined, clear, _, e, _, _⟩
  · simp [e, reserved]
  · simp [e, defined, set]
  · simp [e, defined, clear]

/-- Settles O4, by running the decoder on the twelve words. -/
theorem vectorWordsDecode : Obligations.VectorWordsDecode := by
  unfold Obligations.VectorWordsDecode
  decide

end Sys2Proof.Machine

/-! PROOF. What a command word does when it is the next input: the decoded command, or the rejection (30_encoding.md
R91, R95, R96, 60_exceptions.md R264). -/

namespace Sys2Proof.Machine

theorem runWord_of_decode {w : Word40} {i : Instr} (decoded : decode w = .ok i) (s : State) :
    runWord w s = exec i s := by
  simp only [runWord, decoded]

/-- For either reason of R95 and R96 nothing is left to run, and check 1 of R264 has passed. -/
theorem runWord_of_illegal {w : Word40} {s : State}
    (illegal : (opcodeField w).toNat ∉ definedOpcodes ∨ ¬MbzClear w) (valid : s.configFault = false) :
    runWord w s = raise s .illegal := by
  rcases decode_cases w with ⟨_, e⟩ | ⟨_, _, e⟩ | ⟨defined, clear, _⟩
  · simp [runWord, e, rejectWord, valid]
  · simp [runWord, e, rejectWord, valid]
  · exact absurd illegal (by simp [defined, clear])

/-- A command word that is next and need not wait is delivered (20_memory.md R74). -/
theorem step_of_command {s : State} {agent : Agent} {w : Word40} {inside : List Nat} {rest : List Input}
    (next : s.inputs = .command agent w inside :: rest) (free : s.heldBack (.command agent w inside) = false) :
    step s = deliver agent w { s with inputs := rest, inside := inside } := by
  simp [step, oneStep, next, free, takeInput]

/-- Settles O7: neither reason leaves a command to run, and without the capacity fault the word is ILLEGAL. -/
theorem illegalWordChangesNothing : Obligations.IllegalWordChangesNothing := by
  unfold Obligations.IllegalWordChangesNothing
  intro s agent w inside rest next free valid illegal
  rw [step_of_command next free, deliver, runWord_of_illegal illegal]
  · rfl
  · exact valid

/-- Settles O5: the word is delivered, and running it is `exec` of what it decodes to. -/
theorem stepRunsTheDecodedCommand : Obligations.StepRunsTheDecodedCommand := by
  unfold Obligations.StepRunsTheDecodedCommand
  intro s agent w inside rest i next free decoded
  rw [step_of_command next free, deliver, runWord_of_decode decoded]
  cases exec i { s with inputs := rest, inside := inside } <;> rfl

/-! ## The placed word -/

theorem tableWord_toNat (w : Word40) : tableWord 40 w.toNat = w := by
  simp [tableWord, Nat.mod_eq_of_lt w.isLt]

theorem agentOf_eq_producer_iff (c : CmdClass) : agentOf c = .producer ↔ c = .producer := by
  cases c <;> decide

/-- A command from the agent of its class waits exactly when it is of the producer class and a frame is in progress
(44_producer.md R181). -/
theorem heldBack_own_agent {w : Word40} {i : Instr} (decoded : decode w = .ok i) (s : State) (inside : List Nat) :
    s.heldBack (.command (agentOf (classOf i)) w inside) =
      (decide (s.compute ≠ .idle) && decide (classOf i = .producer)) := by
  simp [State.heldBack, isProducerWord, decoded, agentOf_eq_producer_iff]

/-- The state with a decodable word placed: the word is first, and the producer context is idle if the word is its
own. -/
theorem withFetchWord_eq {w : Word40} {i : Instr} (decoded : decode w = .ok i) (s : State) :
    s.withFetchWord 40 w.toNat = { s with
      inputs := .command (agentOf (classOf i)) w [] :: s.inputs
      compute := if classOf i = .producer then .idle else s.compute } := by
  have agent : agentOfWord w = agentOf (classOf i) := by simp only [agentOfWord, decoded]
  have place : (if s.heldBack (.command (agentOf (classOf i)) w []) then Compute.idle else s.compute) =
      if classOf i = .producer then .idle else s.compute := by
    rw [heldBack_own_agent decoded]
    by_cases idle : s.compute = .idle <;> simp [idle]
  simp only [State.withFetchWord, tableWord_toNat, agent, place]

/-- Settles O13: the placed word is the next input and does not wait, so it is delivered. -/
theorem fetchedWordRunsNext : Obligations.FetchedWordRunsNext := by
  unfold Obligations.FetchedWordRunsNext
  intro s w i decoded
  rw [withFetchWord_eq decoded, step_of_command rfl, deliver, runWord_of_decode decoded]
  · rfl
  · rw [heldBack_own_agent decoded]
    by_cases own : classOf i = .producer <;> simp [own]

end Sys2Proof.Machine

/-! PROOF. The pixel encoder against the table of 30_encoding.md R100. -/

namespace Sys2Proof.Machine

theorem symbolByte_eq_tableByte (d0 d1 : Bool) : symbolByte d0 d1 = tableByte d1 d0 := by
  cases d0 <;> cases d1 <;> decide

theorem length_encodePixel (d0IsLow : Bool) (packed : Word24) : (encodePixel d0IsLow packed).length = 12 := by
  simp [encodePixel]

theorem encodePixel_getElem? (d0IsLow : Bool) (packed : Word24) {k : Nat} (hk : k < 12) :
    (encodePixel d0IsLow packed)[k]? = some (pairByte d0IsLow packed (11 - k)) := by
  simp [encodePixel, hk]

/-- Settles O18: byte `k` carries pair `11 - k`, and the masks of a pair make the table's byte. -/
theorem encodedPixelFollowsTheTable : Obligations.EncodedPixelFollowsTheTable := by
  unfold Obligations.EncodedPixelFollowsTheTable
  refine fun packed => ⟨fun d0IsLow => length_encodePixel d0IsLow packed, fun k hk => ?_⟩
  simp [encodePixel_getElem? _ packed hk, pairByte, symbolByte_eq_tableByte]

end Sys2Proof.Machine

/-! PROOF. The scaler: the packed response (40_color_scaler.md R120), the laws of one lane (R122) and its corners
(R123). -/

namespace Sys2Proof.Machine

/-! ## One lane -/

/-- The product of two bytes divided by 255 fits a byte, so a lane loses nothing (R121). -/
theorem toNat_mul_div_255_lt (c b : Byte) : c.toNat * b.toNat / 255 < 2 ^ 8 := by
  have product : c.toNat * b.toNat ≤ 255 * 255 := Nat.mul_le_mul (by omega) (by omega)
  omega

@[simp] theorem toNat_scaleLane (c b : Byte) : (scaleLane c b).toNat = c.toNat * b.toNat / 255 :=
  Nat.mod_eq_of_lt (toNat_mul_div_255_lt c b)

theorem scaleLane_comm (c b : Byte) : scaleLane c b = scaleLane b c := by
  rw [scaleLane, scaleLane, Nat.mul_comm]

@[simp] theorem scaleLane_zero (c : Byte) : scaleLane c 0 = 0 := by
  simp [scaleLane]

@[simp] theorem scaleLane_full (c : Byte) : scaleLane c 255 = c :=
  BitVec.eq_of_toNat_eq ((toNat_scaleLane c 255).trans (Nat.mul_div_cancel c.toNat (by decide)))

theorem toNat_scaleLane_le (c b : Byte) : (scaleLane c b).toNat ≤ c.toNat := by
  have product : c.toNat * b.toNat ≤ c.toNat * 255 := Nat.mul_le_mul_left _ (by omega)
  rw [toNat_scaleLane]
  omega

/-- Settles O16: the lane is the exact quotient, with its values at the two ends of the brightness. -/
theorem scaleLaneLaws : Obligations.ScaleLaneLaws :=
  fun c b => ⟨toNat_scaleLane c b, scaleLane_zero c, scaleLane_full c⟩

/-! ## Three lanes packed -/

/-- Blue, red and green are the bytes of the packed value, high to low (R98, R99). -/
theorem scaleColour_lanes (c : Colour) (b : Byte) :
    (scaleColour c b).extractLsb' 16 8 = scaleLane c.blue b ∧
    (scaleColour c b).extractLsb' 8 8 = scaleLane c.red b ∧
    (scaleColour c b).extractLsb' 0 8 = scaleLane c.green b := by
  have high : (scaleColour c b).extractLsb' 16 8 ++ (scaleColour c b).extractLsb' 8 8 =
      (scaleColour c b).extractLsb' 8 16 :=
    BitVec.extractLsb'_append_extractLsb'_eq_extractLsb' rfl
  have packed : (scaleColour c b).extractLsb' 16 8 ++ (scaleColour c b).extractLsb' 8 8 ++
      (scaleColour c b).extractLsb' 0 8 = scaleColour c b := by
    rw [high, BitVec.extractLsb'_append_extractLsb']
  obtain ⟨upper, green⟩ := append_inj packed
  obtain ⟨blue, red⟩ := append_inj upper
  exact ⟨blue, red, green⟩

/-- Fields that do not overlap: packing them is adding them (R121). -/
theorem toNat_append_eq_add {m n : Nat} (x : BitVec m) (y : BitVec n) :
    (x ++ y).toNat = x.toNat * 2 ^ n + y.toNat := by
  rw [BitVec.toNat_append, ← Nat.shiftLeft_add_eq_or_of_lt y.isLt, Nat.shiftLeft_eq]

theorem toNat_scaleColour (c : Colour) (b : Byte) :
    (scaleColour c b).toNat = (c.blue.toNat * b.toNat / 255) * 2 ^ 16 + (c.red.toNat * b.toNat / 255) * 2 ^ 8
      + c.green.toNat * b.toNat / 255 := by
  simp only [scaleColour, toNat_append_eq_add, toNat_scaleLane]
  ring

/-- A packed value extended to the response word keeps its number (R120). -/
theorem zero_append_eq_ofNat (packed : Word24) : 0#8 ++ packed = BitVec.ofNat 32 packed.toNat := by
  rw [BitVec.ofNat_toNat, BitVec.setWidth_eq_append (by decide)]
  rfl

/-- Settles O17: the bounds are those of truncating division by 255, and the six listed values are computed. -/
theorem scaleLaneCorners : Obligations.ScaleLaneCorners := by
  unfold Obligations.ScaleLaneCorners
  refine ⟨fun c b => ⟨scaleLane_comm c b, ?channelZero, ?bound, ?quotientLow, ?quotientHigh⟩, by decide,
    scaleColour_lanes⟩
  case channelZero => rw [scaleLane_comm, scaleLane_zero]
  case bound => exact le_min (toNat_scaleLane_le c b) (scaleLane_comm c b ▸ toNat_scaleLane_le b c)
  case quotientLow => rw [toNat_scaleLane]; exact Nat.mul_div_le _ _
  case quotientHigh => rw [toNat_scaleLane]; omega

/-! ## The command -/

/-- SCALE needs no handle, so without a capacity fault its body answers (R120, 60_exceptions.md R264). -/
theorem exec_scale_eq {s : State} (noFault : s.configFault = false) (blue red green bright : Byte) :
    exec (.scale blue red green bright) s = respond s (0#8 ++ scaleColour ⟨blue, red, green⟩ bright) := by
  rw [exec, execScale]
  exact checked_pass noFault (granted_host s)

/-- Settles O15: the answered word is the sum of the shifted lanes. -/
theorem scaleRespondsThePackedValue : Obligations.ScaleRespondsThePackedValue := by
  unfold Obligations.ScaleRespondsThePackedValue
  intro s blue red green bright noFault
  rw [exec_scale_eq noFault, zero_append_eq_ofNat, toNat_scaleColour]
  rfl

end Sys2Proof.Machine

/-! PROOF. The pixel encoder's uniform values and its inverse (41_bit_encoder.md R136, R137). -/

namespace Sys2Proof.Machine

/-! ## Uniform values -/

/-- A packed value whose bits are all `b` repeats one byte (R137). -/
theorem encodePixel_uniform (d0IsLow : Bool) {packed : Word24} {b : Bool} (uniform : ∀ i < 24, packed.getLsbD i = b) :
    encodePixel d0IsLow packed = List.replicate 12 (symbolByte b b) := by
  refine List.eq_replicate_iff.mpr ⟨length_encodePixel d0IsLow packed, fun y hy => ?_⟩
  simp only [encodePixel, List.mem_map, List.mem_range] at hy
  obtain ⟨k, hk, rfl⟩ := hy
  simp [pairByte, uniform (2 * (11 - k)) (by omega), uniform (2 * (11 - k) + 1) (by omega)]

/-- Settles O19: 0 and 0xFFFFFF are the two uniform values. -/
theorem encodedPixelIsTwelveBytes : Obligations.EncodedPixelIsTwelveBytes := by
  unfold Obligations.EncodedPixelIsTwelveBytes
  refine fun d0IsLow => ⟨length_encodePixel d0IsLow, ?zeros, ?ones⟩
  case zeros => exact encodePixel_uniform d0IsLow (b := false) fun i _ => BitVec.getLsbD_zero
  case ones =>
    exact encodePixel_uniform d0IsLow (b := true) fun i hi => (BitVec.getLsbD_allOnes (v := 24)).trans (by simp [hi])

/-! ## The inverse -/

/-- A byte is read nibble by nibble. -/
theorem eq_append_iff_nibbles (y : Byte) (a b : BitVec 4) :
    y = a ++ b ↔ y.extractLsb' 4 4 = a ∧ y.extractLsb' 0 4 = b := by
  have nibbles : y.extractLsb' 4 4 ++ y.extractLsb' 0 4 = y := BitVec.extractLsb'_append_extractLsb'
  constructor
  · intro h
    exact append_inj (nibbles.trans h)
  · rintro ⟨rfl, rfl⟩
    exact nibbles.symm

/-- The four encoded bytes are the two high nibbles with the two low nibbles (R136). -/
theorem symbolBits_eq_none_iff (y : Byte) : symbolBits y = none ↔ y ∉ [0xEF#8, 0xE8#8, 0x0F#8, 0x08#8] := by
  have isEF := eq_append_iff_nibbles y 0xE#4 0xF#4
  have isE8 := eq_append_iff_nibbles y 0xE#4 0x8#4
  have is0F := eq_append_iff_nibbles y 0x0#4 0xF#4
  have is08 := eq_append_iff_nibbles y 0x0#4 0x8#4
  simp only [BitVec.reduceAppend] at isEF isE8 is0F is08
  simp only [symbolBits, ite_eq_right_iff, reduceCtorEq, imp_false, List.mem_cons, List.not_mem_nil, or_false, isEF,
    isE8, is0F, is08]
  tauto

theorem symbolBits_symbolByte (d0 d1 : Bool) : symbolBits (symbolByte d0 d1) = some (d0, d1) := by
  cases d0 <;> cases d1 <;> decide

/-- Bit pair `i` of a packed value. -/
def bitPair (packed : Word24) (i : Nat) : BitVec 2 :=
  BitVec.ofBool (packed.getLsbD (2 * i + 1)) ++ BitVec.ofBool (packed.getLsbD (2 * i))

@[simp] theorem bitPair_getElem_zero (packed : Word24) (i : Nat) : (bitPair packed i)[0] = packed.getLsbD (2 * i) :=
  (BitVec.getElem_append (by decide)).trans (by simp)

@[simp] theorem bitPair_getElem_one (packed : Word24) (i : Nat) :
    (bitPair packed i)[1] = packed.getLsbD (2 * i + 1) :=
  (BitVec.getElem_append (by decide)).trans (by simp)

/-- Decoding the byte of pair `i` shifts that pair in, whichever of its bits is `d0`. -/
theorem decodePixelFrom_pairByte (d0IsLow : Bool) (acc packed : Word24) (i : Nat) (rest : List Byte) :
    decodePixelFrom d0IsLow acc (pairByte d0IsLow packed i :: rest) =
      decodePixelFrom d0IsLow ((acc <<< 2) ||| (bitPair packed i).setWidth 24) rest := by
  cases d0IsLow <;> simp [decodePixelFrom, pairByte, bitPair, symbolBits_symbolByte]

/-- The bits from pair `n` up are those above pair `n`, then pair `n`. -/
theorem shiftLeft_or_bitPair (packed : Word24) (n : Nat) :
    ((packed >>> (2 * (n + 1))) <<< 2) ||| (bitPair packed n).setWidth 24 = packed >>> (2 * n) := by
  apply BitVec.eq_of_getLsbD_eq
  intro i hi
  match i with
  | 0 => simp
  | 1 => simp
  | i + 2 =>
    have above : 2 * (n + 1) + i = 2 * n + (i + 2) := by omega
    simp [hi, above]

/-- With the bits above pair `n - 1` already read, the bytes of pairs `n - 1` down to 0 complete the value. -/
theorem decodePixelFrom_pairs (d0IsLow : Bool) (packed : Word24) (n : Nat) :
    decodePixelFrom d0IsLow (packed >>> (2 * n))
      ((List.range n).map fun k => pairByte d0IsLow packed (n - 1 - k)) = some packed := by
  induction n with
  | zero => simp [decodePixelFrom]
  | succ n ih =>
    have later : (fun k => pairByte d0IsLow packed (n + 1 - 1 - k)) ∘ Nat.succ =
        fun k => pairByte d0IsLow packed (n - 1 - k) := by
      funext k
      simp only [Function.comp_apply]
      congr 1
      omega
    rw [List.range_succ_eq_map, List.map_cons, List.map_map, later, decodePixelFrom_pairByte]
    simpa [shiftLeft_or_bitPair] using ih

/-- Settles O20: the twelve bytes read back all twelve pairs of 24 bits, none of them read before. -/
theorem pixelDecodesBack : Obligations.PixelDecodesBack := by
  unfold Obligations.PixelDecodesBack
  refine ⟨fun d0IsLow packed => ?_, symbolBits_eq_none_iff⟩
  have nothing : packed >>> (2 * 12) = 0 := BitVec.ushiftRight_eq_zero (by decide)
  rw [decodePixel, if_pos (length_encodePixel d0IsLow packed), ← nothing]
  exact decodePixelFrom_pairs d0IsLow packed 12

end Sys2Proof.Machine

/-! PROOF. Where ENCODE_PIXEL stores its bytes, and in which order (41_bit_encoder.md R130, R133). -/

namespace Sys2Proof.Machine

/-! ## The command -/

/-- ENCODE_PIXEL that passes its checks records its misuse, puts the pixel and answers (R130, 60_exceptions.md R256). -/
theorem exec_encodePixel_eq {s : State} {pix : Nat} (noFault : s.configFault = false) (taken : s.producerTaken = true)
    (fits : 12 * pix + 11 < s.bufLen) (packed : Word24) :
    exec (.encodePixel pix packed) s = .next (((s.violate .primitiveMisuse).putPixel pix packed).answer .ok 0) := by
  rw [exec, execEncodePixel, checked_pass (cls := .producer) noFault taken, if_pos (slotFits_iff.mpr fits)]
  rfl

/-- Settles O21: the command is twelve byte writes into the slot, after the misuse is recorded. -/
theorem encodePixelStoresItsSlot : Obligations.EncodePixelStoresItsSlot := by
  unfold Obligations.EncodePixelStoresItsSlot
  intro s pix packed noFault taken fits
  refine ⟨_, exec_encodePixel_eq noFault taken fits packed, ?slot, ?outside, ?others, ?engine, ?calm⟩
  case slot => exact fun k hk => putPixel_read (s.violate .primitiveMisuse) pix packed k hk
  case outside => exact putPixel_outside (s.violate .primitiveMisuse) pix packed
  case others =>
    obtain ⟨b1, b2, r, n, h, ins, written⟩ := putSlot_eq (s.violate .primitiveMisuse) pix
      (pairByte s.par.pairD0IsLowBit packed)
    rw [State.putPixel, violate_par, written]
    rfl
  case engine =>
    exact (putBytes_only _ (s.violate .primitiveMisuse)).congr ⟨rfl, rfl, rfl⟩ ⟨rfl, rfl, rfl⟩
  case calm => exact (putPixel_frame (s.violate .primitiveMisuse) pix packed).calm

/-! ## The order of the writes -/

theorem PutFrame.txLen_eq {s t : State} (h : PutFrame s t) : t.txLen = s.txLen := by rw [h.same]

theorem PutFrame.bufLen_eq {s t : State} (h : PutFrame s t) : t.bufLen = s.bufLen := by
  rw [h.same]
  rfl

/-- A byte write moves nothing of the engine's. -/
theorem putByte_engine (s : State) (off : Nat) (b : Byte) :
    (s.putByte off b).inside = s.inside ∧ (s.putByte off b).txRegion = s.txRegion ∧
    (s.putByte off b).txNext = s.txNext ∧ (s.putByte off b).history = s.history := by
  rw [putByte_eq]
  exact ⟨rfl, rfl, rfl, rfl⟩

/-- The one engine step planned after a write sends the byte it finds (20_memory.md R75 e, 47_collaborator_ports.md
R234). -/
theorem engineBetween_sends {s : State} {r : Region} (planned : s.inside = [1]) (flight : s.txRegion = some r)
    (left : s.txNext < s.txLen.toNat) (inRegion : s.txNext < s.bufLen) :
    s.engineBetween.inside = [] ∧ s.engineBetween.txRegion = s.txRegion ∧ s.engineBetween.txNext = s.txNext + 1 ∧
    s.engineBetween.history = s.history ++ [.txByte s.txNext (s.readByte r s.txNext)] := by
  have reads : s.engineBetween = ({ s with inside := [] } : State).txRead r := by
    rw [State.engineBetween, planned]
    exact engineStep_reads (s := { s with inside := [] }) flight left inRegion
  rw [reads]
  exact ⟨rfl, rfl, rfl, rfl⟩

/-- One engine step planned after the write `w` and none elsewhere: it sends what the writes up to `w` have left at its
offset. -/
theorem putBytes_one_engine_step {s : State} (before after : List (Nat × Byte)) (w : Nat × Byte)
    (planned : s.inside = List.replicate before.length 0 ++ [1]) {r : Region} (flight : s.txRegion = some r)
    (left : s.txNext < s.txLen.toNat) (inRegion : s.txNext < s.bufLen) :
    (s.putBytes (before ++ w :: after)).txNext = s.txNext + 1 ∧
    (s.putBytes (before ++ w :: after)).txRegion = s.txRegion ∧
    (s.putBytes (before ++ w :: after)).history =
      s.history ++ [.txByte s.txNext ((s.putBytes (before ++ [w])).readByte r s.txNext)] := by
  obtain ⟨inside, region, next, history⟩ := putBytes_waits before s [1] planned
  obtain ⟨inside', region', next', history'⟩ := putByte_engine (s.putBytes before) w.1 w.2
  have frame := (putBytes_frame before s).trans (putByte_frame _ w.1 w.2)
  rw [putBytes_append, putBytes_append, putBytes_cons, putBytes_cons]
  replace region' := region'.trans region
  replace next' := next'.trans next
  generalize (s.putBytes before).putByte w.1 w.2 = v at *
  obtain ⟨idle, sentRegion, sentNext, sent⟩ := engineBetween_sends (inside'.trans inside) (region'.trans flight)
    (by rw [next', frame.txLen_eq]; exact left) (by rw [next', frame.bufLen_eq]; exact inRegion)
  obtain ⟨afterRegion, afterNext, afterHistory, _⟩ := (putBytes_frame after v.engineBetween).calm idle
  refine ⟨?next, ?region, ?history⟩
  case next => rw [afterNext, sentNext, next']
  case region => rw [afterRegion, sentRegion, region']
  case history =>
    have bytes : (v.engineBetween.putBytes []).readByte r s.txNext = v.readByte r s.txNext :=
      (engineBetween_frame v).readByte r s.txNext
    rw [afterHistory, sent, history', history, next', bytes]

/-- The first `m + 1` writes of a slot are those of its `m + 1` highest offsets (R133). -/
theorem putBytes_take_slotWrites_read (s : State) (p : Nat) (f : Nat → Byte) {m : Nat} (hm : m < 12) (off : Nat) :
    (s.putBytes ((slotWrites p f).take (m + 1))).readByte s.inactive off =
      if 12 * p + (11 - m) ≤ off ∧ off ≤ 12 * p + 11 then f (11 - (off - 12 * p)) else s.readByte s.inactive off := by
  have first : (slotWrites p f).take (m + 1) = (List.range (m + 1)).map fun i => (12 * p + (11 - i), f i) := by
    rw [slotWrites, ← List.map_take, List.take_range, Nat.min_eq_left hm]
  split
  case isTrue written =>
    have distinct := (slotWrites_nodup p f).sublist ((List.take_sublist (m + 1) _).map Prod.fst)
    have offset : 12 * p + (11 - (11 - (off - 12 * p))) = off := by omega
    refine putBytes_read_same _ s distinct (off, _) ?_
    rw [first]
    exact List.mem_map.mpr ⟨11 - (off - 12 * p), List.mem_range.mpr (by omega), by rw [offset]⟩
  case isFalse beyond =>
    refine putBytes_read_other _ s _ off fun w hw same => beyond ?_
    rw [first] at hw
    obtain ⟨i, hi, rfl⟩ := List.mem_map.mp hw
    have := List.mem_range.mp hi
    obtain ⟨_, rfl⟩ := same
    simp only
    omega

/-- One engine step planned after the first `m + 1` writes of a slot sends the new byte where one of these was made. -/
theorem putSlot_one_engine_step {s : State} (p : Nat) (f : Nat → Byte) {m : Nat} (hm : m < 12)
    (planned : s.inside = List.replicate m 0 ++ [1]) (flight : s.txRegion = some s.inactive)
    (left : s.txNext < s.txLen.toNat) (inRegion : s.txNext < s.bufLen) :
    (s.putBytes (slotWrites p f)).txNext = s.txNext + 1 ∧
    (s.putBytes (slotWrites p f)).txRegion = s.txRegion ∧
    (s.putBytes (slotWrites p f)).history = s.history ++ [.txByte s.txNext
      (if 12 * p + (11 - m) ≤ s.txNext ∧ s.txNext ≤ 12 * p + 11 then f (11 - (s.txNext - 12 * p))
      else s.readByte s.inactive s.txNext)] := by
  have hlen : m < (slotWrites p f).length := by simpa [slotWrites] using hm
  have sent := putBytes_one_engine_step ((slotWrites p f).take m) ((slotWrites p f).drop (m + 1)) (slotWrites p f)[m]
    (by rwa [List.length_take_of_le hlen.le]) flight left inRegion
  rwa [List.take_append_getElem, List.getElem_cons_drop, List.take_append_drop,
    putBytes_take_slotWrites_read s p f hm] at sent

/-- Settles O60: the planned engine step of the slot's twelve writes, its new byte read as the encoder's. -/
theorem encodePixelWritesItsHighestByteFirst : Obligations.EncodePixelWritesItsHighestByteFirst := by
  unfold Obligations.EncodePixelWritesItsHighestByteFirst
  intro s pix packed m noFault taken fits hm planned flight left inRegion
  obtain ⟨next, region, history⟩ := putSlot_one_engine_step (s := s.violate .primitiveMisuse) pix
    (pairByte s.par.pairD0IsLowBit packed) hm planned flight left inRegion
  refine ⟨_, exec_encodePixel_eq noFault taken fits packed, next, region, history.trans ?_⟩
  refine congrArg (fun v => s.history ++ [.txByte s.txNext v]) ?_
  refine ite_congr rfl (fun written => ?_) fun _ => rfl
  obtain ⟨_, last⟩ := written
  have inSlot : s.txNext - 12 * pix < 12 := by omega
  exact (encodePixel_getD _ _ _ inSlot).symm

end Sys2Proof.Machine

/-! PROOF. The double buffer primitives: what each one does that passes its checks, and the round trip of bytes
through a swap (42_double_buffer.md R145 to R153). -/

namespace Sys2Proof.Machine

/-! ## Values and violations -/

theorem zero_append_byte (b : Byte) : 0#24 ++ b = BitVec.ofNat 32 b.toNat := by
  rw [BitVec.ofNat_toNat, BitVec.setWidth_eq_append (by decide)]
  rfl

theorem add_startWhileBusy_if (vs : Violations) (c : Bool) :
    (if c then vs.add .startWhileBusy else vs) = { vs with startWhileBusy := vs.startWhileBusy || c } := by
  cases c <;> simp [Violations.add]

/-- The ghost set is a set: a misuse already in it is not recorded again. -/
theorem violate_misuse_of_recorded {s : State} (recorded : s.violations.primitiveMisuse = true) :
    s.violate .primitiveMisuse = s := by
  have same : s.violations.add .primitiveMisuse = s.violations := by
    rw [Violations.add, ← recorded]
  rw [State.violate, same]

/-! ## The commands -/

theorem exec_rbReadableView_of_taken {s : State} (noFault : s.configFault = false) (taken : s.consumerTaken = true) :
    exec .rbReadableView s = respond s (regionId s.active) := by
  rw [exec, execRbReadableView]
  exact checked_pass (cls := .consumer) noFault taken

theorem exec_rbWritableView_of_taken {s : State} (noFault : s.configFault = false) (taken : s.producerTaken = true) :
    exec .rbWritableView s = respond s (regionId s.inactive) := by
  rw [exec, execRbWritableView]
  exact checked_pass (cls := .producer) noFault taken

theorem exec_rbLength_of_noFault {s : State} (noFault : s.configFault = false) :
    exec .rbLength s = respond s (0#8 ++ s.par.bufLen) := by
  rw [exec, execRbLength]
  exact checked_pass noFault (granted_host s)

theorem exec_rbRequestSwap_of_taken {s : State} (noFault : s.configFault = false) (taken : s.producerTaken = true) :
    exec .rbRequestSwap s = respond { s.violate .primitiveMisuse with swapPending := true } 0 := by
  rw [exec, execRbRequestSwap]
  exact checked_pass (cls := .producer) noFault taken

theorem exec_rbCommitSwap_of_taken {s : State} (noFault : s.configFault = false) (taken : s.consumerTaken = true) :
    exec .rbCommitSwap s = respond (s.violate .primitiveMisuse).commitSwap (flagData s.swapPending) := by
  rw [exec, execRbCommitSwap]
  exact checked_pass (cls := .consumer) noFault taken

/-- RB_READ that passes the checks of its class is decided by its offset (R147, 60_exceptions.md R264, check 4). -/
theorem exec_rbRead_of_taken {s : State} (noFault : s.configFault = false) (taken : s.consumerTaken = true)
    (off : Nat) :
    exec (.rbRead off) s =
      if off < s.bufLen then
        respond (s.violate .primitiveMisuse) (BitVec.ofNat 32 (s.readByte s.active off).toNat)
      else raise s .range := by
  rw [exec, execRbRead, checked_pass (cls := .consumer) noFault taken, zero_append_byte]

/-- RB_WRITE that passes the checks of its class is decided by its offset (R148, 60_exceptions.md R264, check 4). -/
theorem exec_rbWrite_of_taken {s : State} (noFault : s.configFault = false) (taken : s.producerTaken = true) (off : Nat)
    (data : Byte) :
    exec (.rbWrite off data) s =
      if off < s.bufLen then respond ((s.violate .primitiveMisuse).putByte off data) 0 else raise s .range := by
  rw [exec, execRbWrite]
  exact checked_pass (cls := .producer) noFault taken

/-- Settles O22: the id of a region is read off the selector. -/
theorem viewsNameTheTwoRegions : Obligations.ViewsNameTheTwoRegions := by
  unfold Obligations.ViewsNameTheTwoRegions
  refine fun s noFault => ⟨fun taken => ?readable, fun taken => ?writable⟩
  case readable =>
    rw [exec_rbReadableView_of_taken noFault taken, State.active, apply_ite regionId]
    rfl
  case writable =>
    rw [exec_rbWritableView_of_taken noFault taken, State.inactive, apply_ite regionId]
    rfl

/-- Settles O23: the capacity is widened, not changed. -/
theorem lengthAnswersTheCapacity : Obligations.LengthAnswersTheCapacity := by
  unfold Obligations.LengthAnswersTheCapacity
  intro s noFault
  rw [exec_rbLength_of_noFault noFault, zero_append_eq_ofNat]
  rfl

/-- Settles O24, by the one comparison of the offset with `BUF_LEN`. -/
theorem readAnswersTheActiveByte : Obligations.ReadAnswersTheActiveByte := by
  unfold Obligations.ReadAnswersTheActiveByte
  refine fun s off noFault taken => ⟨fun inside => ?inside, fun beyond => ?beyond⟩
  case inside =>
    rw [exec_rbRead_of_taken noFault taken, if_pos inside]
    rfl
  case beyond =>
    rw [exec_rbRead_of_taken noFault taken, if_neg beyond.not_gt]
    rfl

/-- Settles O25: below `BUF_LEN` the command is one `putByte` after its misuse is recorded. -/
theorem writeStoresOneInactiveByte : Obligations.WriteStoresOneInactiveByte := by
  unfold Obligations.WriteStoresOneInactiveByte
  refine fun s off data noFault taken => ⟨fun inside => ?inside, fun beyond => ?beyond⟩
  case inside =>
    rw [exec_rbWrite_of_taken noFault taken, if_pos inside]
    refine ⟨_, rfl, putByte_read_same (s.violate .primitiveMisuse) off data, fun r off' outside => ?_, ?others⟩
    · refine putByte_read_other (s.violate .primitiveMisuse) off off' data r fun written => outside ?_
      obtain ⟨rfl, rfl⟩ := written
      exact ⟨rfl, le_rfl, Nat.lt_succ_self _⟩
    case others =>
      rw [putByte_eq, add_writeWhileBusy_if]
      rfl
  case beyond =>
    rw [exec_rbWrite_of_taken noFault taken, if_neg beyond.not_gt]
    rfl

/-! ## The swap -/

/-- R150 with a swap pending, the flag of 60_exceptions.md R256 as one record. -/
theorem commitSwap_of_pending {s : State} (pending : s.swapPending = true) :
    s.commitSwap = { s with
      activeIs1 := !s.activeIs1, swapPending := false
      violations := { s.violations with
        startWhileBusy := s.violations.startWhileBusy || s.txRegion.isSome } } := by
  rw [commitSwap_eq, pending, Bool.true_and, Bool.xor_true, add_startWhileBusy_if]

theorem commitSwap_of_not_pending {s : State} (clear : s.swapPending = false) : s.commitSwap = s := by
  simp [State.commitSwap, clear]

/-- Settles O26: a commit is `commitSwap`, whose two cases are those of the flag. -/
theorem bufferSwapIsRequestedThenCommitted : Obligations.BufferSwapIsRequestedThenCommitted := by
  unfold Obligations.BufferSwapIsRequestedThenCommitted
  refine fun s noFault => ⟨fun taken => ?request, fun taken pending => ?commit, fun taken clear => ?nothing⟩
  case request => exact exec_rbRequestSwap_of_taken noFault taken
  case commit =>
    rw [exec_rbCommitSwap_of_taken noFault taken, commitSwap_of_pending (s := s.violate .primitiveMisuse) pending,
      pending]
    rfl
  case nothing =>
    have zero : flagData s.swapPending = 0 := by
      rw [clear]
      rfl
    rw [exec_rbCommitSwap_of_taken noFault taken, commitSwap_of_not_pending (s := s.violate .primitiveMisuse) clear,
      zero]
    rfl

/-- Requested and then committed, a swap is performed whether or not one was pending before. -/
theorem swapBuffers_eq {s : State} (noFault : s.configFault = false) (producer : s.producerTaken = true)
    (consumer : s.consumerTaken = true) :
    swapBuffers s = .next { s with
      activeIs1 := !s.activeIs1, swapPending := false, response := some ⟨.ok, 1⟩
      violations := { s.violations with
        primitiveMisuse := true
        startWhileBusy := s.violations.startWhileBusy || s.txRegion.isSome } } := by
  obtain ⟨request, _⟩ := bufferSwapIsRequestedThenCommitted s noFault
  rw [swapBuffers, request producer, andThen_next]
  obtain ⟨_, commit, _⟩ := bufferSwapIsRequestedThenCommitted { s with
    swapPending := true, response := some ⟨.ok, 0⟩
    violations := { s.violations with primitiveMisuse := true } } noFault
  exact commit consumer rfl

/-- A flipped selector exchanges the two views (20_memory.md R61). -/
theorem active_of_flipped {s t : State} (flipped : t.activeIs1 = !s.activeIs1) : t.active = s.inactive := by
  rw [State.active, State.inactive, flipped]
  cases s.activeIs1 <;> rfl

/-- What the round trip needs of a requested and committed swap: the written region becomes the readable one, no byte
moves (20_memory.md R73), and the misuse is on record. -/
theorem swapBuffers_exposes {s : State} (noFault : s.configFault = false) (producer : s.producerTaken = true)
    (consumer : s.consumerTaken = true) :
    ∃ t, swapBuffers s = .next t ∧ SettingsPersist s t ∧ SameBytes s t ∧ t.active = s.inactive ∧
      t.violations.primitiveMisuse = true :=
  ⟨_, swapBuffers_eq noFault producer consumer, ⟨rfl, id, id⟩, fun _ _ => readByte_congr rfl rfl rfl ..,
    active_of_flipped rfl, rfl⟩

/-! ## The round trip -/

/-- From `s` to `t` the bytes of `bs` were stored in the inactive region from offset `off` on, and nothing that the
round trip reads changed beside them. -/
structure StoredFrom (off : Nat) (bs : List Byte) (s t : State) : Prop where
  settings : SettingsPersist s t
  selector : t.activeIs1 = s.activeIs1
  stored : ∀ j b, bs[j]? = some b → t.readByte s.inactive (off + j) = b
  outside : SameBytesOutside s.inactive off bs.length s t

theorem SettingsPersist.noFault {s t : State} (h : SettingsPersist s t) (noFault : s.configFault = false) :
    t.configFault = false := by
  obtain ⟨_, _, _, _, _, _, _, same⟩ := settings_eq_iff.mp h.settings
  exact same.trans noFault

theorem SettingsPersist.bufLen_eq {s t : State} (h : SettingsPersist s t) : t.bufLen = s.bufLen := by
  obtain ⟨par, _⟩ := settings_eq_iff.mp h.settings
  rw [State.bufLen, State.bufLen, par]

theorem StoredFrom.inactive_eq {off : Nat} {bs : List Byte} {s t : State} (h : StoredFrom off bs s t) :
    t.inactive = s.inactive := by
  rw [State.inactive, State.inactive, h.selector]

theorem StoredFrom.nil (off : Nat) (s : State) : StoredFrom off [] s s where
  settings := ⟨rfl, id, id⟩
  selector := rfl
  stored := by simp
  outside := fun _ _ _ => rfl

/-- The later writes are all above the first one's offset, so they leave its byte alone. -/
theorem StoredFrom.cons {off : Nat} {b : Byte} {bs : List Byte} {s u t : State} (first : StoredFrom off [b] s u)
    (rest : StoredFrom (off + 1) bs u t) : StoredFrom off (b :: bs) s t where
  settings := first.settings.trans rest.settings
  selector := rest.selector.trans first.selector
  stored := by
    intro j c hc
    rw [← first.inactive_eq]
    cases j with
    | zero =>
      rw [rest.outside _ _ (by omega), first.inactive_eq]
      exact first.stored 0 c hc
    | succ j =>
      rw [show off + (j + 1) = off + 1 + j by omega]
      exact rest.stored j c hc
  outside := by
    intro r k other
    rw [List.length_cons] at other
    rw [rest.outside r k, first.outside r k]
    · rintro ⟨rfl, low, high⟩
      rw [List.length_singleton] at high
      exact other ⟨rfl, low, by omega⟩
    · rintro ⟨rfl, low, high⟩
      exact other ⟨first.inactive_eq, by omega, by omega⟩

/-- One RB_WRITE inside the region. -/
theorem exec_rbWrite_storedFrom {s : State} {off : Nat} (noFault : s.configFault = false)
    (taken : s.producerTaken = true) (inside : off < s.bufLen) (b : Byte) :
    ∃ t, exec (.rbWrite off b) s = .next t ∧ StoredFrom off [b] s t := by
  obtain ⟨write, _⟩ := writeStoresOneInactiveByte s off b noFault taken
  obtain ⟨t, written, stored, outside, same⟩ := write inside
  refine ⟨t, written, exec_settingsPersist written, by rw [same], fun j c hc => ?_, outside⟩
  obtain ⟨rfl, rfl⟩ : j = 0 ∧ b = c := by simpa using List.getElem?_eq_some_iff.mp hc
  exact stored

/-- The RB_WRITEs of bytes that fit all answer. -/
theorem writeFrom_storedFrom {s : State} (off : Nat) (bs : List Byte) (noFault : s.configFault = false)
    (taken : s.producerTaken = true) (fits : off + bs.length ≤ s.bufLen) :
    ∃ t, writeFrom off bs s = .next t ∧ StoredFrom off bs s t := by
  induction bs generalizing off s with
  | nil => exact ⟨s, rfl, .nil off s⟩
  | cons b bs ih =>
    rw [List.length_cons] at fits
    obtain ⟨u, written, first⟩ := exec_rbWrite_storedFrom noFault taken (off := off) (by omega) b
    obtain ⟨t, writtenRest, rest⟩ := ih (off + 1) (first.settings.noFault noFault) (first.settings.producer taken)
      (by rw [first.settings.bufLen_eq]; omega)
    refine ⟨t, ?_, first.cons rest⟩
    rw [writeFrom, written, andThen_next, writtenRest]

/-- A second misuse is not recorded again, so this RB_READ changes the response alone. -/
theorem exec_rbRead_of_recorded {s : State} {off : Nat} (noFault : s.configFault = false)
    (taken : s.consumerTaken = true) (inside : off < s.bufLen) (recorded : s.violations.primitiveMisuse = true) :
    exec (.rbRead off) s =
      .next { s with response := some ⟨.ok, BitVec.ofNat 32 (s.readByte s.active off).toNat⟩ } := by
  rw [exec_rbRead_of_taken noFault taken, if_pos inside, violate_misuse_of_recorded recorded]
  rfl

/-- Settles O27: the writes store the bytes in the inactive region, and the swap makes it the active one and moves
no byte. -/
theorem writtenBytesAreReadAfterTheSwap : Obligations.WrittenBytesAreReadAfterTheSwap := by
  unfold Obligations.WrittenBytesAreReadAfterTheSwap
  intro s bs noFault producer consumer fits
  obtain ⟨u, written, storedFrom⟩ := writeFrom_storedFrom 0 bs noFault producer (by omega)
  have settings := storedFrom.settings
  obtain ⟨t, swapped, kept, sameBytes, active, recorded⟩ := swapBuffers_exposes (settings.noFault noFault)
    (settings.producer producer) (settings.consumer consumer)
  refine ⟨t, by rw [written, andThen_next, swapped], fun j b hb => ?_⟩
  have through := settings.trans kept
  have inside : j < t.bufLen := by
    obtain ⟨hj, _⟩ := List.getElem?_eq_some_iff.mp hb
    rw [through.bufLen_eq]
    exact hj.trans_le fits
  have byte : t.readByte t.active j = b := by
    have stored := storedFrom.stored j b hb
    rwa [active, sameBytes, storedFrom.inactive_eq, ← Nat.zero_add j]
  rw [exec_rbRead_of_recorded (through.noFault noFault) (through.consumer consumer) inside recorded, byte]

end Sys2Proof.Machine

/-! PROOF. The channel's swap protocol: what CH_REQUEST_SWAP and CH_TRY_SWAP do that pass their checks
(43_ownership_gate.md R168, R170). -/

namespace Sys2Proof.Machine

/-! ## The operation -/

/-- R170 with a swap pending: the commit, and the flags that a performed swap moves beside it. -/
theorem trySwap_of_pending {s : State} (pending : s.swapPending = true) :
    s.trySwap = { s with
      activeIs1 := !s.activeIs1, swapPending := false, swapRequested := false, started := true, frameRequested := true
      violations := { s.violations with
        startWhileBusy := s.violations.startWhileBusy || s.txRegion.isSome } } := by
  rw [State.trySwap, if_pos pending, commitSwap_of_pending pending]

theorem trySwap_of_not_pending {s : State} (clear : s.swapPending = false) : s.trySwap = s := by
  simp [State.trySwap, clear]

/-! ## The commands -/

theorem exec_chRequestSwap_of_taken {s : State} (noFault : s.configFault = false) (taken : s.producerTaken = true) :
    exec .chRequestSwap s = respond (s.violate .primitiveMisuse).requestSwap 0 := by
  rw [exec, execChRequestSwap]
  exact checked_pass (cls := .producer) noFault taken

theorem exec_chTrySwap_of_taken {s : State} (noFault : s.configFault = false) (taken : s.consumerTaken = true) :
    exec .chTrySwap s = respond (s.violate .primitiveMisuse).trySwap (flagData s.swapPending) := by
  rw [exec, execChTrySwap]
  exact checked_pass (cls := .consumer) noFault taken

/-- Settles O28: the request sets its two flags, and a try is `trySwap`, whose two cases are those of the pending
flag. -/
theorem channelSwapRearmsTheProducer : Obligations.ChannelSwapRearmsTheProducer := by
  unfold Obligations.ChannelSwapRearmsTheProducer
  refine fun s noFault => ⟨fun taken => ?request, fun taken pending => ?swap, fun taken clear => ?nothing⟩
  case request => exact exec_chRequestSwap_of_taken noFault taken
  case swap =>
    rw [exec_chTrySwap_of_taken noFault taken, trySwap_of_pending (s := s.violate .primitiveMisuse) pending, pending]
    rfl
  case nothing =>
    have zero : flagData s.swapPending = 0 := congrArg flagData clear
    rw [exec_chTrySwap_of_taken noFault taken, trySwap_of_not_pending (s := s.violate .primitiveMisuse) clear, zero]
    rfl

end Sys2Proof.Machine

/-! PROOF. What a run of byte writes that fills consecutive slots does (20_memory.md R63, 44_producer.md R183). -/

namespace Sys2Proof.Machine

/-! ## The writes -/

/-- The byte writes of pixels `p` to `p + n - 1`, each pixel the bytes `f` gives (R183). -/
def frameWrites (p n : Nat) (f : Nat → Byte) : List (Nat × Byte) := (List.range' p n).flatMap fun q => slotWrites q f

theorem frameWrites_succ (p n : Nat) (f : Nat → Byte) :
    frameWrites p (n + 1) f = slotWrites p f ++ frameWrites (p + 1) n f := rfl

theorem mem_frameWrites {p n : Nat} {f : Nat → Byte} {w : Nat × Byte} :
    w ∈ frameWrites p n f ↔ ∃ q, (p ≤ q ∧ q < p + n) ∧ w ∈ slotWrites q f := by
  simp [frameWrites, List.mem_range'_1]

/-- A frame of at least one pixel makes a write. -/
theorem frameWrites_eq_nil_iff {p n : Nat} {f : Nat → Byte} : frameWrites p n f = [] ↔ n = 0 := by
  cases n with
  | zero => simp [frameWrites]
  | succ n => simp [frameWrites_succ, slotWrites]

/-- The offsets a frame writes are distinct: slots do not overlap (20_memory.md R63). -/
theorem frameWrites_nodup (p n : Nat) (f : Nat → Byte) : ((frameWrites p n f).map Prod.fst).Nodup := by
  induction n generalizing p with
  | zero => exact List.nodup_nil
  | succ n ih =>
    rw [frameWrites_succ, List.map_append]
    refine List.Nodup.append (slotWrites_nodup p f) (ih (p + 1)) ?_
    intro off first later
    obtain ⟨w, hw, rfl⟩ := List.mem_map.mp first
    obtain ⟨v, hv, same⟩ := List.mem_map.mp later
    obtain ⟨q, ⟨above, _⟩, hv⟩ := mem_frameWrites.mp hv
    have low := mem_slotWrites hw
    have high := mem_slotWrites hv
    omega

theorem slotWrites_eq_frameWrites (p : Nat) (f : Nat → Byte) : slotWrites p f = frameWrites p 1 f :=
  (List.append_nil _).symm

/-! ## Their effect -/

/-- The busy violation of a run of byte writes, empty or not. -/
theorem putBytes_violations_eq (ws : List (Nat × Byte)) (s : State) :
    (s.putBytes ws).violations = { s.violations with
      writeWhileBusy :=
        s.violations.writeWhileBusy || (decide (ws ≠ []) && decide (s.txRegion = some s.inactive)) } := by
  cases ws with
  | nil => simp [State.putBytes]
  | cons w ws => simp [putBytes_violations, add_writeWhileBusy_if]

/-- Slots `p` to `p + n - 1` of the inactive region took the bytes `f` gives for the bit pairs, with engine steps in
between (20_memory.md R75 e). -/
structure SlotsFilled (p n : Nat) (f : Nat → Byte) (s t : State) : Prop where
  slots : ∀ q k, p ≤ q → q < p + n → k < 12 → t.readByte s.inactive (12 * q + k) = f (11 - k)
  outside : SameBytesOutside s.inactive (12 * p) (12 * n) s t
  same : t = { s with
    buffer1 := t.buffer1, buffer2 := t.buffer2, txRegion := t.txRegion, txNext := t.txNext, history := t.history
    inside := t.inside
    violations := { s.violations with
      writeWhileBusy := s.violations.writeWhileBusy || (decide (n ≠ 0) && decide (s.txRegion = some s.inactive)) } }
  engine : EngineOnly [] s t
  calm : s.inside = [] → t.txRegion = s.txRegion ∧ t.txNext = s.txNext ∧ t.history = s.history ∧ t.inside = []

theorem putBytes_frameWrites (s : State) (p n : Nat) (f : Nat → Byte) :
    SlotsFilled p n f s (s.putBytes (frameWrites p n f)) where
  slots q k above below hk :=
    putBytes_read_same _ s (frameWrites_nodup ..) (12 * q + k, f (11 - k))
      (mem_frameWrites.mpr ⟨q, ⟨above, below⟩, slotWrites_at q f k hk⟩)
  outside r off apart :=
    putBytes_read_other _ s r off fun w hw hit => apart ⟨hit.1, by
      obtain ⟨q, range, hw⟩ := mem_frameWrites.mp hw
      have slot := mem_slotWrites hw
      omega⟩
  same := by
    have same := (putBytes_frame (frameWrites p n f) s).same
    rw [putBytes_freeCount, putBytes_violations_eq] at same
    simpa only [ne_eq, frameWrites_eq_nil_iff] using same
  engine := putBytes_only _ s
  calm := (putBytes_frame _ s).calm

theorem putBytes_slotWrites (s : State) (p : Nat) (f : Nat → Byte) :
    SlotsFilled p 1 f s (s.putBytes (slotWrites p f)) := by
  rw [slotWrites_eq_frameWrites]
  exact putBytes_frameWrites s p 1 f

end Sys2Proof.Machine

/-! PROOF. What each micro-step of a COMPUTE_FRAME does: the gate, a pixel, the closing steps (44_producer.md R180 to
R189). -/

namespace Sys2Proof.Machine

/-! ## The gate -/

theorem gateOpen_iff {s : State} :
    s.gateOpen = true ↔ s.frameRequested = true ∧ s.lastFrameCalculated = false := by
  simp [State.gateOpen]

/-- u1 with the gate closed (R182). -/
theorem exec_computeFrame_of_closed {s : State} (noFault : s.configFault = false) (taken : s.producerTaken = true)
    (closed : s.gateOpen = false) : exec .computeFrame s = respond s 0 := by
  rw [exec, execComputeFrame, checked_pass (cls := .producer) noFault taken]
  simp only [closed, Bool.false_eq_true, if_false]

/-- u1 with the gate open and granularity micro (R181). -/
theorem exec_computeFrame_of_micro {s : State} (noFault : s.configFault = false) (taken : s.producerTaken = true)
    (opened : s.gateOpen = true) (micro : s.par.preempt = .micro) :
    exec .computeFrame s = .next { s with compute := s.phaseAt 0, response := none } := by
  rw [exec, execComputeFrame, checked_pass (cls := .producer) noFault taken]
  simp only [opened, micro, if_true]

/-- The command as one step with the gate open (20_memory.md R75 d). -/
theorem exec_computeFrame_of_op {s : State} (noFault : s.configFault = false) (taken : s.producerTaken = true)
    (opened : s.gateOpen = true) (op : s.par.preempt = .op) : exec .computeFrame s = s.wholeFrame := by
  rw [exec, execComputeFrame, checked_pass (cls := .producer) noFault taken]
  simp only [opened, op, if_true]

/-- A COMPUTE_FRAME that takes the producer into a frame has passed the checks and the gate. -/
theorem computeFrame_started {s u : State} (idle : s.compute = .idle) (micro : s.par.preempt = .micro)
    (executed : exec .computeFrame s = .next u) (busy : u.compute ≠ .idle) :
    s.configFault = false ∧ s.producerTaken = true ∧ s.gateOpen = true := by
  rcases exec_cases executed with ⟨_, _, rfl⟩ | ⟨valid, taken, ⟨_, _, rfl⟩ | ⟨opened, _, _⟩ | ⟨_, op, _⟩⟩
  · exact absurd idle busy
  · exact absurd idle busy
  · exact ⟨valid nofun, taken, opened⟩
  · exact absurd (micro.symm.trans op) nofun

/-- Settles O29: the body behind the checks is the response alone. -/
theorem closedGateMakesComputeFrameANoOp : Obligations.ClosedGateMakesComputeFrameANoOp := by
  unfold Obligations.ClosedGateMakesComputeFrameANoOp
  intro s noFault taken closed
  rw [← gateOpen_iff, Bool.not_eq_true] at closed
  exact exec_computeFrame_of_closed noFault taken closed

/-- Settles O30: the phase at pixel 0 is u3 exactly for an empty strip. -/
theorem openGateStartsTheFrame : Obligations.OpenGateStartsTheFrame := by
  unfold Obligations.OpenGateStartsTheFrame
  intro s noFault taken requested running micro
  have start : s.phaseAt 0 = if s.stripLength = 0 then .count else .pixel 0 := by
    by_cases empty : s.stripLength = 0 <;> simp [State.phaseAt, empty, Nat.pos_iff_ne_zero, ← BitVec.toNat_inj]
  rw [exec_computeFrame_of_micro noFault taken (gateOpen_iff.mpr ⟨requested, running⟩) micro, start]

/-! ## A command that has to wait -/

/-- No micro-step takes an input from the list. -/
theorem microStep_inputs {s t : State} (h : s.microStep = .next t) : t.inputs = s.inputs := by
  rcases microStep_cases h with ⟨_, rfl⟩ | ⟨_, u, _, _, painted, rfl⟩ | ⟨_, rfl⟩ | ⟨_, rfl⟩
  · rfl
  · show u.inputs = s.inputs
    rw [painted.same]
  · rfl
  · rfl

/-- While a held back input stays listed the producer's micro-step is the step (R181). -/
theorem step_of_heldBack {s : State} {i : Input} {rest : List Input} (next : s.inputs = i :: rest)
    (held : s.heldBack i = true) : step s = producerTurn { s with inside := [] } := by
  simp [step, oneStep, next, held]

/-- Settles O6: the command is held back, and neither the micro-step nor its end touches the list. -/
theorem producerCommandWaitsForTheFrame : Obligations.ProducerCommandWaitsForTheFrame := by
  unfold Obligations.ProducerCommandWaitsForTheFrame
  intro s agent w inside rest i next busy decoded producer
  have held : s.heldBack (.command agent w inside) = true := by
    simp [State.heldBack, busy, isProducerWord, decoded, producer]
  have stepped := step_of_heldBack next held
  refine ⟨stepped, fun t h => ?_⟩
  rw [stepped] at h
  obtain ⟨u, ran, settled⟩ := andThen_eq_next h
  cases settled
  have kept := microStep_inputs ran
  exact kept

/-! ## One pixel -/

theorem phaseAt_of_lt {s : State} {p : Nat} (early : p < s.stripLength.toNat) : s.phaseAt p = .pixel p := if_pos early

theorem phaseAt_of_ge {s : State} {p : Nat} (past : s.stripLength.toNat ≤ p) : s.phaseAt p = .count :=
  if_neg (Nat.not_lt.mpr past)

/-- The state once pixel `p`'s query, if the source makes one, is in the history (R183, R187). -/
def State.asked (s : State) (p : Nat) (answer : Option Colour) : State :=
  { s with history := s.history ++ pixelQuery s p answer }

theorem asked_of_static {s : State} (static : s.srcKind = .static) (p : Nat) (answer : Option Colour) :
    s.asked p answer = s := by
  have silent : pixelQuery s p answer = [] := by simp only [pixelQuery, static]
  rw [State.asked, silent, List.append_nil]

theorem asked_of_generator {s : State} (generator : s.srcKind = .generator) (p : Nat) (answer : Option Colour) :
    s.asked p answer =
      s.log (.genQuery s.stripId s.stripLength s.frameNumber (BitVec.ofNat 8 p) answer) := by
  simp [State.asked, pixelQuery, generator, State.log]

/-- A present result, from either source, is painted after the query (R183). -/
theorem pixelStep_of_present {s : State} {p : Nat} {c : Colour} (fits : 12 * p + 11 < s.bufLen)
    (present : s.srcKind = .static ∧ c = colourOfWord s.staticColor ∨
      s.srcKind = .generator ∧ s.generate (BitVec.ofNat 8 p) = some c) :
    s.pixelStep p = .next ((s.asked p (some c)).paint p c) := by
  rw [State.pixelStep, if_pos (slotFits_iff.mpr fits)]
  rcases present with ⟨static, rfl⟩ | ⟨generator, answered⟩
  · rw [asked_of_static static]
    simp only [static]
  · rw [asked_of_generator generator]
    simp only [generator, answered]

/-- An absent result is handled after the query (R184, R185). -/
theorem pixelStep_of_absent {s : State} {p : Nat} (fits : 12 * p + 11 < s.bufLen)
    (generator : s.srcKind = .generator) (absent : s.generate (BitVec.ofNat 8 p) = none) :
    s.pixelStep p = .next ((s.asked p none).absentAt p) := by
  rw [State.pixelStep, if_pos (slotFits_iff.mpr fits), asked_of_generator generator]
  simp only [generator, absent]

/-- The micro-step at pixel `p`: the pixel's own step, then the cursor (R181). -/
theorem microStep_of_pixel {s u : State} {p : Nat} (pixel : s.compute = .pixel p) (stepped : s.pixelStep p = .next u) :
    s.microStep = .next { u with compute := u.phaseAt (p + 1) } := by
  simp only [State.microStep, pixel, stepped, andThen_next]

/-- A present result fills the pixel's slot, after the query (R183). -/
theorem pixelStep_fills {s : State} {p : Nat} {c : Colour} (fits : 12 * p + 11 < s.bufLen)
    (present : s.srcKind = .static ∧ c = colourOfWord s.staticColor ∨
      s.srcKind = .generator ∧ s.generate (BitVec.ofNat 8 p) = some c) :
    ∃ t, s.pixelStep p = .next t ∧
      SlotsFilled p 1 (pairByte s.par.pairD0IsLowBit (scaleColour c s.brightness)) (s.asked p (some c)) t :=
  ⟨_, (pixelStep_of_present fits present).trans (congrArg _ (paint_eq ..)), putBytes_slotWrites ..⟩

/-- Settles O31: painting fills one slot of the state after the query. -/
theorem presentPixelIsStoredInItsSlot : Obligations.PresentPixelIsStoredInItsSlot := by
  unfold Obligations.PresentPixelIsStoredInItsSlot
  intro s p c pixel fits present
  obtain ⟨u, stepped, filled⟩ := pixelStep_fills fits present
  refine ⟨_, microStep_of_pixel pixel stepped, ?slot, ?outside, ?others, ?engine, ?calm⟩
  case slot =>
    intro k hk
    rw [encodePixel_getD _ _ _ hk]
    exact filled.slots p k le_rfl (Nat.lt_succ_self p) hk
  case outside => exact filled.outside
  case others =>
    rw [filled.same]
    rfl
  case engine => exact (filled.engine.after ⟨rfl, rfl, rfl⟩).congr ⟨rfl, rfl, rfl⟩ ⟨rfl, rfl, rfl⟩
  case calm =>
    intro calm
    obtain ⟨region, next, history, inside⟩ := filled.calm calm
    exact ⟨region, next, inside, history⟩

/-- Settles O32: at the last pixel the absent result sets the flag and u3 is next. -/
theorem absentFinalPixelEndsTheAnimation : Obligations.AbsentFinalPixelEndsTheAnimation := by
  unfold Obligations.AbsentFinalPixelEndsTheAnimation
  intro s p pixel fits generator absent last
  have ended : (s.asked p none).absentAt p = { s.asked p none with lastFrameCalculated := true } := if_pos last
  rw [microStep_of_pixel pixel (pixelStep_of_absent fits generator absent), ended, phaseAt_of_ge,
    asked_of_generator generator]
  · rfl
  · exact last.symm.le

/-- An absent result before the last pixel under `skip` (R185). -/
theorem absentAt_of_skip {s : State} {p : Nat} (early : p + 1 < s.stripLength.toNat) (skip : s.par.earlyEnd = .skip) :
    s.absentAt p = s.violate .earlyEnd := by
  rw [State.absentAt, if_neg early.ne]
  simp only [skip]

/-- The same under `any_value` (R185). -/
theorem absentAt_of_anyValue {s : State} {p : Nat} (early : p + 1 < s.stripLength.toNat)
    (anyValue : s.par.earlyEnd = .anyValue) : s.absentAt p = (s.violate .earlyEnd).scramble p := by
  rw [State.absentAt, if_neg early.ne]
  simp only [anyValue]

/-- An early absent result under `any_value` fills the slot with free bytes, after the query and the violation (R185,
log entry 10). -/
theorem pixelStep_scrambles {s : State} {p : Nat} (fits : 12 * p + 11 < s.bufLen) (generator : s.srcKind = .generator)
    (absent : s.generate (BitVec.ofNat 8 p) = none) (early : p + 1 < s.stripLength.toNat)
    (anyValue : s.par.earlyEnd = .anyValue) :
    ∃ t, s.pixelStep p = .next { t with freeCount := s.freeCount + 12 } ∧
      SlotsFilled p 1 (fun i => Config.freeByte s.epoch (s.freeCount + i)) ((s.asked p none).violate .earlyEnd) t := by
  refine ⟨_, ?_, putBytes_slotWrites ..⟩
  rw [pixelStep_of_absent fits generator absent, absentAt_of_anyValue (s := s.asked p none) early anyValue]
  rfl

/-- Settles O33: `skip` is the violation alone, `any_value` a slot of writes after it. -/
theorem earlyAbsentPixelFollowsThePolicy : Obligations.EarlyAbsentPixelFollowsThePolicy := by
  unfold Obligations.EarlyAbsentPixelFollowsThePolicy
  intro s p pixel fits generator absent early
  refine ⟨fun skip => ?skip, fun anyValue => ?anyValue⟩
  case skip =>
    rw [microStep_of_pixel pixel (pixelStep_of_absent fits generator absent),
      absentAt_of_skip (s := s.asked p none) early skip, phaseAt_of_lt, asked_of_generator generator]
    · rfl
    · exact early
  case anyValue =>
    obtain ⟨u, stepped, filled⟩ := pixelStep_scrambles fits generator absent early anyValue
    refine ⟨_, microStep_of_pixel pixel stepped, filled.outside, ?others, ?engine, ?calm⟩
    case others =>
      rw [filled.same, phaseAt_of_lt]
      · rfl
      · exact early
    case engine => exact (filled.engine.after ⟨rfl, rfl, rfl⟩).congr ⟨rfl, rfl, rfl⟩ ⟨rfl, rfl, rfl⟩
    case calm =>
      intro calm
      obtain ⟨region, next, history, inside⟩ := filled.calm calm
      exact ⟨region, next, inside, history⟩

/-! ## The closing steps -/

/-- u3 answers exactly when the counter may count on (R186). -/
theorem countStep_eq_next_iff {s t : State} :
    s.countStep = .next t ↔ ¬(s.frameNumber = BitVec.allOnes 32 ∧ s.par.frameWrap = .fault) ∧
      t = { s with frameNumber := s.frameNumber + 1, frameRequested := false } := by
  unfold State.countStep
  split
  · rename_i overflow
    exact ⟨nofun, fun counted => absurd overflow counted.1⟩
  · rename_i room
    refine ⟨fun counted => ?_, fun ⟨_, counted⟩ => counted ▸ rfl⟩
    cases counted
    exact ⟨room, rfl⟩

/-- Otherwise the model stops (U3). -/
theorem countStep_of_overflow {s : State} (last : s.frameNumber = BitVec.allOnes 32)
    (fault : s.par.frameWrap = .fault) : s.countStep = .fault .frameCounterOverflow := if_pos ⟨last, fault⟩

theorem microStep_of_count {s u : State} (count : s.compute = .count) (counted : s.countStep = .next u) :
    s.microStep = .next { u with compute := .publish } := by
  simp only [State.microStep, count, counted, andThen_next]

theorem microStep_of_publish {s : State} (publish : s.compute = .publish) :
    s.microStep = .next { s with
      swapRequested := true, swapPending := true, compute := .idle, response := some ⟨.ok, 1⟩
      history := s.history ++ [.completed ⟨.ok, 1⟩] } := by
  simp only [State.microStep, publish]
  rfl

/-- Settles O34: u3 by whether the counter may count on, u4 as it stands. -/
theorem closingStepsCountAndRequestTheSwap : Obligations.ClosingStepsCountAndRequestTheSwap := by
  unfold Obligations.ClosingStepsCountAndRequestTheSwap
  refine fun s => ⟨fun count room => ?count, fun count fault last => ?overflow, microStep_of_publish⟩
  case count =>
    have below : ¬(s.frameNumber = BitVec.allOnes 32 ∧ s.par.frameWrap = .fault) := by
      rintro ⟨last, fault⟩
      rcases room with wrap | small
      · exact absurd (wrap.symm.trans fault) nofun
      · exact small last
    have plusOne : BitVec.ofNat 32 (s.frameNumber.toNat + 1) = s.frameNumber + 1 := by
      simp [BitVec.ofNat_add]
    rw [microStep_of_count count (countStep_eq_next_iff.mpr ⟨below, rfl⟩), plusOne]
  case overflow =>
    simp only [State.microStep, count, countStep_of_overflow last fault, andThen_fault]

end Sys2Proof.Machine

/-! PROOF. COMPUTE_FRAME as one step on a static display (44_producer.md R187, 20_memory.md R75 d). -/

namespace Sys2Proof.Machine

/-- The byte of a bit pair in the slots of a static frame (R187). -/
def State.staticByte (s : State) : Nat → Byte :=
  pairByte s.par.pairD0IsLowBit (scaleColour (colourOfWord s.staticColor) s.brightness)

/-- A static pixel is its slot's writes and nothing else (R187). -/
theorem pixelStep_of_static {s : State} {p : Nat} (static : s.srcKind = .static) (fits : 12 * p + 11 < s.bufLen) :
    s.pixelStep p = .next (s.putBytes (slotWrites p s.staticByte)) := by
  rw [pixelStep_of_present fits (.inl ⟨static, rfl⟩), asked_of_static static, paint_eq]
  rfl

/-- All pixels of a static frame are one run of byte writes. -/
theorem pixelLoop_of_static {s : State} {p n : Nat} (static : s.srcKind = .static) (fits : 12 * (p + n) ≤ s.bufLen) :
    State.pixelLoop n p s = .next (s.putBytes (frameWrites p n s.staticByte)) := by
  induction n generalizing p s with
  | zero => rfl
  | succ n ih =>
    have painted := putBytes_frame (slotWrites p s.staticByte) s
    have source : (s.putBytes (slotWrites p s.staticByte)).srcKind = .static := by
      rw [painted.same]
      exact static
    have bytes : (s.putBytes (slotWrites p s.staticByte)).staticByte = s.staticByte := by
      rw [painted.same]
      rfl
    have room : 12 * (p + 1 + n) ≤ (s.putBytes (slotWrites p s.staticByte)).bufLen := by
      rw [painted.bufLen_eq]
      omega
    rw [State.pixelLoop, pixelStep_of_static static (by omega), andThen_next, ih source room, bytes, frameWrites_succ,
      putBytes_append]

/-- The frame as one step on a static display: its slots filled, then u3 and u4 (R187). -/
theorem wholeFrame_of_static {s : State} (static : s.srcKind = .static) (wrap : s.par.frameWrap = .wrap)
    (fits : 12 * s.stripLength.toNat ≤ s.bufLen) :
    ∃ t, SlotsFilled 0 s.stripLength.toNat s.staticByte s t ∧
      s.wholeFrame = .next { t with
        frameNumber := s.frameNumber + 1, frameRequested := false, swapRequested := true, swapPending := true
        response := some ⟨.ok, 1⟩ } := by
  obtain ⟨t, pixels, filled⟩ : ∃ t, State.pixelLoop s.stripLength.toNat 0 s = .next t ∧
      SlotsFilled 0 s.stripLength.toNat s.staticByte s t :=
    ⟨_, pixelLoop_of_static static (by omega), putBytes_frameWrites ..⟩
  have policy : t.par.frameWrap = .wrap := by rw [filled.same, wrap]
  have number : t.frameNumber = s.frameNumber := by rw [filled.same]
  have counted : t.countStep = .next { t with frameNumber := t.frameNumber + 1, frameRequested := false } :=
    countStep_eq_next_iff.mpr ⟨fun ⟨_, fault⟩ => absurd (policy.symm.trans fault) nofun, rfl⟩
  refine ⟨t, filled, ?_⟩
  rw [State.wholeFrame, pixels, andThen_next, counted, andThen_next, number]
  rfl

/-- A frame without the capacity fault fits the region (10_state.md R40). -/
theorem State.Sound.frame_fits {s : State} (sound : s.Sound) (noFault : s.configFault = false) :
    12 * s.stripLength.toNat ≤ s.bufLen := by
  have capacity := sound.capacity
  rw [noFault, eq_comm, decide_eq_false_iff_not] at capacity
  omega

/-- Settles O35: the frame's slots are filled from the static colour, then u3 and u4. -/
theorem staticFrameFillsEverySlot : Obligations.StaticFrameFillsEverySlot := by
  unfold Obligations.StaticFrameFillsEverySlot
  intro s sound noFault taken requested running op static wrap
  obtain ⟨u, filled, whole⟩ := wholeFrame_of_static static wrap (sound.frame_fits noFault)
  have executed := exec_computeFrame_of_op noFault taken (gateOpen_iff.mpr ⟨requested, running⟩) op
  refine ⟨_, executed.trans whole, ?slots, filled.outside, ?others, ?engine, filled.calm⟩
  case slots =>
    intro p k below hk
    rw [encodePixel_getD _ _ _ hk]
    exact filled.slots p k p.zero_le (by omega) hk
  case others =>
    have pixels : decide (s.stripLength.toNat ≠ 0) = decide (s.stripLength ≠ 0) := by simp [← BitVec.toNat_inj]
    rw [filled.same, pixels]
  case engine => exact filled.engine.congr ⟨rfl, rfl, rfl⟩ ⟨rfl, rfl, rfl⟩

end Sys2Proof.Machine

/-! PROOF. Micro-steps with nothing in between add up to the frame taken as one step (44_producer.md R181, 20_memory.md
R75 d). -/

namespace Sys2Proof.Machine

/-! ## One step of a frame in progress -/

theorem settle_of_calm {s : State} (calm : s.inside = []) : s.settle = s := by
  rw [State.settle, ← calm]

/-- With no input listed and no engine step planned a frame in progress takes its next micro-step (log entry 2). -/
theorem step_of_microStep {s t : State} (alone : s.inputs = []) (calm : s.inside = []) (busy : s.compute ≠ .idle)
    (ran : s.microStep = .next t) (ended : t.inside = []) : step s = .next t := by
  have turned : step s = producerTurn s.settle := by
    rw [step, oneStep, alone]
    exact if_neg busy
  rw [turned, settle_of_calm calm, producerTurn, ran, andThen_next, settle_of_calm ended]

/-- A run of pixels does not look at where the producer stands: from another place it ends in the same state but for
that place. -/
theorem pixelLoop_at {n p : Nat} {s t : State} (c : Compute) (h : State.pixelLoop n p s = .next t) :
    State.pixelLoop n p { s with compute := c } = .next { t with compute := c } := by
  obtain ⟨u, looped, rfl⟩ := stamp_pixelLoop (s := { s with compute := c }) s.compute s.par.preempt s.response h
  have painted := pixelLoop_frame looped
  rw [looped, painted.same]
  rfl

/-! ## The whole frame -/

/-- The micro-steps of the pixels left, with nothing in between, end before u3 in the state the loop ends in. -/
theorem runSteps_pixels {n p : Nat} {s t : State} (place : s.compute = s.phaseAt p) (left : p + n = s.stripLength.toNat)
    (alone : s.inputs = []) (calm : s.inside = []) (looped : State.pixelLoop n p s = .next t) :
    runSteps n s = .next { t with compute := .count } ∧ t.inside = [] := by
  induction n generalizing p s t with
  | zero =>
    cases looped
    refine ⟨?_, calm⟩
    rw [runSteps, ← place.trans (phaseAt_of_ge left.ge)]
  | succ n ih =>
    obtain ⟨u, stepped, rest⟩ := andThen_eq_next looped
    have painted := (pixelStep_frame stepped).2
    have pixel : s.compute = .pixel p := place.trans (phaseAt_of_lt (by omega))
    have ended := pixelStep_inside stepped calm
    have turned : step s = .next { u with compute := u.phaseAt (p + 1) } :=
      step_of_microStep alone calm (by simp [pixel]) (microStep_of_pixel pixel stepped) ended
    have length : u.stripLength = s.stripLength := by rw [painted.same]
    have inputs : u.inputs = [] := by
      rw [painted.same]
      exact alone
    rw [runSteps, turned, andThen_next]
    exact ih (s := { u with compute := u.phaseAt (p + 1) }) (t := { t with compute := u.phaseAt (p + 1) }) rfl
      (by simp only [length]; omega) inputs ended (pixelLoop_at _ rest)

/-- u3 and u4 with nothing in between. -/
theorem runSteps_closing {s u : State} (count : s.compute = .count) (alone : s.inputs = []) (calm : s.inside = [])
    (counted : s.countStep = .next u) :
    runSteps 2 s = .next { u with
      swapRequested := true, swapPending := true, compute := .idle, response := some ⟨.ok, 1⟩
      history := u.history ++ [.completed ⟨.ok, 1⟩] } := by
  obtain ⟨_, rfl⟩ := countStep_eq_next_iff.mp counted
  have u3 := step_of_microStep alone calm (by simp [count]) (microStep_of_count count counted) calm
  have u4 := step_of_microStep (s := { s with
      frameNumber := s.frameNumber + 1, frameRequested := false, compute := .publish })
    alone calm nofun (microStep_of_publish rfl) calm
  rw [runSteps, u3, andThen_next, runSteps, u4]
  rfl

/-- All micro-steps after the gate with nothing in between: the pixels, u3 and u4. -/
theorem runSteps_frame {s t u : State} (place : s.compute = s.phaseAt 0) (alone : s.inputs = []) (calm : s.inside = [])
    (looped : State.pixelLoop s.stripLength.toNat 0 s = .next t) (counted : t.countStep = .next u) :
    runSteps (s.stripLength.toNat + 2) s = .next { u with
      swapRequested := true, swapPending := true, compute := .idle, response := some ⟨.ok, 1⟩
      history := u.history ++ [.completed ⟨.ok, 1⟩] } := by
  obtain ⟨run, ended⟩ := runSteps_pixels place (Nat.zero_add _) alone calm looped
  obtain ⟨room, rfl⟩ := countStep_eq_next_iff.mp counted
  have inputs : t.inputs = [] := by
    rw [(pixelLoop_frame looped).same]
    exact alone
  have closing := runSteps_closing (s := { t with compute := .count }) rfl inputs ended
    (countStep_eq_next_iff.mpr ⟨room, rfl⟩)
  rw [runSteps_add, run, andThen_next, closing]

/-- Settles O36: both runs make the same pixels, since a pixel looks neither at the granularity nor at where the
producer stands, and u3 and u4 follow in both. -/
theorem microStepsAddUpToTheWholeFrame : Obligations.MicroStepsAddUpToTheWholeFrame := by
  unfold Obligations.MicroStepsAddUpToTheWholeFrame
  intro s t u idle alone calm micro started busy whole
  obtain ⟨noFault, taken, opened⟩ := computeFrame_started idle micro started busy
  have gate := exec_computeFrame_of_micro noFault taken opened micro
  have asOne := exec_computeFrame_of_op (s := { s with par := { s.par with preempt := .op } }) noFault taken opened rfl
  cases gate.symm.trans started
  obtain ⟨v, looped, closed⟩ := andThen_eq_next (asOne.symm.trans whole)
  obtain ⟨x, counted, published⟩ := andThen_eq_next closed
  cases published
  obtain ⟨w, pixels, rfl⟩ := stamp_pixelLoop (s := { s with compute := s.phaseAt 0, response := none })
    s.compute .op s.response looped
  obtain ⟨room, rfl⟩ := countStep_eq_next_iff.mp counted
  have run := runSteps_frame (s := { s with compute := s.phaseAt 0, response := none }) rfl alone calm pixels
    (countStep_eq_next_iff.mpr ⟨room, rfl⟩)
  have par : w.par = s.par := by rw [(pixelLoop_frame pixels).same]
  rw [run, idle, ← par]
  rfl

end Sys2Proof.Machine

/-! PROOF. The consumer's commands that pass their checks: IS_ANIMATION_FINISHED and START_FRAME (45_consumer.md R200 to
R207). -/

namespace Sys2Proof.Machine

/-! ## Showing a frame -/

/-- The readable view after a try: the other region where a swap was pending (20_memory.md R61, 43_ownership_gate.md
R170). -/
theorem trySwap_active (s : State) : s.trySwap.active = if s.activeIs1 = s.swapPending then .two else .one := by
  rw [trySwap_eq, State.active]
  cases s.activeIs1 <;> cases s.swapPending <;> rfl

theorem add_startBeforeFirstFrame_if (vs : Violations) (c : Bool) :
    (if c then vs.add .startBeforeFirstFrame else vs) =
      { vs with startBeforeFirstFrame := vs.startBeforeFirstFrame || c } := by
  cases c <;> simp [Violations.add]

/-- The swap and the transfer of a START_FRAME as one record. A swap made while a transfer is in flight and the start
of the next transfer record the same violation (R203 to R207, 60_exceptions.md R255, R256). -/
theorem showFrame_eq (s : State) :
    s.showFrame = { s with
      activeIs1 := s.activeIs1 ^^ s.swapPending
      swapPending := false
      swapRequested := s.swapRequested && !s.swapPending
      started := s.started || s.swapPending
      frameRequested := s.frameRequested || s.swapPending
      txRegion := some s.trySwap.active
      txLen := s.byteCount
      txNext := 0
      violations := { s.violations with
        startWhileBusy := s.violations.startWhileBusy || s.txRegion.isSome
        startBeforeFirstFrame := s.violations.startBeforeFirstFrame || !(s.started || s.swapPending) }
      history := s.history ++ [.transfer s.trySwap.active s.byteCount] } := by
  rw [State.showFrame, violateIf_eq, startTransfer_eq, trySwap_eq]
  simp only [add_startBeforeFirstFrame_if, add_startWhileBusy_if]
  cases s.swapPending <;> simp [State.active, State.byteCount]

/-! ## The commands -/

theorem exec_isAnimationFinished_of_taken {s : State} (noFault : s.configFault = false)
    (taken : s.consumerTaken = true) :
    exec .isAnimationFinished s = respond s.graceCheck (flagData s.lastFrameShown) := by
  rw [exec, execIsAnimationFinished]
  exact checked_pass (cls := .consumer) noFault taken

/-- START_FRAME that passes the checks of its class is decided by the finished check (R203). -/
theorem exec_startFrame_of_taken {s : State} (noFault : s.configFault = false) (taken : s.consumerTaken = true) :
    exec .startFrame s = if s.lastFrameShown then respond s 0 else respond s.graceCheck.showFrame 1 := by
  rw [exec, execStartFrame]
  exact checked_pass (cls := .consumer) noFault taken

/-- Settles O37: the grace check and the old flag as the answer. -/
theorem finishedCheckFollowsItsTruthTable : Obligations.FinishedCheckFollowsItsTruthTable := by
  unfold Obligations.FinishedCheckFollowsItsTruthTable
  intro s noFault taken
  rw [exec_isAnimationFinished_of_taken noFault taken, graceCheck_eq]
  rfl

/-- Settles O38: the finished check answers for the whole command. -/
theorem finishedStartFrameDoesNothing : Obligations.FinishedStartFrameDoesNothing := by
  unfold Obligations.FinishedStartFrameDoesNothing
  intro s noFault taken finished
  rw [exec_startFrame_of_taken noFault taken, if_pos finished]
  rfl

/-- Settles O39: `showFrame` after the grace check, which moves `last_frame_shown` alone. -/
theorem startFrameSwapsAndTransfers : Obligations.StartFrameSwapsAndTransfers := by
  unfold Obligations.StartFrameSwapsAndTransfers
  intro s noFault taken unfinished
  rw [exec_startFrame_of_taken noFault taken, if_neg (by simp [unfinished]), showFrame_eq, trySwap_active,
    graceCheck_eq, unfinished, Bool.false_or]
  cases pending : s.swapPending <;> simp [respond, State.answer, State.byteCount]

end Sys2Proof.Machine

/-! PROOF. What no step but a reset takes back: a swap was performed, the last frame was shown, and from then on no
transfer; so the lifecycle label never goes back (45_consumer.md R208 to R210). -/

namespace Sys2Proof.Machine

/-! ## The label -/

theorem lifecycle_eq_stopped_iff (s : State) : s.lifecycle = .stopped ↔ s.lastFrameShown = true := by
  unfold State.lifecycle
  cases s.lastFrameShown <;> cases s.lastFrameCalculated <;> cases s.started <;> simp

theorem lifecycle_of_unshown {s : State} (unshown : s.lastFrameShown = false)
    (calculated : s.lastFrameCalculated = true) : s.lifecycle = .draining := by
  simp [State.lifecycle, unshown, calculated]

/-- The label's place in the order of R208 is that of the highest flag set. -/
theorem rank_lifecycle (s : State) :
    s.lifecycle.rank =
      max (3 * s.lastFrameShown.toNat) (max (2 * s.lastFrameCalculated.toNat) s.started.toNat) := by
  unfold State.lifecycle
  cases s.lastFrameShown <;> cases s.lastFrameCalculated <;> cases s.started <;> rfl

/-! ## What stays -/

/-- A performed swap and a shown last frame stay so, and once the last frame is shown no transfer is started. A record
update that names none of these fields nor the history meets it by `⟨id, id, fun _ => rfl⟩`. -/
structure Progress (s t : State) : Prop where
  started : s.started = true → t.started = true
  shown : s.lastFrameShown = true → t.lastFrameShown = true
  transfers : s.lastFrameShown = true → t.transfers = s.transfers

theorem Progress.trans {s t u : State} (h1 : Progress s t) (h2 : Progress t u) : Progress s u where
  started := h2.started ∘ h1.started
  shown := h2.shown ∘ h1.shown
  transfers := fun shown => (h2.transfers (h1.shown shown)).trans (h1.transfers shown)

/-! ## The shared operations -/

/-- Events that are no transfer, appended with both flags as they were. -/
theorem Progress.of_appended {s t : State} (started : t.started = s.started)
    (shown : t.lastFrameShown = s.lastFrameShown)
    (history : ∃ es : List Event, t.history = s.history ++ es ∧ es.countP Event.isTransfer = 0) : Progress s t where
  started := started.trans
  shown := shown.trans
  transfers := fun _ => by
    obtain ⟨es, appended, none⟩ := history
    rw [State.transfers, appended, List.countP_append, none]
    rfl

theorem EngineFrame.progress {s t : State} (h : EngineFrame s t) : Progress s t :=
  .of_appended (by rw [h.same]) (by rw [h.same]) h.history

theorem PutFrame.progress {s t : State} (h : PutFrame s t) : Progress s t :=
  .of_appended (by rw [h.same]) (by rw [h.same]) h.history

theorem PixelFrame.progress {s t : State} (h : PixelFrame s t) : Progress s t :=
  .of_appended (by rw [h.same]) (by rw [h.same]) h.history

theorem log_progress {e : Event} (s : State) (other : e.isTransfer = false) : Progress s (s.log e) :=
  .of_appended rfl rfl ⟨[e], rfl, by simp [other]⟩

theorem Answered.progress {s t : State} (h : Answered s t) : Progress s t := by
  obtain ⟨_, rfl⟩ := h
  exact ⟨id, id, fun _ => rfl⟩

theorem commitSwap_progress (s : State) : Progress s s.commitSwap := by
  rw [commitSwap_eq]
  exact ⟨id, id, fun _ => rfl⟩

theorem trySwap_progress (s : State) : Progress s s.trySwap := by
  rw [trySwap_eq]
  exact ⟨by simp +contextual, id, fun _ => rfl⟩

theorem graceCheck_progress (s : State) : Progress s s.graceCheck := by
  rw [graceCheck_eq]
  exact ⟨id, by simp +contextual, fun _ => rfl⟩

/-- A START_FRAME that is not finished is the one command that starts a transfer. -/
theorem graceCheck_showFrame_progress {s : State} (unfinished : s.lastFrameShown = false) :
    Progress s s.graceCheck.showFrame where
  started := by
    rw [showFrame_eq, graceCheck_eq]
    simp +contextual
  shown := by simp [unfinished]
  transfers := by simp [unfinished]

/-! ## Commands, micro-steps and steps -/

theorem Ran.progress {i : Instr} {s t : State} (h : Ran i s t) : Progress s t := by
  have misuse : Progress s (s.violate .primitiveMisuse) := ⟨id, id, fun _ => rfl⟩
  cases i with
  | takeProducer | takeConsumer =>
    cases h
    exact ⟨id, id, fun _ => rfl⟩
  | scale | rbLength | rdReg => exact Answered.progress h
  | rbReadableView | rbWritableView =>
    obtain ⟨_, answered⟩ := h
    exact answered.progress
  | rbRead off =>
    obtain ⟨_, _, answered⟩ := h
    exact misuse.trans answered.progress
  | encodePixel pix packed =>
    obtain ⟨_, _, rfl⟩ := h
    exact (misuse.trans (putPixel_frame _ pix packed).progress).trans (Answered.progress ⟨_, rfl⟩)
  | rbWrite off data =>
    obtain ⟨_, _, rfl⟩ := h
    exact (misuse.trans (putByte_frame _ off data).progress).trans (Answered.progress ⟨_, rfl⟩)
  | rbRequestSwap | chRequestSwap =>
    obtain ⟨_, rfl⟩ := h
    exact ⟨id, id, fun _ => rfl⟩
  | rbCommitSwap =>
    obtain ⟨_, rfl⟩ := h
    exact (misuse.trans (commitSwap_progress _)).trans (Answered.progress ⟨_, rfl⟩)
  | chTrySwap =>
    obtain ⟨_, rfl⟩ := h
    exact (misuse.trans (trySwap_progress _)).trans (Answered.progress ⟨_, rfl⟩)
  | computeFrame =>
    obtain ⟨_, ⟨_, answered⟩ | ⟨_, _, rfl⟩ | ⟨_, _, u, _, painted, rfl⟩⟩ := h
    · exact answered.progress
    · exact ⟨id, id, fun _ => rfl⟩
    · exact painted.progress.trans ⟨id, id, fun _ => rfl⟩
  | isAnimationFinished =>
    obtain ⟨_, rfl⟩ := h
    exact (graceCheck_progress s).trans (Answered.progress ⟨_, rfl⟩)
  | startFrame =>
    obtain ⟨_, ⟨_, answered⟩ | ⟨unfinished, rfl⟩⟩ := h
    · exact answered.progress
    · exact (graceCheck_showFrame_progress unfinished).trans (Answered.progress ⟨_, rfl⟩)

theorem runWord_progress {w : Word40} {s t : State} (h : runWord w s = .next t) : Progress s t := by
  rcases runWord_cases h with ⟨i, _, executed⟩ | ⟨_, st, _, _, rfl⟩
  · rcases exec_cases executed with ⟨st, _, rfl⟩ | ⟨_, ran⟩
    · exact ⟨id, id, fun _ => rfl⟩
    · exact ran.progress
  · exact ⟨id, id, fun _ => rfl⟩

theorem microStep_progress {s t : State} (h : s.microStep = .next t) : Progress s t := by
  rcases microStep_cases h with ⟨_, rfl⟩ | ⟨p, u, _, _, painted, rfl⟩ | ⟨_, rfl⟩ | ⟨_, rfl⟩
  · exact ⟨id, id, fun _ => rfl⟩
  · exact painted.progress.trans ⟨id, id, fun _ => rfl⟩
  · exact ⟨id, id, fun _ => rfl⟩
  · exact (log_progress s (e := .completed ⟨.ok, 1⟩) rfl).trans ⟨id, id, fun _ => rfl⟩

theorem step_progress {s t : State} (h : step s = .next t) (hr : s.nextIsReset = false) : Progress s t := by
  rcases step_cases h with ⟨par, cfg, rest, hi, _⟩ | ⟨ins, _, rfl⟩ | ⟨ins, inside, u, _, hu, rfl⟩ |
      ⟨agent, w, inside, rest, u, _, _, hu, rfl⟩
  · simp [State.nextIsReset, hi] at hr
  · have taken : Progress s { s with inputs := ins } := ⟨id, id, fun _ => rfl⟩
    exact taken.trans (engineStep_frame _).progress
  · have taken : Progress s { s with inputs := ins, inside := inside } := ⟨id, id, fun _ => rfl⟩
    exact (taken.trans (microStep_progress hu)).trans ⟨id, id, fun _ => rfl⟩
  · have taken : Progress s { s with inputs := rest, inside := inside } := ⟨id, id, fun _ => rfl⟩
    have logged := log_progress u (e := .command agent w u.response) rfl
    exact ((taken.trans (runWord_progress hu)).trans logged).trans ⟨id, id, fun _ => rfl⟩

/-- Settles O47: `Progress` from a state whose last frame is shown. -/
theorem stoppedChannelTransfersNothing : Obligations.StoppedChannelTransfersNothing := by
  unfold Obligations.StoppedChannelTransfersNothing
  intro s t shown h hr
  have progress := step_progress h hr
  have stays := progress.shown shown
  exact ⟨stays, progress.transfers shown, (lifecycle_eq_stopped_iff t).mpr stays⟩

/-- The three flags the label is read from stay once set, so its rank can only grow (R209). -/
theorem rank_lifecycle_le {s t : State} (progress : Progress s t)
    (calculated : s.lastFrameCalculated = true → t.lastFrameCalculated = true) :
    s.lifecycle.rank ≤ t.lifecycle.rank := by
  rw [rank_lifecycle, rank_lifecycle]
  refine max_le_max ?shown (max_le_max ?calculated ?started)
  case shown => exact Nat.mul_le_mul_left 3 (Bool.toNat_le_toNat progress.shown)
  case calculated => exact Nat.mul_le_mul_left 2 (Bool.toNat_le_toNat calculated)
  case started => exact Bool.toNat_le_toNat progress.started

/-- Settles O48: no flag of the label is cleared, and `last_frame_shown` is set only after `last_frame_calculated`. -/
theorem lifecycleNeverGoesBack : Obligations.LifecycleNeverGoesBack := by
  unfold Obligations.LifecycleNeverGoesBack
  intro s t h hr
  obtain ⟨calculatedStays, _⟩ := (step_moves h hr).lastFrameCalculated
  obtain ⟨_, shownSet⟩ := (step_moves h hr).lastFrameShown
  refine ⟨rank_lifecycle_le (step_progress h hr) calculatedStays, fun stopped => ?_⟩
  cases before : s.lastFrameShown with
  | true => exact .inl ((lifecycle_eq_stopped_iff s).mpr before)
  | false => exact .inr (lifecycle_of_unshown before (shownSet before ((lifecycle_eq_stopped_iff t).mp stopped)))

end Sys2Proof.Machine

/-! PROOF. The host's registers: RD_REG in every state, and the fields of each register word (46_host_access.md R220,
10_state.md R39). -/

namespace Sys2Proof.Machine

/-! ## The command -/

/-- RD_REG runs without the check of the capacity fault (R220, 60_exceptions.md R262), so only the number decides. -/
theorem exec_rdReg_of_readReg {s : State} {reg : Nat} {v : Word32} (shown : s.readReg reg = some v) :
    exec (.rdReg reg) s = respond s v := by
  rw [exec, execRdReg, shown]

theorem exec_rdReg_of_none {s : State} {reg : Nat} (absent : s.readReg reg = none) :
    exec (.rdReg reg) s = raise s .range := by
  rw [exec, execRdReg, absent]

/-- There are five registers, 0x00 to 0x04 (R39). -/
theorem readReg_eq_none (s : State) {reg : Nat} (past : 4 < reg) : s.readReg reg = none := by
  obtain ⟨n, rfl⟩ := Nat.exists_eq_add_of_le' past
  rfl

/-! ## The register words -/

/-- A bit of STATUS is the entry of its place in the list of flags, and zero past the list. -/
theorem getLsbD_statusReg (s : State) {n : Nat} :
    s.statusReg.getLsbD n =
      [s.frameRequested, s.lastFrameCalculated, s.lastFrameShown, s.swapRequested, s.swapPending, s.activeIs1,
        s.producerTaken, s.consumerTaken, s.configFault].getD n false := by
  rw [State.statusReg, BitVec.getLsbD_setWidth, BitVec.getLsbD_ofBoolListLE]
  by_cases inWord : n < 32
  · simp [inWord]
  · simp [inWord, show 9 ≤ n by omega]

theorem SourceKind.getLsbD_bit (kind : SourceKind) : kind.bit.getLsbD 0 = decide (kind = .static) := by
  cases kind <;> rfl

/-- The fields of CONFIG by their places (R39). -/
theorem configReg_fields (s : State) :
    s.configReg.extractLsb' 0 8 = s.stripId ∧ s.configReg.extractLsb' 8 8 = s.stripLength ∧
    s.configReg.extractLsb' 16 8 = s.brightness ∧ s.configReg.getLsbD 24 = decide (s.srcKind = .static) ∧
    s.configReg.extractLsb' 25 7 = 0 := by
  have skipId {start len : Nat} (above : 8 ≤ start) : s.configReg.extractLsb' start len =
      (0#7 ++ s.srcKind.bit ++ s.brightness ++ s.stripLength).extractLsb' (start - 8) len :=
    BitVec.extractLsb'_append_eq_of_le above
  have skipLength {start len : Nat} (above : 16 ≤ start) : s.configReg.extractLsb' start len =
      (0#7 ++ s.srcKind.bit ++ s.brightness).extractLsb' (start - 8 - 8) len :=
    (skipId (by omega)).trans (BitVec.extractLsb'_append_eq_of_le (by omega))
  have skipBrightness {start len : Nat} (above : 24 ≤ start) : s.configReg.extractLsb' start len =
      (0#7 ++ s.srcKind.bit).extractLsb' (start - 8 - 8 - 8) len :=
    (skipLength (by omega)).trans (BitVec.extractLsb'_append_eq_of_le (by omega))
  have kind : s.configReg.extractLsb' 24 1 = s.srcKind.bit :=
    (skipBrightness le_rfl).trans BitVec.extractLsb'_append_eq_right
  have kindBit : s.configReg.getLsbD 24 = s.srcKind.bit.getLsbD 0 := by
    rw [← kind, BitVec.getLsbD_extractLsb']
    rfl
  exact ⟨BitVec.extractLsb'_append_eq_right, (skipId le_rfl).trans BitVec.extractLsb'_append_eq_right,
    (skipLength le_rfl).trans BitVec.extractLsb'_append_eq_right, kindBit.trans s.srcKind.getLsbD_bit,
    (skipBrightness (by decide)).trans BitVec.extractLsb'_append_eq_left⟩

/-- The fields of STATIC_COLOR: the latched colour of a static source, zero for the generator (R39). -/
theorem staticColorReg_fields (s : State) :
    s.staticColorReg.extractLsb' 24 8 = 0 ∧
    s.staticColorReg.extractLsb' 0 24 = if s.srcKind = .static then s.staticColor else 0 := by
  unfold State.staticColorReg
  cases s.srcKind with
  | generator => exact ⟨BitVec.extractLsb'_zero, BitVec.extractLsb'_zero⟩
  | static => exact ⟨BitVec.extractLsb'_append_eq_left, BitVec.extractLsb'_append_eq_right⟩

/-- Settles O40: the number alone decides the answer, and the fields of each register word stand at their places. -/
theorem statusRegistersShowTheState : Obligations.StatusRegistersShowTheState := by
  unfold Obligations.StatusRegistersShowTheState
  intro s
  refine ⟨⟨s.statusReg, exec_rdReg_of_readReg rfl, ?status⟩, ⟨s.configReg, exec_rdReg_of_readReg rfl, ?config⟩,
    ⟨s.staticColorReg, exec_rdReg_of_readReg rfl, ?colour⟩, exec_rdReg_of_readReg rfl, ?length, ?absent⟩
  case status =>
    simp only [getLsbD_statusReg]
    exact ⟨rfl, rfl, rfl, rfl, rfl, rfl, rfl, rfl, rfl, fun _ past => List.getD_eq_default _ _ past⟩
  case config => exact configReg_fields s
  case colour => exact staticColorReg_fields s
  case length =>
    have shown : s.readReg 4 = some (BitVec.ofNat 32 s.bufLen) := congrArg some (zero_append_eq_ofNat s.par.bufLen)
    exact exec_rdReg_of_readReg shown
  case absent => exact fun reg past => exec_rdReg_of_none (readReg_eq_none s past)

end Sys2Proof.Machine

/-! PROOF. The transfer engine left alone: the region in flight goes out in ascending order, then the transfer is done
(47_collaborator_ports.md R234 to R236). -/

namespace Sys2Proof.Machine

/-- `n` bytes of region `r` were sent from the engine's position on. -/
def State.sent (s : State) (r : Region) (n : Nat) : State :=
  { s with
    txNext := s.txNext + n
    history := s.history ++ (List.range' s.txNext n).map fun k => .txByte k (s.readByte r k) }

/-- A byte sent and then `n` more are `n + 1` bytes: a read changes no byte. -/
theorem sent_txRead (s : State) (r : Region) (n : Nat) : (s.txRead r).sent r n = s.sent r (n + 1) := by
  have same : (s.txRead r).readByte r = s.readByte r := by
    funext k
    exact readByte_congr rfl rfl rfl r k
  rw [State.sent, State.sent, same, List.range'_succ, List.map_cons]
  simp [State.txRead, Nat.add_assoc, Nat.add_comm 1 n]

/-- With every byte sent the transfer is done (R234, R236). -/
theorem engineStep_of_sent {s : State} {r : Region} (flight : s.txRegion = some r) (all : s.txLen.toNat ≤ s.txNext) :
    s.engineStep = s.txFinish := by
  simp [State.engineStep, flight, all.not_gt]

/-- With no input listed and no frame in progress the engine moves (log entry 2). -/
theorem step_of_alone {s : State} (alone : s.inputs = []) (idle : s.compute = .idle) :
    step s = .next s.engineStep := by
  rw [step, oneStep, alone]
  exact if_pos idle

/-- Steps left to the engine while bytes are left. -/
theorem runSteps_sends {s : State} {r : Region} (n : Nat) (alone : s.inputs = []) (idle : s.compute = .idle)
    (flight : s.txRegion = some r) (left : s.txNext + n ≤ s.txLen.toNat) (fits : s.txLen.toNat ≤ s.bufLen) :
    runSteps n s = .next (s.sent r n) := by
  induction n generalizing s with
  | zero => simp [runSteps, State.sent]
  | succ n ih =>
    have reads : s.engineStep = s.txRead r := engineStep_reads flight (by omega) (by omega)
    have next : (s.txRead r).txNext + n ≤ (s.txRead r).txLen.toNat := by
      show s.txNext + 1 + n ≤ s.txLen.toNat
      omega
    rw [runSteps, step_of_alone alone idle, andThen_next, reads, ih (s := s.txRead r) alone idle flight next fits,
      sent_txRead]

/-- Settles O41: `tx_len` reads and then TX_DONE. -/
theorem engineSendsTheRegionInOrder : Obligations.EngineSendsTheRegionInOrder := by
  unfold Obligations.EngineSendsTheRegionInOrder
  intro s r alone idle flight start fits
  have reads := runSteps_sends s.txLen.toNat alone idle flight (by omega) fits
  have done : step (s.sent r s.txLen.toNat) = .next (s.sent r s.txLen.toNat).txFinish := by
    rw [step_of_alone (s := s.sent r _) alone idle, engineStep_of_sent (s := s.sent r _) flight]
    exact Nat.le_add_left ..
  rw [runSteps_add, reads, andThen_next, runSteps, done, State.sent, start, ← List.range_eq_range', Nat.zero_add]
  rfl

end Sys2Proof.Machine

/-! PROOF. Reset: what the state after it holds, and its delivery in a run (70_reset_and_hazards.md R280 to R283). -/

namespace Sys2Proof.Machine

/-- Settles O51: a channel just created is sound whatever its coming inputs, so with none. -/
theorem resetMachineIsSound : Obligations.ResetMachineIsSound := by
  unfold Obligations.ResetMachineIsSound
  exact ⟨fun par cfg epoch => resetWith_sound par cfg epoch [],
    resetWith_sound Params.default Configuration.worked 0 []⟩

/-- Settles O53, field by field of `Protocol`. -/
theorem resetMachineMeetsTheProtocol : Obligations.ResetMachineMeetsTheProtocol := by
  unfold Obligations.ResetMachineMeetsTheProtocol
  exact resetWith_protocol

/-- `config_fault` after reset is the capacity check of 10_state.md R40, as soundness says. -/
theorem resetWith_configFault (par : Params) (cfg : Configuration) (epoch : Nat) :
    (State.resetWith par cfg epoch).configFault = decide (par.bufLen.toNat < cfg.stripLength.toNat * 12) :=
  (resetWith_sound par cfg epoch []).capacity

/-- Without a reset content every byte is the free one (R283). -/
theorem resetWith_readByte_of_unspecified {par : Params} (cfg : Configuration) (epoch : Nat)
    (unspecified : par.bufReset = .unspecified) (r : Region) (off : Nat) :
    (State.resetWith par cfg epoch).readByte r off = Config.bufReset epoch r off := by
  have empty : resetBuffers par = (Memory.empty, Memory.empty) := by simp only [resetBuffers, unspecified]
  rw [readByte_def]
  cases r <;> simp [State.region, State.resetWith, empty]

/-- A byte of a region filled from a list stands at its offset (R281). -/
theorem readByte_of_ofBytes {s : State} {r : Region} {bytes : List Byte} {n off : Nat} {b : Byte}
    (filled : s.region r = Memory.ofBytes bytes n) (inside : off < n) (given : bytes[off]? = some b) :
    s.readByte r off = b := by
  rw [readByte_def, filled, Memory.ofBytes_read, if_pos inside, given]
  rfl

theorem resetWith_region_of_content {par : Params} {b1 b2 : List Byte} (content : par.bufReset = .content b1 b2)
    (cfg : Configuration) (epoch : Nat) :
    (State.resetWith par cfg epoch).region .one = Memory.ofBytes b1 par.bufLen.toNat ∧
    (State.resetWith par cfg epoch).region .two = Memory.ofBytes b2 par.bufLen.toNat := by
  have filled : resetBuffers par = (Memory.ofBytes b1 par.bufLen.toNat, Memory.ofBytes b2 par.bufLen.toNat) := by
    simp only [resetBuffers, content]
  exact ⟨congrArg Prod.fst filled, congrArg Prod.snd filled⟩

/-- Settles O56: the registers and flags stand in `State.resetWith` as they are; the display source, `config_fault` and
the regions are computed. -/
theorem resetPutsEveryPieceAtItsValue : Obligations.ResetPutsEveryPieceAtItsValue := by
  unfold Obligations.ResetPutsEveryPieceAtItsValue
  rintro par cfg epoch _ rfl
  refine ⟨rfl, rfl, rfl, ?generator, ?static, rfl, rfl, rfl, rfl, rfl, rfl, rfl, rfl, rfl,
    resetWith_configFault par cfg epoch, resetWith_readByte_of_unspecified cfg epoch, ?content, rfl, rfl, rfl, rfl, rfl⟩
  case generator => exact fun source => congrArg SourceKind.ofSource source
  case static => exact fun c source => ⟨congrArg SourceKind.ofSource source, congrArg staticColorOf source⟩
  case content =>
    intro b1 b2 content off inside
    obtain ⟨one, two⟩ := resetWith_region_of_content content cfg epoch
    exact ⟨fun b => readByte_of_ofBytes one inside, fun b => readByte_of_ofBytes two inside⟩

/-- Settles O57: a reset never waits, and creating the channel keeps the inputs behind it. -/
theorem resetInputCreatesANewChannel : Obligations.ResetInputCreatesANewChannel := by
  unfold Obligations.ResetInputCreatesANewChannel
  intro s par cfg rest next
  have free : s.heldBack (.reset par cfg) = false := rfl
  simp only [step, oneStep, next, free]
  rfl

end Sys2Proof.Machine

/-! PROOF. The common checks and the statuses: the takes, what a command can answer, and in which order a word is
refused (60_exceptions.md R252, R262, R264, R265). -/

namespace Sys2Proof.Machine

/-! ## The takes -/

theorem exec_takeProducer_of_noFault {s : State} (noFault : s.configFault = false) :
    exec .takeProducer s =
      if s.producerTaken then raise s .absent else respond { s with producerTaken := true } 1 := by
  rw [exec, execTakeProducer]
  exact checked_pass noFault (granted_host s)

theorem exec_takeConsumer_of_noFault {s : State} (noFault : s.configFault = false) :
    exec .takeConsumer s =
      if s.consumerTaken then raise s .absent else respond { s with consumerTaken := true } 1 := by
  rw [exec, execTakeConsumer]
  exact checked_pass noFault (granted_host s)

/-- Settles O14: the taken flag decides each take. -/
theorem takesGrantOnce : Obligations.TakesGrantOnce := by
  unfold Obligations.TakesGrantOnce
  intro s noFault
  rw [exec_takeProducer_of_noFault noFault, exec_takeConsumer_of_noFault noFault]
  exact ⟨fun free => if_neg (by simp [free]), fun taken => if_pos taken, fun free => if_neg (by simp [free]),
    fun taken => if_pos taken⟩

/-! ## What a command can answer -/

/-- A take of a handle that was granted before (R252). -/
def RepeatedTake (i : Instr) (s : State) : Prop :=
  i = .takeProducer ∧ s.producerTaken = true ∨ i = .takeConsumer ∧ s.consumerTaken = true

/-- The outcomes of a command, each with the check that leads to it (R264). -/
inductive Verdict (i : Instr) (s : State) : Result → Prop where
  /-- Check 1. -/
  | fatal (fault : s.configFault = true) (other : ∀ reg, i ≠ .rdReg reg) : Verdict i s (raise s .configFatal)
  /-- Check 3. -/
  | unowned (unowned : s.granted (classOf i) = false) : Verdict i s (raise s .notOwner)
  /-- Check 4. -/
  | range (out : OutOfRange i s) : Verdict i s (raise s .range)
  | absent (again : RepeatedTake i s) : Verdict i s (raise s .absent)
  | ok (inRange : ¬OutOfRange i s) (u : State) (data : Word32) : Verdict i s (respond u data)
  /-- COMPUTE_FRAME answers at its u4 (44_producer.md R181). -/
  | gate (compute : i = .computeFrame) (opened : s.gateOpen = true) (micro : s.par.preempt = .micro) :
    Verdict i s (.next { s with compute := s.phaseAt 0, response := none })
  /-- COMPUTE_FRAME taken as one step (20_memory.md R75 d). -/
  | frame (compute : i = .computeFrame) (noFault : s.configFault = false) (opened : s.gateOpen = true)
    (op : s.par.preempt = .op) : Verdict i s s.wholeFrame

/-- The body of a command with a range check. -/
theorem Verdict.of_check {i : Instr} {s : State} {inside : Prop} [Decidable inside] (check : OutOfRange i s ↔ ¬inside)
    (u : State) (data : Word32) : Verdict i s (if inside then respond u data else raise s .range) := by
  split
  · exact .ok (fun out => check.mp out ‹_›) u data
  · exact .range (check.mpr ‹_›)

/-- ENCODE_PIXEL that passes the checks of its class is decided by its slot (41_bit_encoder.md R130). -/
theorem exec_encodePixel_of_taken {s : State} (noFault : s.configFault = false) (taken : s.producerTaken = true)
    (pix : Nat) (packed : Word24) :
    exec (.encodePixel pix packed) s =
      if 12 * pix + 11 < s.bufLen then respond ((s.violate .primitiveMisuse).putPixel pix packed) 0
      else raise s .range := by
  rw [exec, execEncodePixel, checked_pass (cls := .producer) noFault taken]
  simp only [slotFits_iff]

theorem exists_readReg (s : State) {reg : Nat} (named : reg ≤ 4) : ∃ v, s.readReg reg = some v := by
  match reg, named with
  | 0, _ | 1, _ | 2, _ | 3, _ | 4, _ => exact ⟨_, rfl⟩

theorem exec_rdReg_verdict (reg : Nat) (s : State) : Verdict (.rdReg reg) s (exec (.rdReg reg) s) := by
  by_cases past : 4 < reg
  · rw [exec_rdReg_of_none (readReg_eq_none s past)]
    exact .range past
  · obtain ⟨v, shown⟩ := exists_readReg s (Nat.not_lt.mp past)
    rw [exec_rdReg_of_readReg shown]
    exact .ok (i := .rdReg reg) past s v

/-- A command behind checks 1 and 3 is decided by its own range check, a taken flag or its gate. -/
theorem exec_passed_verdict {i : Instr} {s : State} (noFault : s.configFault = false)
    (granted : s.granted (classOf i) = true) : Verdict i s (exec i s) := by
  cases i with
  | takeProducer =>
    rw [exec_takeProducer_of_noFault noFault]
    split
    · exact .absent (.inl ⟨rfl, ‹_›⟩)
    · exact .ok id _ _
  | takeConsumer =>
    rw [exec_takeConsumer_of_noFault noFault]
    split
    · exact .absent (.inr ⟨rfl, ‹_›⟩)
    · exact .ok id _ _
  | scale blue red green bright => exact exec_scale_eq noFault blue red green bright ▸ .ok id _ _
  | encodePixel pix packed =>
    rw [exec_encodePixel_of_taken noFault granted]
    exact .of_check Nat.not_lt.symm _ _
  | rbReadableView => exact exec_rbReadableView_of_taken noFault granted ▸ .ok id _ _
  | rbWritableView => exact exec_rbWritableView_of_taken noFault granted ▸ .ok id _ _
  | rbRequestSwap => exact exec_rbRequestSwap_of_taken noFault granted ▸ .ok id _ _
  | rbCommitSwap => exact exec_rbCommitSwap_of_taken noFault granted ▸ .ok id _ _
  | rbLength => exact exec_rbLength_of_noFault noFault ▸ .ok id _ _
  | rbRead off =>
    rw [exec_rbRead_of_taken noFault granted]
    exact .of_check Nat.not_lt.symm _ _
  | rbWrite off data =>
    rw [exec_rbWrite_of_taken noFault granted]
    exact .of_check Nat.not_lt.symm _ _
  | chRequestSwap => exact exec_chRequestSwap_of_taken noFault granted ▸ .ok id _ _
  | chTrySwap => exact exec_chTrySwap_of_taken noFault granted ▸ .ok id _ _
  | computeFrame =>
    cases opened : s.gateOpen with
    | false => exact exec_computeFrame_of_closed noFault granted opened ▸ .ok id _ _
    | true =>
      cases granularity : s.par.preempt with
      | micro => exact exec_computeFrame_of_micro noFault granted opened granularity ▸ .gate rfl opened granularity
      | op => exact exec_computeFrame_of_op noFault granted opened granularity ▸
        .frame rfl noFault opened granularity
  | isAnimationFinished => exact exec_isAnimationFinished_of_taken noFault granted ▸ .ok id _ _
  | startFrame =>
    rw [exec_startFrame_of_taken noFault granted]
    split <;> exact .ok id _ _
  | rdReg reg => exact exec_rdReg_verdict reg s

/-- What any command answers in any state. -/
theorem exec_verdict (i : Instr) (s : State) : Verdict i s (exec i s) := by
  by_cases reads : ∃ reg, i = .rdReg reg
  · obtain ⟨reg, rfl⟩ := reads
    exact exec_rdReg_verdict reg s
  · have other : ∀ reg, i ≠ .rdReg reg := fun reg read => reads ⟨reg, read⟩
    cases fault : s.configFault with
    | true => exact exec_fault fault other ▸ .fatal fault other
    | false =>
      cases granted : s.granted (classOf i) with
      | false => exact exec_unowned fault granted ▸ .unowned granted
      | true => exact exec_passed_verdict fault granted

/-! ## Words -/

theorem opcodeField_of_decode {w : Word40} {i : Instr} (decoded : decode w = .ok i) : opcodeField w = i.opcode := by
  obtain ⟨_, rfl⟩ := decodedWordIsItsEncoding w i decoded
  obtain ⟨opcode, _⟩ := Sys2Proof.Laws.EncodeFields.fields i
  exact opcode

/-- Opcode 0x60 is RD_REG's alone (30_encoding.md R94). -/
theorem opcode_eq_rdReg_iff {i : Instr} : i.opcode = 0x60#8 ↔ ∃ reg, i = .rdReg reg := by
  cases i with
  | rdReg reg => exact ⟨fun _ => ⟨reg, rfl⟩, fun _ => rfl⟩
  | _ => simp [Instr.opcode]

theorem opcodeField_eq_rdReg_iff {w : Word40} {i : Instr} (decoded : decode w = .ok i) :
    opcodeField w = 0x60#8 ↔ ∃ reg, i = .rdReg reg := by
  rw [opcodeField_of_decode decoded, opcode_eq_rdReg_iff]

/-- Check 1 comes before the decoder's (R262, R264). -/
theorem runWord_of_fault {w : Word40} {s : State} (fault : s.configFault = true) (other : opcodeField w ≠ 0x60#8) :
    runWord w s = raise s .configFatal := by
  cases decoded : decode w with
  | error e => simp [runWord, decoded, rejectWord, fault, other]
  | ok i =>
    rw [runWord_of_decode decoded]
    exact exec_fault fault fun reg read => other ((opcodeField_eq_rdReg_iff decoded).mpr ⟨reg, read⟩)

/-- Check 2: behind check 1 a word that is no command is ILLEGAL (R264; log entry 23). -/
theorem runWord_of_error {w : Word40} {s : State} {e : DecodeError} (decoded : decode w = .error e)
    (passed : ¬(s.configFault = true ∧ opcodeField w ≠ 0x60#8)) : runWord w s = raise s .illegal := by
  simp only [runWord, decoded, rejectWord]
  exact if_neg (by simpa using passed)

/-- Check 1 lets a decoded command past the capacity fault only if it is RD_REG. -/
theorem rdReg_of_passed {w : Word40} {i : Instr} {s : State} (decoded : decode w = .ok i)
    (passed : ¬(s.configFault = true ∧ opcodeField w ≠ 0x60#8)) (fault : s.configFault = true) :
    ∃ reg, i = .rdReg reg := by
  by_contra other
  exact passed ⟨fault, mt (opcodeField_eq_rdReg_iff decoded).mp other⟩

/-- Only RD_REG is let past the capacity fault, and it needs no handle. -/
theorem exec_unowned_of_passed {i : Instr} {s : State} (passed : s.configFault = true → ∃ reg, i = .rdReg reg)
    (unowned : s.granted (classOf i) = false) : exec i s = raise s .notOwner := by
  refine exec_unowned ?_ unowned
  by_contra fault
  obtain ⟨reg, rfl⟩ := passed (by simpa using fault)
  exact absurd unowned nofun

theorem RepeatedTake.inRange {i : Instr} {s : State} (again : RepeatedTake i s) : ¬OutOfRange i s := by
  rcases again with ⟨rfl, _⟩ | ⟨rfl, _⟩ <;> exact id

/-- Checks 1 and 3 passed, check 4 decides (R264). -/
theorem Verdict.eq_range {i : Instr} {s : State} {o : Result} (verdict : Verdict i s o)
    (passed : s.configFault = true → ∃ reg, i = .rdReg reg) (granted : s.granted (classOf i) = true)
    (out : OutOfRange i s) : o = raise s .range := by
  cases verdict with
  | fatal fault other =>
    obtain ⟨reg, read⟩ := passed fault
    exact absurd read (other reg)
  | unowned unowned => exact absurd (granted.symm.trans unowned) nofun
  | range _ => rfl
  | absent again => exact absurd out again.inRange
  | ok inRange _ _ => exact absurd out inRange
  | gate compute _ _ | frame compute _ _ _ =>
    subst compute
    exact out.elim

/-- The four checks passed, the answer is OK but for a repeated take and an open gate (R264). -/
theorem Verdict.response {i : Instr} {s t : State} {o : Result} (verdict : Verdict i s o) (answered : o = .next t)
    (passed : s.configFault = true → ∃ reg, i = .rdReg reg) (granted : s.granted (classOf i) = true)
    (inRange : ¬OutOfRange i s) :
    (∃ d, t.response = some ⟨.ok, d⟩) ∨ (RepeatedTake i s ∧ t.response = some ⟨.absent, 0⟩) ∨
    (i = .computeFrame ∧ s.gateOpen = true ∧ s.par.preempt = .micro ∧ t.response = none) := by
  cases verdict with
  | fatal fault other =>
    obtain ⟨reg, read⟩ := passed fault
    exact absurd read (other reg)
  | unowned unowned => exact absurd (granted.symm.trans unowned) nofun
  | range out => exact absurd out inRange
  | absent again =>
    cases answered
    exact .inr (.inl ⟨again, rfl⟩)
  | ok _ u data =>
    cases answered
    exact .inl ⟨data, rfl⟩
  | gate compute opened micro =>
    cases answered
    exact .inr (.inr ⟨compute, opened, micro, rfl⟩)
  | frame _ _ _ _ =>
    obtain ⟨u, _, _, rfl⟩ := wholeFrame_eq answered
    exact .inl ⟨1, rfl⟩

/-- Settles O9: check 1 and the decoder's come before the command, whose `Verdict` names the others. -/
theorem checksComeInOrder : Obligations.ChecksComeInOrder := by
  unfold Obligations.ChecksComeInOrder
  refine fun w s => ⟨fun ⟨fault, other⟩ => runWord_of_fault fault other, fun passed => ⟨fun e decoded => ?illegal,
    fun i decoded unowned => ?unowned, fun i decoded granted out => ?range,
    fun i t decoded granted inRange ran => ?answer⟩⟩
  case illegal => exact runWord_of_error decoded passed
  case unowned =>
    rw [runWord_of_decode decoded]
    exact exec_unowned_of_passed (rdReg_of_passed decoded passed) unowned
  case range =>
    rw [runWord_of_decode decoded]
    exact (exec_verdict i s).eq_range (rdReg_of_passed decoded passed) granted out
  case answer =>
    rw [runWord_of_decode decoded] at ran
    rcases (exec_verdict i s).response ran (rdReg_of_passed decoded passed) granted inRange with
      ok | ⟨⟨rfl, taken⟩ | ⟨rfl, taken⟩, absent⟩ | gate
    · exact .inl ok
    · exact .inr (.inl ⟨rfl, taken, absent⟩)
    · exact .inr (.inr (.inl ⟨rfl, taken, absent⟩))
    · exact .inr (.inr (.inr gate))

/-! ## A failed command -/

/-- A command that raises a condition changes the response alone; any other answers OK, or not yet (R265). -/
theorem Verdict.failed {i : Instr} {s t : State} {o : Result} {r : Response} (verdict : Verdict i s o)
    (answered : o = .next t) (responded : t.response = some r) (failed : r.status ≠ .ok) :
    t = { s with response := some r } := by
  cases verdict with
  | fatal _ _ | unowned _ | range _ | absent _ =>
    cases answered
    cases responded
    rfl
  | ok _ u data =>
    cases answered
    cases responded
    exact absurd rfl failed
  | gate _ _ _ =>
    cases answered
    cases responded
  | frame _ _ _ _ =>
    obtain ⟨u, _, _, rfl⟩ := wholeFrame_eq answered
    cases responded
    exact absurd rfl failed

/-- Settles O10: a rejected word changes the response alone, and so does a command that fails. -/
theorem failedCommandChangesNothing : Obligations.FailedCommandChangesNothing := by
  unfold Obligations.FailedCommandChangesNothing
  intro w s t r ran responded failed
  rcases runWord_cases ran with ⟨i, _, executed⟩ | ⟨_, st, _, _, rfl⟩
  · exact (exec_verdict i s).failed executed responded failed
  · cases responded
    rfl

/-! ## The capacity fault -/

/-- RD_REG's words answer under the capacity fault, and nothing but the response changes (R262). -/
theorem runWord_rdReg {w : Word40} (s : State) (reads : opcodeField w = 0x60#8) :
    ∃ r, runWord w s = .next { s with response := some r } := by
  cases decoded : decode w with
  | error e => exact ⟨_, runWord_of_error decoded fun ⟨_, other⟩ => other reads⟩
  | ok i =>
    obtain ⟨reg, rfl⟩ := (opcodeField_eq_rdReg_iff decoded).mp reads
    rw [runWord_of_decode decoded]
    cases shown : s.readReg reg with
    | none => exact ⟨_, exec_rdReg_of_none shown⟩
    | some v => exact ⟨_, exec_rdReg_of_readReg shown⟩

/-- Under the capacity fault a word changes nothing but the response. -/
theorem runWord_eq_of_fault {w : Word40} {s t : State} (ran : runWord w s = .next t) (fault : s.configFault = true) :
    ∃ r, t = { s with response := r } := by
  by_cases reads : opcodeField w = 0x60#8
  · obtain ⟨r, e⟩ := runWord_rdReg s reads
    cases e.symm.trans ran
    exact ⟨some r, rfl⟩
  · cases (runWord_of_fault fault reads).symm.trans ran
    exact ⟨some ⟨.configFatal, 0⟩, rfl⟩

theorem transfers_of_appended {s t : State} {es : List Event} (appended : t.history = s.history ++ es)
    (none : es.countP Event.isTransfer = 0) : t.transfers = s.transfers := by
  rw [State.transfers, appended, List.countP_append, none]
  rfl

theorem EngineFrame.transfers_eq {s t : State} (h : EngineFrame s t) : t.transfers = s.transfers := by
  obtain ⟨es, appended, none⟩ := h.history
  exact transfers_of_appended appended none

/-- Under the capacity fault no frame is in progress, so a micro-step is no step (44_producer.md R181). -/
theorem microStep_eq_of_fault {s t : State} (ran : s.microStep = .next t) (sound : s.Sound)
    (fault : s.configFault = true) : t = s := by
  have idle : s.compute = .idle := by
    by_contra busy
    exact absurd (fault.symm.trans (sound.valid_of_busy busy)) nofun
  simp only [State.microStep, idle] at ran
  cases ran
  rfl

/-- No step under the capacity fault writes a byte or starts a transfer (R262). -/
theorem step_of_fault {s t : State} (sound : s.Sound) (fault : s.configFault = true) (stays : s.nextIsReset = false)
    (h : step s = .next t) : SameBytes s t ∧ t.transfers = s.transfers := by
  rcases step_cases h with ⟨par, cfg, rest, hi, _⟩ | ⟨ins, _, rfl⟩ | ⟨ins, inside, u, _, hu, rfl⟩ |
      ⟨agent, w, inside, rest, u, _, _, hu, rfl⟩
  · simp [State.nextIsReset, hi] at stays
  · have moved := engineStep_frame { s with inputs := ins }
    exact ⟨moved.readByte, moved.transfers_eq⟩
  · cases microStep_eq_of_fault hu (sound.of_footing rfl) fault
    exact ⟨fun _ _ => rfl, rfl⟩
  · obtain ⟨r, rfl⟩ := runWord_eq_of_fault hu fault
    exact ⟨fun _ _ => rfl, transfers_of_appended rfl rfl⟩

/-- Settles O8: the check at reset, check 1 of every word, and the cases of a step. -/
theorem capacityFaultRefusesEveryCommand : Obligations.CapacityFaultRefusesEveryCommand := by
  unfold Obligations.CapacityFaultRefusesEveryCommand
  refine ⟨resetWith_configFault, fun w s fault => ⟨runWord_of_fault fault, runWord_rdReg s⟩,
    fun s t sound fault stays h => ⟨?fault, step_of_fault sound fault stays h⟩⟩
  obtain ⟨_, _, _, _, _, _, _, configFault⟩ := settings_eq_iff.mp (step_settingsPersist h stays).settings
  exact configFault.trans fault

end Sys2Proof.Machine

/-! PROOF. What each class of command may change (60_exceptions.md R266). -/

namespace Sys2Proof.Machine

theorem Ran.hostWrites {i : Instr} {s t : State} (h : Ran i s t) (host : classOf i = .host) :
    t = { s with producerTaken := t.producerTaken, consumerTaken := t.consumerTaken, response := t.response } := by
  cases i with
  | takeProducer | takeConsumer =>
    cases h
    rfl
  | scale | rbLength | rdReg =>
    obtain ⟨_, rfl⟩ := h
    rfl
  | _ => cases host

/-- What a producer-class command may change beside the bytes of the inactive region. A record update in these
directions meets it by `⟨rfl, id, id, id, id⟩`. -/
structure ProducerWrites (s t : State) : Prop where
  same : t = { s with
    buffer1 := t.buffer1, buffer2 := t.buffer2, swapRequested := t.swapRequested, swapPending := t.swapPending
    lastFrameCalculated := t.lastFrameCalculated, frameRequested := t.frameRequested
    frameNumber := t.frameNumber, compute := t.compute, response := t.response, violations := t.violations
    txRegion := t.txRegion, txNext := t.txNext, history := t.history, inside := t.inside
    freeCount := t.freeCount }
  swapRequested : s.swapRequested = true → t.swapRequested = true
  swapPending : s.swapPending = true → t.swapPending = true
  calculated : s.lastFrameCalculated = true → t.lastFrameCalculated = true
  frameRequested : s.frameRequested = false → t.frameRequested = false

theorem ProducerWrites.trans {s t u : State} (h1 : ProducerWrites s t) (h2 : ProducerWrites t u) :
    ProducerWrites s u where
  same := by rw [h2.same, h1.same]
  swapRequested := h2.swapRequested ∘ h1.swapRequested
  swapPending := h2.swapPending ∘ h1.swapPending
  calculated := h2.calculated ∘ h1.calculated
  frameRequested := h2.frameRequested ∘ h1.frameRequested

theorem PixelFrame.producerWrites {s t : State} (h : PixelFrame s t) : ProducerWrites s t := by
  have calculated := h.calculated
  rw [h.same] at calculated ⊢
  exact ⟨rfl, id, id, calculated, id⟩

theorem PutFrame.producerWrites {s t : State} (h : PutFrame s t) : ProducerWrites s t := by
  rw [h.same]
  exact ⟨rfl, id, id, id, id⟩

theorem answer_producerWrites (s : State) (st : Status) (d : Word32) : ProducerWrites s (s.answer st d) :=
  ⟨rfl, id, id, id, id⟩

theorem Ran.producerWrites {i : Instr} {s t : State} (h : Ran i s t) (producer : classOf i = .producer) :
    ProducerWrites s t := by
  have misuse : ProducerWrites s (s.violate .primitiveMisuse) := ⟨rfl, id, id, id, id⟩
  cases i with
  | rbWritableView =>
    obtain ⟨_, _, rfl⟩ := h
    exact answer_producerWrites ..
  | encodePixel pix packed =>
    obtain ⟨_, _, rfl⟩ := h
    exact (misuse.trans (putPixel_frame _ pix packed).producerWrites).trans (answer_producerWrites ..)
  | rbWrite off data =>
    obtain ⟨_, _, rfl⟩ := h
    exact (misuse.trans (putByte_frame _ off data).producerWrites).trans (answer_producerWrites ..)
  | rbRequestSwap =>
    obtain ⟨_, rfl⟩ := h
    exact ⟨rfl, id, fun _ => rfl, id, id⟩
  | chRequestSwap =>
    obtain ⟨_, rfl⟩ := h
    exact ⟨rfl, fun _ => rfl, fun _ => rfl, id, id⟩
  | computeFrame =>
    obtain ⟨_, ⟨_, _, rfl⟩ | ⟨_, _, rfl⟩ | ⟨_, _, u, _, painted, rfl⟩⟩ := h
    · exact ⟨rfl, id, id, id, id⟩
    · exact ⟨rfl, id, id, id, id⟩
    · exact painted.producerWrites.trans ⟨rfl, fun _ => rfl, fun _ => rfl, id, fun _ => rfl⟩
  | _ => cases producer

/-- What a consumer-class command may change. -/
structure ConsumerWrites (s t : State) : Prop where
  same : t = { s with
    activeIs1 := t.activeIs1, swapPending := t.swapPending, swapRequested := t.swapRequested
    frameRequested := t.frameRequested, lastFrameShown := t.lastFrameShown, started := t.started
    txRegion := t.txRegion, txLen := t.txLen, txNext := t.txNext, violations := t.violations
    history := t.history, response := t.response }
  swapRequested : s.swapRequested = false → t.swapRequested = false
  swapPending : s.swapPending = false → t.swapPending = false
  frameRequested : s.frameRequested = true → t.frameRequested = true
  shown : s.lastFrameShown = true → t.lastFrameShown = true

theorem ConsumerWrites.trans {s t u : State} (h1 : ConsumerWrites s t) (h2 : ConsumerWrites t u) :
    ConsumerWrites s u where
  same := by rw [h2.same, h1.same]
  swapRequested := h2.swapRequested ∘ h1.swapRequested
  swapPending := h2.swapPending ∘ h1.swapPending
  frameRequested := h2.frameRequested ∘ h1.frameRequested
  shown := h2.shown ∘ h1.shown

theorem ConsumerWrites.sameBytes {s t : State} (h : ConsumerWrites s t) : SameBytes s t := by
  rw [h.same]
  exact fun _ _ => readByte_congr rfl rfl rfl ..

theorem answer_consumerWrites (s : State) (st : Status) (d : Word32) : ConsumerWrites s (s.answer st d) :=
  ⟨rfl, id, id, id, id⟩

theorem commitSwap_consumerWrites (s : State) : ConsumerWrites s s.commitSwap := by
  rw [commitSwap_eq]
  exact ⟨rfl, id, fun _ => rfl, id, id⟩

theorem trySwap_consumerWrites (s : State) : ConsumerWrites s s.trySwap := by
  rw [trySwap_eq]
  exact ⟨rfl, by simp +contextual, fun _ => rfl, by simp +contextual, id⟩

theorem graceCheck_consumerWrites (s : State) : ConsumerWrites s s.graceCheck := by
  rw [graceCheck_eq]
  exact ⟨rfl, id, id, id, by simp +contextual⟩

/-- The transfer of a START_FRAME moves no flag that the swap does not. -/
theorem showFrame_consumerWrites (s : State) : ConsumerWrites s s.showFrame := by
  refine (trySwap_consumerWrites s).trans ?_
  rw [State.showFrame, startTransfer_eq, violateIf_eq]
  exact ⟨rfl, id, id, id, id⟩

theorem Ran.consumerWrites {i : Instr} {s t : State} (h : Ran i s t) (consumer : classOf i = .consumer) :
    ConsumerWrites s t := by
  have misuse : ConsumerWrites s (s.violate .primitiveMisuse) := ⟨rfl, id, id, id, id⟩
  cases i with
  | rbReadableView =>
    obtain ⟨_, _, rfl⟩ := h
    exact answer_consumerWrites ..
  | rbRead off =>
    obtain ⟨_, _, _, rfl⟩ := h
    exact misuse.trans (answer_consumerWrites ..)
  | rbCommitSwap =>
    obtain ⟨_, rfl⟩ := h
    exact (misuse.trans (commitSwap_consumerWrites _)).trans (answer_consumerWrites ..)
  | chTrySwap =>
    obtain ⟨_, rfl⟩ := h
    exact (misuse.trans (trySwap_consumerWrites _)).trans (answer_consumerWrites ..)
  | isAnimationFinished =>
    obtain ⟨_, rfl⟩ := h
    exact (graceCheck_consumerWrites s).trans (answer_consumerWrites ..)
  | startFrame =>
    obtain ⟨_, ⟨_, _, rfl⟩ | ⟨_, rfl⟩⟩ := h
    · exact ⟨rfl, id, id, id, id⟩
    · exact ((graceCheck_consumerWrites s).trans (showFrame_consumerWrites _)).trans (answer_consumerWrites ..)
  | _ => cases consumer

/-- Settles O42: a command that failed changed the response alone, and one that ran only what its class may. -/
theorem classesChangeOnlyWhatIsTheirs : Obligations.ClassesChangeOnlyWhatIsTheirs := by
  unfold Obligations.ClassesChangeOnlyWhatIsTheirs
  intro i s t h
  rcases exec_cases h with ⟨st, _, rfl⟩ | ⟨_, ran⟩
  · exact ⟨fun _ => rfl, fun _ => ⟨rfl, id, id, id, id, fun _ => rfl⟩,
      fun _ => ⟨rfl, fun _ _ => rfl, id, id, id, id⟩⟩
  · refine ⟨ran.hostWrites, fun producer => ?producer, fun consumer => ?consumer⟩
    case producer =>
      obtain ⟨same, swapRequested, swapPending, calculated, frameRequested⟩ := ran.producerWrites producer
      exact ⟨same, swapRequested, swapPending, calculated, frameRequested, ran.activeStands⟩
    case consumer =>
      have bytes := (ran.consumerWrites consumer).sameBytes
      obtain ⟨same, swapRequested, swapPending, frameRequested, shown⟩ := ran.consumerWrites consumer
      exact ⟨same, bytes, swapRequested, swapPending, frameRequested, shown⟩

end Sys2Proof.Machine

/-! PROOF. Every command answers, and a sound machine whose counter wraps always has a next state
(70_reset_and_hazards.md R300). -/

namespace Sys2Proof.Machine

/-! ## Commands -/

/-- Only a frame taken as one step can stop. -/
theorem Verdict.answers {i : Instr} {s : State} {o : Result} (verdict : Verdict i s o)
    (whole : i = .computeFrame → s.configFault = false → s.par.preempt = .op → ∃ t, s.wholeFrame = .next t) :
    ∃ t, o = .next t := by
  cases verdict with
  | fatal | unowned | range | absent | ok | gate => exact ⟨_, rfl⟩
  | frame compute noFault opened op => exact whole compute noFault op

/-- Settles O11: with granularity micro no frame is taken as one step. -/
theorem everyCommandAnswers : Obligations.EveryCommandAnswers := by
  unfold Obligations.EveryCommandAnswers
  intro i s micro
  exact (exec_verdict i s).answers fun compute _ op => absurd ((micro compute).symm.trans op) nofun

/-! ## Frames -/

theorem andThen_answers {o : Result} {f : State → Result} (first : ∃ s, o = .next s)
    (second : ∀ s, o = .next s → ∃ t, f s = .next t) : ∃ t, andThen o f = .next t := by
  obtain ⟨s, rfl⟩ := first
  exact second s rfl

/-- Pixels that fit the region are painted one after the other. -/
theorem pixelLoop_answers {n p : Nat} {s : State} (fits : 12 * (p + n) ≤ s.bufLen) :
    ∃ t, State.pixelLoop n p s = .next t := by
  induction n generalizing p s with
  | zero => exact ⟨s, rfl⟩
  | succ n ih =>
    refine andThen_answers (pixelStep_answers (slotFits_iff.mpr (by omega))) fun u stepped => ih ?_
    obtain ⟨_, painted⟩ := pixelStep_frame stepped
    rw [painted.bufLen_eq]
    omega

theorem countStep_answers {s : State} (wrap : s.par.frameWrap = .wrap) : ∃ t, s.countStep = .next t :=
  ⟨_, countStep_eq_next_iff.mpr ⟨fun ⟨_, fault⟩ => absurd (wrap.symm.trans fault) nofun, rfl⟩⟩

theorem PixelFrame.par_eq {s t : State} (h : PixelFrame s t) : t.par = s.par := by rw [h.same]

/-- A sound machine without the capacity fault has room for the whole frame. -/
theorem wholeFrame_answers {s : State} (sound : s.Sound) (wrap : s.par.frameWrap = .wrap)
    (noFault : s.configFault = false) : ∃ t, s.wholeFrame = .next t := by
  refine andThen_answers (pixelLoop_answers (by simpa using sound.frame_fits noFault)) fun u looped => ?_
  refine andThen_answers (countStep_answers ?_) fun v _ => ⟨_, rfl⟩
  rw [(pixelLoop_frame looped).par_eq]
  exact wrap

/-- The pixel a sound machine is at fits the region (20_memory.md R70). -/
theorem State.Sound.slotFits {s : State} {p : Nat} (sound : s.Sound) (pixel : s.compute = .pixel p) :
    s.slotFits p = true := by
  have cursor := sound.cursor
  rw [State.cursorSound, pixel] at cursor
  obtain ⟨inside, noFault⟩ := cursor
  have room := sound.frame_fits noFault
  exact slotFits_iff.mpr (by omega)

theorem microStep_answers {s : State} (sound : s.Sound) (wrap : s.par.frameWrap = .wrap) :
    ∃ t, s.microStep = .next t := by
  cases place : s.compute with
  | idle => exact ⟨s, by simp only [State.microStep, place]⟩
  | pixel p =>
    obtain ⟨u, stepped⟩ := pixelStep_answers (sound.slotFits place)
    exact ⟨_, microStep_of_pixel place stepped⟩
  | count =>
    obtain ⟨u, counted⟩ := countStep_answers wrap
    exact ⟨_, microStep_of_count place counted⟩
  | publish => exact ⟨_, microStep_of_publish place⟩

/-! ## Steps -/

theorem producerTurn_answers {s : State} (sound : s.Sound) (wrap : s.par.frameWrap = .wrap) :
    ∃ t, producerTurn s = .next t :=
  andThen_answers (microStep_answers sound wrap) fun _ _ => ⟨_, rfl⟩

theorem runWord_answers {s : State} (w : Word40) (sound : s.Sound) (wrap : s.par.frameWrap = .wrap) :
    ∃ t, runWord w s = .next t := by
  cases decoded : decode w with
  | error e =>
    simp only [runWord, decoded, rejectWord]
    split <;> exact ⟨_, rfl⟩
  | ok i =>
    rw [runWord_of_decode decoded]
    exact (exec_verdict i s).answers fun _ noFault _ => wholeFrame_answers sound wrap noFault

theorem takeInput_answers {s : State} (i : Input) (sound : s.Sound) (wrap : s.par.frameWrap = .wrap) :
    ∃ t, takeInput i s = .next t := by
  cases i with
  | command agent w inside =>
    exact andThen_answers (runWord_answers w (sound.of_footing rfl) wrap) fun _ _ => ⟨_, rfl⟩
  | producer inside => exact producerTurn_answers (sound.of_footing rfl) wrap
  | engine | reset => exact ⟨_, rfl⟩

/-- Settles O12: a step is a micro-step, an engine step or the next input, and each of these answers. -/
theorem soundMachineAlwaysSteps : Obligations.SoundMachineAlwaysSteps := by
  unfold Obligations.SoundMachineAlwaysSteps
  intro s sound wrap
  have turn : ∃ t, producerTurn { s with inside := [] } = .next t :=
    producerTurn_answers (sound.of_footing rfl) wrap
  unfold step oneStep
  split
  · unfold unattended
    split
    · exact ⟨_, rfl⟩
    · exact turn
  · split
    · exact turn
    · exact takeInput_answers _ (sound.of_footing rfl) wrap

end Sys2Proof.Machine

/-! PROOF. In an ended run no command of the discipline moves anything but the taken flags (70_reset_and_hazards.md
R301). -/

namespace Sys2Proof.Machine

theorem State.Protocol.gate_closed {s : State} (h : s.Protocol) (shown : s.lastFrameShown = true) :
    s.gateOpen = false := by
  simp [State.gateOpen, h.i3 shown]

theorem graceCheck_of_shown {s : State} (shown : s.lastFrameShown = true) : s.graceCheck = s := by
  simp [State.graceCheck, shown]

/-- With the last frame shown the gate stays closed and START_FRAME does nothing (44_producer.md R182, 45_consumer.md
R210). -/
theorem Ran.of_shown {i : Instr} {s t : State} (h : Ran i s t) (shown : s.lastFrameShown = true)
    (closed : s.gateOpen = false) (disciplined : s.disciplinedCommand i = true) :
    t = { s with producerTaken := t.producerTaken, consumerTaken := t.consumerTaken, response := t.response } := by
  cases i with
  | takeProducer | takeConsumer | scale | rbLength | rdReg => exact h.hostWrites rfl
  | rbReadableView | rbWritableView =>
    obtain ⟨_, _, rfl⟩ := h
    rfl
  | computeFrame =>
    obtain ⟨_, ⟨_, _, rfl⟩ | ⟨opened, _⟩ | ⟨opened, _⟩⟩ := h
    · rfl
    · exact absurd (closed.symm.trans opened) nofun
    · exact absurd (closed.symm.trans opened) nofun
  | isAnimationFinished =>
    obtain ⟨_, rfl⟩ := h
    rw [graceCheck_of_shown shown]
    rfl
  | startFrame =>
    obtain ⟨_, ⟨_, _, rfl⟩ | ⟨unfinished, _⟩⟩ := h
    · rfl
    · exact absurd (shown.symm.trans unfinished) nofun
  | _ => cases disciplined

/-- Settles O49: an ended run has shown its last frame, so by I3 the gate is closed. -/
theorem endedRunIsFinal : Obligations.EndedRunIsFinal := by
  unfold Obligations.EndedRunIsFinal
  intro s t i ended protocol disciplined h
  simp only [State.ended, Bool.and_eq_true, decide_eq_true_eq] at ended
  obtain ⟨⟨stopped, _⟩, _⟩ := ended
  have shown := (lifecycle_eq_stopped_iff s).mp stopped
  rcases exec_cases h with ⟨st, _, rfl⟩ | ⟨_, ran⟩
  · rfl
  · exact ran.of_shown shown (protocol.gate_closed shown) disciplined

end Sys2Proof.Machine

/-! PROOF. In disciplined steps the region in flight stands still and is what is sent (47_collaborator_ports.md R235,
20_memory.md R82). -/

namespace Sys2Proof.Machine

/-- From `s` to `t` the transfer went on or ended, and every byte sent is the one the region active in `s` held
there. -/
structure SendsActive (s t : State) : Prop where
  region : t.txRegion = s.txRegion ∨ t.txRegion = none
  sent : ∃ es, t.history = s.history ++ es ∧ ∀ k v, Event.txByte k v ∈ es → v = s.readByte s.active k

theorem SendsActive.of_appended {s t : State} (es : List Event) (region : t.txRegion = s.txRegion)
    (appended : t.history = s.history ++ es) (silent : ∀ k v, Event.txByte k v ∉ es) : SendsActive s t :=
  ⟨.inl region, es, appended, fun k v sent => absurd sent (silent k v)⟩

/-- Neither the transfer nor the history was touched. -/
theorem SendsActive.of_eq {s t : State} (region : t.txRegion = s.txRegion) (history : t.history = s.history) :
    SendsActive s t :=
  .of_appended [] region (by simp [history]) (by simp)

theorem SendsActive.log {s t : State} {e : Event} (h : SendsActive s t) (silent : ∀ k v, e ≠ .txByte k v) :
    SendsActive s (t.log e) := by
  obtain ⟨es, appended, sent⟩ := h.sent
  refine ⟨h.region, es ++ [e], by simp [appended], fun k v mem => ?_⟩
  rcases List.mem_append.mp mem with mem | mem
  · exact sent k v mem
  · exact absurd (List.mem_singleton.mp mem).symm (silent k v)

theorem EngineFrame.sendsActive {s t : State} (h : EngineFrame s t) (hs : s.Protocol) : SendsActive s t := by
  obtain ⟨es, appended, _⟩ := h.history
  refine ⟨h.region, es, appended, fun k v mem => ?_⟩
  obtain ⟨r, flight, value⟩ := h.sent k v (newEvents appended ▸ mem)
  rw [value, hs.i5 r flight]

theorem PixelFrame.sendsActive {s t : State} (h : PixelFrame s t) (hs : s.Protocol) : SendsActive s t := by
  obtain ⟨es, appended, _⟩ := h.history
  exact ⟨h.region, es, appended, fun k v mem => h.sent hs.inactive_not_in_flight k v (newEvents appended ▸ mem)⟩

/-- H-c keeps START_FRAME out while a transfer is in flight; every other effect sends nothing, or paints beside it. -/
theorem DisciplinedEffect.sendsActive {s t : State} (h : DisciplinedEffect s t) (hs : s.Protocol)
    (flight : s.txRegion ≠ none) : SendsActive s t := by
  cases h with
  | plain changed => exact .of_eq (by rw [changed]) (by rw [changed])
  | gate _ _ changed => exact .of_eq (by rw [changed]) (by rw [changed])
  | frame _ u looped changed =>
    have painted := (pixelLoop_frame looped).sendsActive hs
    rw [changed]
    exact ⟨painted.region, painted.sent⟩
  | grace changed =>
    rw [changed, graceCheck_eq]
    exact .of_eq rfl rfl
  | transfer quiet _ _ => exact absurd quiet flight

theorem microStep_sendsActive {s t : State} (h : s.microStep = .next t) (hs : s.Protocol) : SendsActive s t := by
  rcases microStep_cases h with ⟨_, rfl⟩ | ⟨p, u, _, _, painted, rfl⟩ | ⟨_, rfl⟩ | ⟨_, rfl⟩
  · exact .of_eq rfl rfl
  · have sends := painted.sendsActive hs
    exact ⟨sends.region, sends.sent⟩
  · exact .of_eq rfl rfl
  · exact .of_appended [.completed ⟨.ok, 1⟩] rfl rfl (by simp)

theorem step_sendsActive {s t : State} (hs : s.Protocol) (discipline : s.disciplined = true ∨ s.nextReads = true)
    (h : step s = .next t) (stays : s.nextIsReset = false) (flight : s.txRegion ≠ none) : SendsActive s t := by
  rcases step_cases h with ⟨par, cfg, rest, hi, _⟩ | ⟨ins, _, rfl⟩ | ⟨ins, inside, u, _, hu, rfl⟩ |
      ⟨agent, w, inside, rest, u, hi, hh, hu, rfl⟩
  · simp [State.nextIsReset, hi] at stays
  · have sends := (engineStep_frame { s with inputs := ins }).sendsActive (hs.of_flags rfl rfl rfl)
    exact ⟨sends.region, sends.sent⟩
  · have sends := microStep_sendsActive hu (hs.of_flags rfl rfl rfl)
    exact ⟨sends.region, sends.sent⟩
  · have sends : SendsActive { s with inputs := rest, inside := inside } u := by
      rcases runWord_cases hu with ⟨i, hd, executed⟩ | ⟨_, st, _, _, rfl⟩
      · rcases disciplined_or_reads discipline hi hh hd with disciplined | ⟨off, rfl⟩
        · exact (exec_effect executed disciplined (idle_of_producer (s := s) hh hd)).sendsActive
            (hs.of_flags rfl rfl rfl) flight
        · rw [exec_rbRead_eq executed]
          exact .of_eq rfl rfl
      · exact .of_eq rfl rfl
    have logged := sends.log (e := .command agent w u.response) nofun
    exact ⟨logged.region, logged.sent⟩

/-- Settles O55: by I5 the region in flight is the active one, which no step writes (O46) and from which alone a
disciplined step sends. -/
theorem regionInFlightStandsStill : Obligations.RegionInFlightStandsStill := by
  unfold Obligations.RegionInFlightStandsStill
  intro s t r hs discipline h stays flight
  obtain rfl := hs.i5 r flight
  obtain ⟨region, es, appended, sent⟩ := step_sendsActive hs discipline h stays (by simp [flight])
  rw [flight] at region
  exact ⟨activeRegionIsNeverWritten s t h stays, region, newEvents appended ▸ sent⟩

end Sys2Proof.Machine
